-- ==== Sys2Proof/Word.lean ====
section
/-! DEFINITION. The unit of data (00_scope.md R7: the 8-bit byte) and the byte sequence (R9). -/

namespace Sys2Proof

/-- A byte: an unsigned integer 0..255 (R9). Bit 7 is its most significant bit (R10). -/
abbrev Byte := BitVec 8

/-- A 16-bit quantity: a CRC value, a field-vector container, a length field. -/
abbrev Half := BitVec 16

/-- A byte sequence `B`, index 0 first: first on the wire and first into the CRC (R9). -/
abbrev Bytes := List Byte

end Sys2Proof
end

