-- ==== Sys2Proof/Config.lean ====
section
/-! DEFINITION. The configuration parameters of one block instance (00_scope.md R6) and the model's one free value.
What is computed from the parameters (MAX_FRAME, the legal ranges, the ACK masks) stands in Machine/Params.lean. -/

namespace Sys2Proof

/-- `ACK_BIT_ORDER` (R6, R67): how the four ACK-flag names map onto the 4-bit ACK field. -/
inductive AckBitOrder where
  | lsb0
  | msb0
deriving DecidableEq, Repr

/-- The parameters of R6. They are constants for the lifetime of an instance and arguments of the model; the model
holds them in `State.cfg`, which no step changes (assumption 1). -/
structure Config where
  /-- `MAX_PACKET`: the largest unframed packet, in bytes. -/
  maxPacket : Nat
  /-- `RXQ_DEPTH`: the capacity of the receive queue, in frames. -/
  rxqDepth : Nat
  /-- `COBS_FULL_BLOCK_TRAILER`: FRAME emits a 0x01 code byte after a final full block. -/
  cobsFullBlockTrailer : Bool
  /-- `ACK_BIT_ORDER`. -/
  ackBitOrder : AckBitOrder
deriving DecidableEq, Repr

/-- The instance of the spec's test vectors (95_test_vectors.md, Conventions): MAX_PACKET 256, RXQ_DEPTH 4, and the
defaults of R6 for the other two. DESIGN CHOICE: it is the instance that `State.reset` describes (assumption 1). -/
def Config.vectorInstance : Config :=
  { maxPacket := 256, rxqDepth := 4, cobsFullBlockTrailer := false, ackBitOrder := .lsb0 }

/-- FREE VALUE. What the CRC register holds between commands (10_state.md R23: it "holds no value between commands";
93_implementation_defined.md I8: any value). The argument counts the times the register was let go (assumption 3). -/
opaque Config.crcBetween : Nat → Half

end Sys2Proof
end

