-- ==== Sys2Proof/Syntax.lean ====
section
/-! DEFINITION. What the block can be asked to do: one constructor of `Instr` per row of spec/opcode_table.json
(30_encoding.md R75), and the inputs of the block's interfaces (10_state.md R31). -/

namespace Sys2Proof

/-- The 17 commands of R75, each with its operand bytes `op[0..LEN-1]` (R72), and the RX link event RX.BYTE (R148).
The operand stays the raw byte sequence: an operand of a wrong length or with an out-of-range container is a command the
block executes, with a status of its own (R77, R79). -/
inductive Instr where
  | crcCompute (op : Bytes)
  | crcUpdate (op : Bytes)
  | crcValidate (op : Bytes)
  | crcAppend (op : Bytes)
  | phEncode (op : Bytes)
  | phDecode (op : Bytes)
  | tcshEncode (op : Bytes)
  | tcshDecode (op : Bytes)
  | tmshEncode (op : Bytes)
  | tmshDecode (op : Bytes)
  | cobsFrame (op : Bytes)
  | cobsDeframe (op : Bytes)
  | rxPop (op : Bytes)
  | rxStatus (op : Bytes)
  | tmAssemble (op : Bytes)
  | tmSend (op : Bytes)
  | tcIngest (op : Bytes)
  | rxByte (b : Byte)
deriving DecidableEq, Repr

/-- One input of the block. The block's behaviour is a single total order of steps, each a HOST command or an RX.BYTE
event (20_memory.md R58), with reset asserted between steps (70_reset_and_hazards.md R220). -/
inductive Event where
  /-- HOST: the bytes presented on the command port up to the response: a command word and its operand (R32, R72). -/
  | command (port : Bytes)
  /-- RXLINK: one byte on the RX link (R34, R148). -/
  | rxByte (b : Byte)
  /-- The platform's reset pulse, between steps (R220). -/
  | reset
  /-- A reset pulse inside a command or an RX.BYTE event, which no platform may give (R220, I10). -/
  | resetMidStep
deriving DecidableEq, Repr

end Sys2Proof
end

