-- ==== Sys2Proof/WellFormed.lean ====
section
/-! DEFINITION. Which `Instr` terms are commands the port can carry: an operand of at most 65535 bytes
(00_scope.md R8, the 16-bit LEN field of 30_encoding.md R72). -/

namespace Sys2Proof

/-- The operand bytes of a command; the RX link event has none. -/
def Instr.operand : Instr → Bytes
  | .crcCompute op => op
  | .crcUpdate op => op
  | .crcValidate op => op
  | .crcAppend op => op
  | .phEncode op => op
  | .phDecode op => op
  | .tcshEncode op => op
  | .tcshDecode op => op
  | .tmshEncode op => op
  | .tmshDecode op => op
  | .cobsFrame op => op
  | .cobsDeframe op => op
  | .rxPop op => op
  | .rxStatus op => op
  | .tmAssemble op => op
  | .tmSend op => op
  | .tcIngest op => op
  | .rxByte _ => []

/-- The one check: `LEN = |op|` fits its 16-bit field (R8, R72). -/
def Instr.wellFormed (i : Instr) : Bool := decide (i.operand.length ≤ 65535)

end Sys2Proof
end

