-- ==== Sys2Proof/Decode.lean ====
section
/-! DEFINITION. The command port's encoding (30_encoding.md Part B): big-endian halves, the decoder, total on any bytes,
and after it the encoder, both written from R72 and R75. -/

namespace Sys2Proof

/-! ### Big-endian halves (00_scope.md R11, 20_memory.md R50) -/

/-- `be16(v) = [v[15:8], v[7:0]]` (R11). -/
def be16 (v : Half) : Bytes := [v.extractLsb' 8 8, v.extractLsb' 0 8]

/-- `hi·256 + lo`: the value of two bytes, high byte first (`u16be` of R11). -/
def u16be (hi lo : Byte) : Half := hi ++ lo

/-- `be16` of a length: LEN, RLEN, ACCLEN (R50). -/
def be16Nat (n : Nat) : Bytes := be16 (BitVec.ofNat 16 n)

/-! ### The decoder -/

/-- Why bytes on the command port are no command of the opcode map. -/
inductive DecodeRefusal where
  /-- Fewer than the 4 bytes of a command word (R72). -/
  | missingWord
  /-- Fewer operand bytes than LEN announces (R72, R36). -/
  | missingOperand
  /-- Bytes beyond the command's 4 + LEN: a second command before the response (R226). -/
  | bytesAfterCommand
  /-- RSV is not 0x00 (R76). -/
  | reservedNotZero (rsv : Byte)
  /-- OPC is none of the 17 assigned values (R75, R76). -/
  | unassignedOpcode (opc : Byte)
  /-- The input is a reset pulse, which has no encoding (R220). -/
  | notAnInstruction
deriving DecidableEq, Repr

/-- The fields of one command: OPC, RSV and the LEN operand bytes (R72). -/
structure RawCommand where
  opc : Byte
  rsv : Byte
  op : Bytes
deriving DecidableEq, Repr

/-- Read one command off a byte stream: 4 bytes, LEN from bytes 2..3, then LEN operand bytes; the opcode is not needed to
find where the next command starts (R73). Answers the command and the rest of the stream. -/
def readCommand : Bytes → Except DecodeRefusal (RawCommand × Bytes)
  | opc :: rsv :: lenHi :: lenLo :: body =>
    let len := (u16be lenHi lenLo).toNat
    if body.length < len then .error .missingOperand
    else .ok (⟨opc, rsv, body.take len⟩, body.drop len)
  | _ => .error .missingWord

/-- The opcode map of R75; every other value is unassigned (R76). -/
def decodeOpcode (opc : Byte) (op : Bytes) : Option Instr :=
  match opc.toNat with
  | 0x01 => some (.crcCompute op)
  | 0x02 => some (.crcUpdate op)
  | 0x03 => some (.crcValidate op)
  | 0x04 => some (.crcAppend op)
  | 0x10 => some (.phEncode op)
  | 0x11 => some (.phDecode op)
  | 0x12 => some (.tcshEncode op)
  | 0x13 => some (.tcshDecode op)
  | 0x14 => some (.tmshEncode op)
  | 0x15 => some (.tmshDecode op)
  | 0x20 => some (.cobsFrame op)
  | 0x21 => some (.cobsDeframe op)
  | 0x22 => some (.rxPop op)
  | 0x23 => some (.rxStatus op)
  | 0x30 => some (.tmAssemble op)
  | 0x31 => some (.tmSend op)
  | 0x32 => some (.tcIngest op)
  | _ => none

/-- A command's fields to its instruction: OPC and RSV are the first check of a command (R76, R85). -/
def decodeFields (c : RawCommand) : Except DecodeRefusal Instr :=
  if c.rsv ≠ 0x00 then .error (.reservedNotZero c.rsv)
  else match decodeOpcode c.opc c.op with
    | some i => .ok i
    | none => .error (.unassignedOpcode c.opc)

/-- The bytes presented on the command port up to the response: exactly one command (R32, R72). -/
def decodeCommand (port : Bytes) : Except DecodeRefusal Instr :=
  match readCommand port with
  | .error e => .error e
  | .ok (c, rest) => if rest ≠ [] then .error .bytesAfterCommand else decodeFields c

/-- The instruction an input stands for: a command of the port, or the RX link's byte, which has no opcode (R75). -/
def decodeEvent : Event → Except DecodeRefusal Instr
  | .command port => decodeCommand port
  | .rxByte b => .ok (.rxByte b)
  | .reset => .error .notAnInstruction
  | .resetMidStep => .error .notAnInstruction

/-! ### The encoder -/

/-- The port bytes `[OPC, RSV, LEN[15:8], LEN[7:0]] ++ op` with RSV = 0x00 (R72). -/
def commandBytes (opc : Byte) (op : Bytes) : Bytes := opc :: 0x00 :: (be16Nat op.length ++ op)

/-- The input that presents an instruction (R72, R75). -/
def encode : Instr → Event
  | .crcCompute op => .command (commandBytes 0x01 op)
  | .crcUpdate op => .command (commandBytes 0x02 op)
  | .crcValidate op => .command (commandBytes 0x03 op)
  | .crcAppend op => .command (commandBytes 0x04 op)
  | .phEncode op => .command (commandBytes 0x10 op)
  | .phDecode op => .command (commandBytes 0x11 op)
  | .tcshEncode op => .command (commandBytes 0x12 op)
  | .tcshDecode op => .command (commandBytes 0x13 op)
  | .tmshEncode op => .command (commandBytes 0x14 op)
  | .tmshDecode op => .command (commandBytes 0x15 op)
  | .cobsFrame op => .command (commandBytes 0x20 op)
  | .cobsDeframe op => .command (commandBytes 0x21 op)
  | .rxPop op => .command (commandBytes 0x22 op)
  | .rxStatus op => .command (commandBytes 0x23 op)
  | .tmAssemble op => .command (commandBytes 0x30 op)
  | .tmSend op => .command (commandBytes 0x31 op)
  | .tcIngest op => .command (commandBytes 0x32 op)
  | .rxByte b => .rxByte b

/-! ### Words numbered as the opcode table numbers them -/

/-- The port bytes of the command whose 32-bit word is the low 32 bits of `v`, big-endian on the port (R72), and whose
operand byte `k` is bits 39+8k..32+8k of `v` (assumption 13). -/
def tableBytes (v : Nat) : Bytes :=
  [BitVec.ofNat 8 (v >>> 24), BitVec.ofNat 8 (v >>> 16), BitVec.ofNat 8 (v >>> 8), BitVec.ofNat 8 v] ++
    (List.range (v % 65536)).map fun k => BitVec.ofNat 8 (v >>> (32 + 8 * k))

/-- The input that presents a table row's word: the 8-bit row is RX.BYTE, every other row a command. -/
def tableEvent (nbits w : Nat) : Event :=
  if nbits = 8 then .rxByte (BitVec.ofNat 8 w) else .command (tableBytes (w % 2 ^ nbits))

/-- The instruction the decoder reads from a table row's word. -/
def decodeTableWord (nbits w : Nat) : Option Instr :=
  match decodeEvent (tableEvent nbits w) with
  | .ok i => some i
  | .error _ => none

end Sys2Proof
end

