-- ==== Sys2Proof/Machine/State.lean ====
section
/-! DEFINITION. The state of the block (10_state.md R22 to R27, R33), the outcomes a step can have, and the state after
power-on reset. The first five fields of `State` are the architectural tuple S of R22; the others are named for what they
are, the model's own. -/

namespace Sys2Proof.Machine

/-- The status codes of 60_exceptions.md R190; no other code is ever returned. -/
inductive Status where
  | ok
  | checksumMismatch
  | truncated
  | malformed
  | tooLong
  | illegalCommand
  | empty
deriving DecidableEq, Repr

/-- One response on the command port: a status and the result bytes (30_encoding.md R74). -/
structure Response where
  status : Status
  result : Bytes
deriving DecidableEq, Repr

/-- Why the machine stops with a fault: never. "The block therefore has no traps, and every failure is a status code
returned in the failing command's response" (60_exceptions.md, R195, R196), so no constructor exists and no meaning can
raise one. Safe: nothing is claimed of a fault (assumption 10). -/
inductive Fault where
deriving DecidableEq, Repr

/-- Why the model refuses a run. -/
inductive Refusal where
  /-- Raised by an arm of `exec` whose instruction has no meaning yet (none of them now). Safe: the run stops. -/
  | notModelled (mnemonic : String)
  /-- Raised by a step whose command event holds fewer bytes than the command's 4 + LEN: the host must "keep LEN equal
  to the operand byte count" (R36). No instruction raises it. Safe: the run stops (assumption 7). -/
  | incompleteCommand
  /-- Raised by a step whose command event holds bytes beyond the command's 4 + LEN, a second command before the first's
  response: "a model refuses such a run" (R226, I9). No instruction raises it. Safe: the run stops (assumption 8). -/
  | overlappingCommand
  /-- Raised by a step whose event is a reset pulse inside a command or an RX.BYTE event: reset is only between steps
  (R220, I10: refuse). No instruction raises it. Safe: the run stops (assumption 9). -/
  | resetMidStep
deriving DecidableEq, Repr

structure State where
  /-- `rx_acc`: the frame accumulator, the non-delimiter bytes since the last 0x00 (R24). -/
  rxAcc : Bytes
  /-- `rx_discard`: 1 while the bytes of an over-long frame are dropped (R25). -/
  rxDiscard : Bool
  /-- `rx_lost`: sticky, 1 after a received frame was dropped (R26). -/
  rxLost : Bool
  /-- `rxq`: the FIFO of completed frames, oldest first (R27). -/
  rxq : List Bytes
  /-- `tx_out`: the append-only history of bytes emitted on the TX port (R33). -/
  txOut : Bytes
  /-- `crc`: the 16-bit working register of the CRC engine (R23). -/
  crc : Half
  /-- The model's own: how many times the CRC register was let go; picks its next free value (assumption 3). -/
  crcTick : Nat
  /-- The parameters of this instance (R6, R30); no step changes them (assumption 1). -/
  cfg : Config
  /-- The model's own: the responses returned on the command port, oldest first, an observation (assumption 6). -/
  responses : List Response
  /-- The model's own: the inputs still to come, in the order of the steps they cause (R58, assumption 4). -/
  pending : List Event
deriving DecidableEq, Repr

/-- Power-on of an instance: R38's values, `tx_out` empty (R220). The CRC register has no reset value in the spec (R222);
zero is the DESIGN CHOICE of assumption 2. -/
def State.powerOn (cfg : Config) : State :=
  { rxAcc := [], rxDiscard := false, rxLost := false, rxq := [], txOut := [], crc := 0, crcTick := 0, cfg := cfg,
    responses := [], pending := [] }

/-- The machine right after reset, for the instance of the spec's vectors (assumption 1); no input is pending. -/
def State.reset : State := State.powerOn Config.vectorInstance

end Sys2Proof.Machine
end

