-- ==== Sys2Proof/Machine/Params.lean ====
section
/-! DEFINITION. What is computed from the parameters of an instance (00_scope.md R6) and the ACK-flag masks
(30_encoding.md R67). -/

namespace Sys2Proof

/-- `MAX_FRAME = MAX_PACKET + floor(MAX_PACKET / 254) + 2`, terminator included (R6). -/
def Config.maxFrame (c : Config) : Nat := c.maxPacket + c.maxPacket / 254 + 2

/-- The legal values of the parameters (R6). -/
abbrev Config.Legal (c : Config) : Prop :=
  17 ≤ c.maxPacket ∧ c.maxPacket ≤ 65277 ∧ 1 ≤ c.rxqDepth ∧ c.rxqDepth ≤ 255

namespace Machine

/-- The four requests that `ack_flags` names (R67). -/
inductive AckFlag where
  | acceptance
  | start
  | progress
  | completion
deriving DecidableEq, Repr

/-- The sub-bit of the 4-bit ACK field that a request has under each numbering (R67). No operation reads it. -/
def ackMask : AckBitOrder → AckFlag → BitVec 4
  | .lsb0, .acceptance => 0x8
  | .lsb0, .start => 0x4
  | .lsb0, .progress => 0x2
  | .lsb0, .completion => 0x1
  | .msb0, .acceptance => 0x1
  | .msb0, .start => 0x2
  | .msb0, .progress => 0x4
  | .msb0, .completion => 0x8

/-- Whether an ACK field requests a stage of verification, as the instance numbers its bits (R67). -/
def ackRequested (c : Config) (ack : BitVec 4) (f : AckFlag) : Bool := ack &&& ackMask c.ackBitOrder f != 0

end Machine

end Sys2Proof
end

