-- ==== Sys2Proof/Machine/Ops.lean ====
section
/-! DEFINITION. The named operations over the state: the pseudocode primitives of 00_scope.md R12, the response, the CRC
register, and reset. The block has no memory and no registers to access (R20, R46), no traps and no return from one
(60_exceptions.md R196, R197): `raise` is its one way to fail. -/

namespace Sys2Proof.Machine

/-! ### The response (30_encoding.md R74) -/

/-- The 8-bit code of a status (60_exceptions.md R190). -/
def Status.code : Status → Byte
  | .ok => 0x00
  | .checksumMismatch => 0x01
  | .truncated => 0x02
  | .malformed => 0x03
  | .tooLong => 0x04
  | .illegalCommand => 0x05
  | .empty => 0x06

/-- A response as bytes: `[STATUS] ++ be16(RLEN) ++ result` (R74). -/
def Response.bytes (r : Response) : Bytes := [r.status.code] ++ be16Nat r.result.length ++ r.result

/-- The command returns its response on the command port (R32). -/
def State.respond (s : State) (r : Response) : State := { s with responses := s.responses ++ [r] }

/-- What a step of the block answers: the block always goes on (R196, R197). -/
abbrev Result := Host.Outcome State Fault Refusal

/-- `return R`: the command ends with status OK and result `R` (R12). -/
def finish (s : State) (R : Bytes) : Result := .next (s.respond ⟨.ok, R⟩)

/-- `raise S`: the command ends with status `S`, an empty result and no change to any state (R12, R195). This is all that a
failure does: nothing is saved, no mode changes, control goes nowhere (R196), and nothing need be restored (R197). -/
def raise (s : State) (st : Status) : Result := .next (s.respond ⟨st, []⟩)

/-! ### The CRC register (10_state.md R23) -/

/-- `crc <- v`. -/
def State.setCrc (s : State) (v : Half) : State := { s with crc := v }

/-- The end of a command that used the CRC register: it "holds no value between commands" (R23), so what it holds then is
a free value (assumption 3). -/
def State.releaseCrc (s : State) : State := { s with crc := Config.crcBetween s.crcTick, crcTick := s.crcTick + 1 }

/-! ### The TX port (10_state.md R33) -/

/-- `emit_tx(B)`: append `B` to the TX port history (R12). -/
def State.emitTx (s : State) (B : Bytes) : State := { s with txOut := s.txOut ++ B }

/-! ### The frame synchronizer's state (10_state.md R24 to R27) -/

/-- `rx_acc <- B`. -/
def State.setAcc (s : State) (B : Bytes) : State := { s with rxAcc := B }

/-- `rx_discard <- v`. -/
def State.setDiscard (s : State) (v : Bool) : State := { s with rxDiscard := v }

/-- `rx_lost <- v`. -/
def State.setLost (s : State) (v : Bool) : State := { s with rxLost := v }

/-- `rxq <- q`. -/
def State.setRxq (s : State) (q : List Bytes) : State := { s with rxq := q }

/-- `rxq.push(F)` (R12). -/
def State.pushFrame (s : State) (F : Bytes) : State := s.setRxq (s.rxq ++ [F])

/-! ### Inputs and reset -/

/-- The inputs still to come. -/
def State.setPending (s : State) (es : List Event) : State := { s with pending := es }

/-- The reset event (70_reset_and_hazards.md R220): the synchronizer is emptied and both flags cleared; `tx_out` and the
parameters are not altered. The CRC register is don't-care (R38, R222), so it is let go. -/
def State.resetPulse (s : State) : State :=
  ((((s.setAcc []).setDiscard false).setLost false).setRxq []).releaseCrc

end Sys2Proof.Machine
end

