-- ==== Sys2Proof/Machine/Flags.lean ====
section
/-! DEFINITION. The flags and the one status register a host can see: the RX status register (10_state.md R28) and the
`rx_ready` level (R35). The block has no condition codes (R29). -/

namespace Sys2Proof.Machine

/-- One bit as the unsigned value it has in a register field. -/
def flagBit (b : Bool) (pos : Nat) : Byte := if b then BitVec.ofNat 8 (2 ^ pos) else 0

/-- Byte 1 of the RX status register: RX_DISCARD is bit 0, RX_LOST bit 1, bits 7:2 read 0 (R28, R153). -/
def rxFlagsByte (s : State) : Byte := flagBit s.rxLost 1 ||| flagBit s.rxDiscard 0

/-- The RX status register as RX.STATUS reads it: QCOUNT, the flags, ACCLEN big-endian (R28). -/
def rxStatusRegister (s : State) : Bytes :=
  [BitVec.ofNat 8 s.rxq.length] ++ [rxFlagsByte s] ++ be16Nat s.rxAcc.length

/-- `rx_ready`: a level equal to 1 exactly when |rxq| > 0; a function of the state, not state of its own (R35, R199). -/
def State.rxReady (s : State) : Bool := decide (0 < s.rxq.length)

end Sys2Proof.Machine
end

