-- ==== Sys2Proof/Machine/Records.lean ====
section
/-! DEFINITION. The typed header records (00_scope.md R14): each field has exactly the width of 30_encoding.md R64, R66
or R68, so a value outside its range cannot be represented. And ValidatedTc, the result of TC ingest (43_packets.md R176). -/

namespace Sys2Proof.Machine

/-- The primary header, 48 bits (R64). -/
structure PrimaryHeader where
  version : BitVec 3
  packetType : BitVec 1
  secHdrFlag : BitVec 1
  apid : BitVec 11
  seqFlags : BitVec 2
  seqCount : BitVec 14
  dataLength : BitVec 16
deriving DecidableEq, Repr

/-- The PUS TC secondary header, 40 bits (R66). -/
structure TcHeader where
  pusVersion : BitVec 4
  ackFlags : BitVec 4
  serviceType : BitVec 8
  subtype : BitVec 8
  sourceId : BitVec 16
deriving DecidableEq, Repr

/-- The PUS TM secondary header, 72 bits (R68). -/
structure TmHeader where
  pusVersion : BitVec 4
  timeRefStatus : BitVec 4
  serviceType : BitVec 8
  subtype : BitVec 8
  msgTypeCounter : BitVec 16
  destinationId : BitVec 16
  coarseTime : BitVec 16
deriving DecidableEq, Repr

/-- What TC ingest returns: the primary header, the TC secondary header or none, and the payload (R176). -/
structure ValidatedTc where
  ph : PrimaryHeader
  tc : Option TcHeader
  payload : Bytes
deriving DecidableEq, Repr

end Sys2Proof.Machine
end

