-- ==== Sys2Proof/Machine/Operands.lean ====
section
/-! DEFINITION. The operand forms of the command port: operand bytes and their length checks (30_encoding.md R77), and
field vectors with their range check (R78 to R82). -/

namespace Sys2Proof.Machine

/-! ### Bytes of an operand -/

/-- `B[i]`. Every use stands behind a length check, so the 0 beyond the end is never read (assumption 14). -/
def byteAt (B : Bytes) (i : Nat) : Byte := B.getD i 0

/-- `u16be(B, i) = B[i]·256 + B[i+1]` (R11). -/
def u16beAt (B : Bytes) (i : Nat) : Half := u16be (byteAt B i) (byteAt B (i + 1))

/-! ### Length checks (R77) -/

/-- A command with a fixed LEN: TRUNCATED when LEN is smaller, MALFORMED when it is larger (R77). -/
def withFixedLen (n : Nat) (op : Bytes) (s : State) (body : Result) : Result :=
  if op.length < n then raise s .truncated
  else if op.length > n then raise s .malformed
  else body

/-- A command with a minimum LEN: TRUNCATED when LEN is below it (R77). -/
def withMinLen (n : Nat) (op : Bytes) (s : State) (body : Result) : Result :=
  if op.length < n then raise s .truncated else body

/-! ### Field vectors (R78, R79) -/

/-- Container `j` of a field vector: one 16-bit big-endian container a field (R78). -/
def container (fv : Bytes) (j : Nat) : Half := u16beAt fv (2 * j)

/-- The range check of R79, in container order: no container has a set bit above its field's width. The list gives the
widths of the containers from number `j` on. -/
def fvInRange (fv : Bytes) : Nat → List Nat → Bool
  | _, [] => true
  | j, w :: ws => decide ((container fv j).toNat < 2 ^ w) && fvInRange fv (j + 1) ws

/-- The field widths of the primary header, in FV order (R64, R80). -/
def phWidths : List Nat := [3, 1, 1, 11, 2, 14, 16]

/-- The field widths of the TC secondary header, in FV order (R66, R81). -/
def tcshWidths : List Nat := [4, 4, 8, 8, 16]

/-- The field widths of the TM secondary header, in FV order (R68, R82). -/
def tmshWidths : List Nat := [4, 4, 8, 8, 16, 16, 16]

/-- A command whose operand starts with a field vector: MALFORMED if a container is out of range; the value is neither
truncated nor masked (R79). -/
def withRange (fv : Bytes) (widths : List Nat) (s : State) (body : Result) : Result :=
  if fvInRange fv 0 widths then body else raise s .malformed

/-- The record of the containers of a PH FV (R80). -/
def phOfFv (fv : Bytes) : PrimaryHeader :=
  { version := (container fv 0).setWidth 3
    packetType := (container fv 1).setWidth 1
    secHdrFlag := (container fv 2).setWidth 1
    apid := (container fv 3).setWidth 11
    seqFlags := (container fv 4).setWidth 2
    seqCount := (container fv 5).setWidth 14
    dataLength := container fv 6 }

/-- The PH FV of a record, 14 bytes: the value in the container's low bits, every higher bit 0 (R78, R80). -/
def phToFv (h : PrimaryHeader) : Bytes :=
  be16 (h.version.setWidth 16) ++ be16 (h.packetType.setWidth 16) ++ be16 (h.secHdrFlag.setWidth 16) ++
    be16 (h.apid.setWidth 16) ++ be16 (h.seqFlags.setWidth 16) ++ be16 (h.seqCount.setWidth 16) ++ be16 h.dataLength

/-- The record of the containers of a TCSH FV (R81). -/
def tcshOfFv (fv : Bytes) : TcHeader :=
  { pusVersion := (container fv 0).setWidth 4
    ackFlags := (container fv 1).setWidth 4
    serviceType := (container fv 2).setWidth 8
    subtype := (container fv 3).setWidth 8
    sourceId := container fv 4 }

/-- The TCSH FV of a record, 10 bytes (R78, R81). -/
def tcshToFv (t : TcHeader) : Bytes :=
  be16 (t.pusVersion.setWidth 16) ++ be16 (t.ackFlags.setWidth 16) ++ be16 (t.serviceType.setWidth 16) ++
    be16 (t.subtype.setWidth 16) ++ be16 t.sourceId

/-- The record of the containers of a TMSH FV (R82). -/
def tmshOfFv (fv : Bytes) : TmHeader :=
  { pusVersion := (container fv 0).setWidth 4
    timeRefStatus := (container fv 1).setWidth 4
    serviceType := (container fv 2).setWidth 8
    subtype := (container fv 3).setWidth 8
    msgTypeCounter := container fv 4
    destinationId := container fv 5
    coarseTime := container fv 6 }

/-- The TMSH FV of a record, 14 bytes (R78, R82). -/
def tmshToFv (m : TmHeader) : Bytes :=
  be16 (m.pusVersion.setWidth 16) ++ be16 (m.timeRefStatus.setWidth 16) ++ be16 (m.serviceType.setWidth 16) ++
    be16 (m.subtype.setWidth 16) ++ be16 m.msgTypeCounter ++ be16 m.destinationId ++ be16 m.coarseTime

end Sys2Proof.Machine
end

