-- ==== Sys2Proof/Machine/Crc.lean ====
section
/-! DEFINITION. The CRC-16/CCITT engine (40_crc.md): the bit-serial kernel and the commands CRC.COMPUTE, CRC.UPDATE,
CRC.VALIDATE and CRC.APPEND. -/

namespace Sys2Proof.Machine

/-! ### The CRC function -/

/-- One bit of the kernel: `fb <- c[15] XOR b[i]`, shift left within 16 bits, and XOR 0x1021 if `fb = 1` (R100). -/
def crcBit (c : Half) (bit : Bool) : Half :=
  if c.getLsbD 15 ^^ bit then (c <<< 1) ^^^ 0x1021 else c <<< 1

/-- One byte of the kernel, most-significant bit first (R100, 20_memory.md R52). -/
def crcByte (c : Half) (b : Byte) : Half := [7, 6, 5, 4, 3, 2, 1, 0].foldl (fun c i => crcBit c (b.getLsbD i)) c

/-- `crc_update(c, D)`: the bytes in index order (R100). -/
def crcUpdate (c : Half) (D : Bytes) : Half := D.foldl crcByte c

/-- `crc16(D) = crc_update(0xFFFF, D)` (R101). -/
def crc16 (D : Bytes) : Half := crcUpdate 0xFFFF D

/-- One shift of the byte-wise form: left by one, and XOR 0x1021 if `c[15] = 1` (R102). -/
def crcShift (c : Half) : Half := if c.getLsbD 15 then (c <<< 1) ^^^ 0x1021 else c <<< 1

/-- The byte-wise form of one byte: XOR the byte into the high half, then eight shifts (R102). -/
def crcByteWise (c : Half) (b : Byte) : Half := Nat.repeat crcShift 8 (c ^^^ (b.setWidth 16 <<< 8))

/-- The working register loaded with `init` and advanced over `D` (R100, 10_state.md R23). -/
def State.runCrc (s : State) (init : Half) (D : Bytes) : State :=
  let s := s.setCrc init
  s.setCrc (crcUpdate s.crc D)

/-! ### The commands -/

/-- CRC.COMPUTE (R104). -/
def execCrcCompute (op : Bytes) (s : State) : Result :=
  let s := s.runCrc 0xFFFF op
  finish s.releaseCrc (be16 s.crc)

/-- CRC.UPDATE (R105): `op = be16(seed) ++ D`. -/
def execCrcUpdate (op : Bytes) (s : State) : Result :=
  withMinLen 2 op s <|
    let s := s.runCrc (u16beAt op 0) (op.drop 2)
    finish s.releaseCrc (be16 s.crc)

/-- CRC.VALIDATE (R106): the last two bytes are the big-endian received CRC (20_memory.md R49). -/
def execCrcValidate (op : Bytes) (s : State) : Result :=
  withMinLen 2 op s <|
    let received := u16beAt op (op.length - 2)
    let s := s.runCrc 0xFFFF (op.take (op.length - 2))
    if s.crc ≠ received then raise s.releaseCrc .checksumMismatch else finish s.releaseCrc []

/-- CRC.APPEND (R107): TOO_LONG when the result would exceed 65535 bytes. -/
def execCrcAppend (op : Bytes) (s : State) : Result :=
  if op.length > 65533 then raise s .tooLong
  else
    let s := s.runCrc 0xFFFF op
    finish s.releaseCrc (op ++ be16 s.crc)

end Sys2Proof.Machine
end

