-- ==== Sys2Proof/Machine/Framing.lean ====
section
/-! DEFINITION. The COBS framer and de-framer (42_framing.md sections 1 and 2) and the commands COBS.FRAME and
COBS.DEFRAME. The stuffing algorithm is the spec's, which marks it as general knowledge (assumption 15). -/

namespace Sys2Proof.Machine

/-! ### The framing functions -/

/-- A block of a frame: its code byte, one more than the number of data bytes, then the data (R140, R141). -/
def cobsBlock (blk : Bytes) : Bytes := BitVec.ofNat 8 (blk.length + 1) :: blk

/-- The loop of `cobs_frame` (R140). `blk` holds the data bytes written since the pending code byte `out[cp]`, so `code`
is |blk| + 1; a block is written out, code byte first, when the loop stores its code. `T` is
COBS_FULL_BLOCK_TRAILER. -/
def cobsFrameFrom (T : Bool) : Bytes → Bytes → Bytes
  | blk, [] => cobsBlock blk ++ [0x00]
  | blk, b :: D =>
    if b = 0x00 then cobsBlock blk ++ cobsFrameFrom T [] D
    else if blk.length + 2 = 0xFF ∧ (T = true ∨ D ≠ []) then cobsBlock (blk ++ [b]) ++ cobsFrameFrom T [] D
    else cobsFrameFrom T (blk ++ [b]) D

/-- `cobs_frame(D)`: the frame, with its single 0x00 terminator (R140). -/
def cobsFrame (T : Bool) (D : Bytes) : Bytes := cobsFrameFrom T [] D

/-- The loop of `cobs_deframe` over the body of a frame (R143): the code byte, a check that its block does not run past
the end, the block, and a 0x00 between blocks unless the code is 0xFF. Every round takes at least one byte, so the
first argument, which bounds the rounds, is the body's length. -/
def cobsDeframeBody : Nat → Bytes → Option Bytes
  | _, [] => some []
  | 0, _ :: _ => none
  | n + 1, code :: rest =>
    if rest.length + 1 < code.toNat then none
    else
      let tail := rest.drop (code.toNat - 1)
      match cobsDeframeBody n tail with
      | none => none
      | some out =>
        some (rest.take (code.toNat - 1) ++ (if code.toNat < 0xFF ∧ tail ≠ [] then [0x00] else []) ++ out)

/-- `cobs_deframe(F)`: the de-framed bytes, or none where it fails (R143, R144). -/
def cobsDeframe (F : Bytes) : Option Bytes :=
  if F.length < 2 then none
  else if byteAt F (F.length - 1) ≠ 0x00 then none
  else
    let body := F.take (F.length - 1)
    if body.any (· == 0x00) then none else cobsDeframeBody body.length body

/-! ### The declarative form of the framer (R141) -/

/-- The segments of `D` between its 0x00 bytes: one more than there are 0x00 bytes, some perhaps empty (R141). -/
def cobsSegments : Bytes → List Bytes
  | [] => [[]]
  | b :: D =>
    if b = 0x00 then [] :: cobsSegments D
    else match cobsSegments D with
      | [] => [[b]]
      | S :: Ss => (b :: S) :: Ss

/-- The `q` full blocks of a segment of `254·q + r` bytes: `[0xFF] ++ 254 bytes`, in order (R141). -/
def cobsFullBlocks (S : Bytes) : Bytes :=
  (List.range (S.length / 254)).flatMap fun j => 0xFF :: (S.drop (254 * j)).take 254

/-- The final block `[r + 1] ++ the last r bytes` of a segment (R141). -/
def cobsFinalBlock (S : Bytes) : Bytes :=
  BitVec.ofNat 8 (S.length % 254 + 1) :: S.drop (254 * (S.length / 254))

/-- The blocks of all segments. The last segment's final block is left out when T is false, q ≥ 1 and r = 0 (R141). -/
def cobsBlocksOf (T : Bool) : List Bytes → Bytes
  | [] => []
  | [S] =>
    if T = false ∧ 1 ≤ S.length / 254 ∧ S.length % 254 = 0 then cobsFullBlocks S
    else cobsFullBlocks S ++ cobsFinalBlock S
  | S :: Ss => cobsFullBlocks S ++ cobsFinalBlock S ++ cobsBlocksOf T Ss

/-- The declarative form of `cobs_frame` (R141). -/
def cobsFrameDecl (T : Bool) (D : Bytes) : Bytes := cobsBlocksOf T (cobsSegments D) ++ [0x00]

/-! ### The commands -/

/-- COBS.FRAME (R146): TOO_LONG when the frame exceeds the 16-bit result length. -/
def execCobsFrame (op : Bytes) (s : State) : Result :=
  let F := cobsFrame s.cfg.cobsFullBlockTrailer op
  if F.length > 65535 then raise s .tooLong else finish s F

/-- COBS.DEFRAME (R147): MALFORMED where `cobs_deframe` fails. -/
def execCobsDeframe (op : Bytes) (s : State) : Result :=
  match cobsDeframe op with
  | none => raise s .malformed
  | some D => finish s D

end Sys2Proof.Machine
end

