-- ==== Sys2Proof/Machine/Headers.lean ====
section
/-! DEFINITION. The header codec (41_headers.md): the typed encode and decode functions of the three header kinds and the
commands PH.ENCODE, PH.DECODE, TCSH.ENCODE, TCSH.DECODE, TMSH.ENCODE and TMSH.DECODE. -/

namespace Sys2Proof.Machine

/-! ### The typed codec functions -/

/-- `ph_encode`: the fields ORed into a zeroed 48-bit word, its bytes from bit 47 down (R120, 30_encoding.md R64). -/
def phEncode (h : PrimaryHeader) : Bytes :=
  let w : BitVec 48 := 0
  let w := w ||| (h.version.setWidth 48 <<< 45)
  let w := w ||| (h.packetType.setWidth 48 <<< 44)
  let w := w ||| (h.secHdrFlag.setWidth 48 <<< 43)
  let w := w ||| (h.apid.setWidth 48 <<< 32)
  let w := w ||| (h.seqFlags.setWidth 48 <<< 30)
  let w := w ||| (h.seqCount.setWidth 48 <<< 16)
  let w := w ||| h.dataLength.setWidth 48
  [w.extractLsb' 40 8, w.extractLsb' 32 8, w.extractLsb' 24 8, w.extractLsb' 16 8, w.extractLsb' 8 8, w.extractLsb' 0 8]

/-- `ph_decode`: the 48-bit big-endian value of B0..B5 and its bit ranges; total on 6 bytes (R121). -/
def phDecode (B : Bytes) : PrimaryHeader :=
  let w : BitVec 48 := byteAt B 0 ++ byteAt B 1 ++ byteAt B 2 ++ byteAt B 3 ++ byteAt B 4 ++ byteAt B 5
  { version := w.extractLsb' 45 3
    packetType := w.extractLsb' 44 1
    secHdrFlag := w.extractLsb' 43 1
    apid := w.extractLsb' 32 11
    seqFlags := w.extractLsb' 30 2
    seqCount := w.extractLsb' 16 14
    dataLength := w.extractLsb' 0 16 }

/-- `tcsh_encode` (R122, 30_encoding.md R66). -/
def tcshEncode (t : TcHeader) : Bytes :=
  [(t.pusVersion.setWidth 8 <<< 4) ||| t.ackFlags.setWidth 8, t.serviceType, t.subtype,
    t.sourceId.extractLsb' 8 8, t.sourceId.extractLsb' 0 8]

/-- `tcsh_decode`; total on 5 bytes (R123). -/
def tcshDecode (B : Bytes) : TcHeader :=
  { pusVersion := (byteAt B 0).extractLsb' 4 4
    ackFlags := (byteAt B 0).extractLsb' 0 4
    serviceType := byteAt B 1
    subtype := byteAt B 2
    sourceId := u16beAt B 3 }

/-- `tmsh_encode` (R124, 30_encoding.md R68). -/
def tmshEncode (m : TmHeader) : Bytes :=
  [(m.pusVersion.setWidth 8 <<< 4) ||| m.timeRefStatus.setWidth 8, m.serviceType, m.subtype] ++
    be16 m.msgTypeCounter ++ be16 m.destinationId ++ be16 m.coarseTime

/-- `tmsh_decode`; total on 9 bytes (R125). -/
def tmshDecode (B : Bytes) : TmHeader :=
  { pusVersion := (byteAt B 0).extractLsb' 4 4
    timeRefStatus := (byteAt B 0).extractLsb' 0 4
    serviceType := byteAt B 1
    subtype := byteAt B 2
    msgTypeCounter := u16beAt B 3
    destinationId := u16beAt B 5
    coarseTime := u16beAt B 7 }

/-! ### The commands -/

/-- PH.ENCODE (R128): the operand is a PH FV. -/
def execPhEncode (op : Bytes) (s : State) : Result :=
  withFixedLen 14 op s <| withRange op phWidths s <| finish s (phEncode (phOfFv op))

/-- PH.DECODE (R129): the result is a PH FV. -/
def execPhDecode (op : Bytes) (s : State) : Result :=
  withFixedLen 6 op s <| finish s (phToFv (phDecode op))

/-- TCSH.ENCODE (R130): the operand is a TCSH FV. -/
def execTcshEncode (op : Bytes) (s : State) : Result :=
  withFixedLen 10 op s <| withRange op tcshWidths s <| finish s (tcshEncode (tcshOfFv op))

/-- TCSH.DECODE (R131): the result is a TCSH FV. -/
def execTcshDecode (op : Bytes) (s : State) : Result :=
  withFixedLen 5 op s <| finish s (tcshToFv (tcshDecode op))

/-- TMSH.ENCODE (R132): the operand is a TMSH FV. -/
def execTmshEncode (op : Bytes) (s : State) : Result :=
  withFixedLen 14 op s <| withRange op tmshWidths s <| finish s (tmshEncode (tmshOfFv op))

/-- TMSH.DECODE (R133): the result is a TMSH FV. -/
def execTmshDecode (op : Bytes) (s : State) : Result :=
  withFixedLen 9 op s <| finish s (tmshToFv (tmshDecode op))

end Sys2Proof.Machine
end

