-- ==== Sys2Proof/Machine/Packets.lean ====
section
/-! DEFINITION. The packet pipelines (43_packets.md): TM assembly and send, TC ingest, and the commands TM.ASSEMBLE,
TM.SEND and TC.INGEST. -/

namespace Sys2Proof.Machine

/-! ### TM assembly -/

/-- `tm_assemble(ph, tm, payload)` (R172): the fields are encoded verbatim, and the CRC is computed over everything
written so far. -/
def tmAssemble (cfg : Config) (ph : PrimaryHeader) (tm : TmHeader) (payload : Bytes) : Except Status Bytes :=
  if 17 + payload.length > cfg.maxPacket then .error .tooLong
  else
    let pkt := phEncode ph
    let pkt := pkt ++ tmshEncode tm
    let pkt := pkt ++ payload
    .ok (pkt ++ be16 (crc16 pkt))

/-- The checks of TM.ASSEMBLE and TM.SEND in their order, and the packet of the operand
`PH FV (14) ++ TMSH FV (14) ++ payload` (R173, R174, 30_encoding.md R84, R85). -/
def withTmPacket (op : Bytes) (s : State) (body : Bytes → Result) : Result :=
  withMinLen 28 op s <| withRange op phWidths s <| withRange (op.drop 14) tmshWidths s <|
    match tmAssemble s.cfg (phOfFv op) (tmshOfFv (op.drop 14)) (op.drop 28) with
    | .error st => raise s st
    | .ok pkt => body pkt

/-- TM.ASSEMBLE (R173). -/
def execTmAssemble (op : Bytes) (s : State) : Result :=
  withTmPacket op s fun pkt => finish s.releaseCrc pkt

/-- TM.SEND (R174): one whole frame is appended to the TX port history. -/
def execTmSend (op : Bytes) (s : State) : Result :=
  withTmPacket op s fun pkt => finish (s.releaseCrc.emitTx (cobsFrame s.cfg.cobsFullBlockTrailer pkt)) []

/-! ### TC ingest -/

/-- Steps (2) to (10) of `tc_ingest`, over the de-framed bytes `D` (R175). The checks run in this order and the first
failing one decides. `L` is computed without wrap-around (R171). -/
def tcIngestPacket (cfg : Config) (D : Bytes) : Except Status ValidatedTc :=
  if D.length < 6 then .error .truncated
  else
    let ph := phDecode (D.take 6)
    let L := ph.dataLength.toNat + 7
    if D.length < L then .error .truncated
    else if D.length > L then .error .malformed
    else if L > cfg.maxPacket then .error .tooLong
    else if L < 8 then .error .malformed
    else if ph.secHdrFlag = 1 ∧ L < 13 then .error .malformed
    else if crc16 (D.take (L - 2)) ≠ u16beAt D (L - 2) then .error .checksumMismatch
    else if ph.secHdrFlag = 1 then .ok ⟨ph, some (tcshDecode ((D.drop 6).take 5)), (D.take (L - 2)).drop 11⟩
    else .ok ⟨ph, none, (D.take (L - 2)).drop 6⟩

/-- `tc_ingest(F)`: step (1) de-frames (R175). -/
def tcIngest (cfg : Config) (F : Bytes) : Except Status ValidatedTc :=
  match cobsDeframe F with
  | none => .error .malformed
  | some D => tcIngestPacket cfg D

/-- The result layout `PH FV ++ [HAS_SEC] ++ TCSH FV ++ payload`, with ten 0x00 for an absent TCSH FV
(30_encoding.md R83). -/
def ValidatedTc.bytes (v : ValidatedTc) : Bytes :=
  phToFv v.ph ++
    (match v.tc with
      | some t => [0x01] ++ tcshToFv t
      | none => [0x00] ++ List.replicate 10 0x00) ++
    v.payload

/-- TC.INGEST (R177). The CRC register is used exactly where step (9) is reached, which ends in CHECKSUM_MISMATCH or in a
ValidatedTc (assumption 3). -/
def execTcIngest (op : Bytes) (s : State) : Result :=
  match tcIngest s.cfg op with
  | .ok v => finish s.releaseCrc v.bytes
  | .error .checksumMismatch => raise s.releaseCrc .checksumMismatch
  | .error st => raise s st

end Sys2Proof.Machine
end

