-- ==== Sys2Proof/Machine/Sync.lean ====
section
/-! DEFINITION. The frame synchronizer (42_framing.md section 3): the RX link event RX.BYTE and the commands RX.POP and
RX.STATUS. -/

namespace Sys2Proof.Machine

/-- A 0x00 byte on the RX link (R148): the end of an over-long frame (R150), an empty frame (R149), or the end of a frame,
which is queued if there is room and otherwise dropped (R151). -/
def rxDelimiter (s : State) : State :=
  if s.rxDiscard = true then s.setDiscard false
  else if s.rxAcc = [] then s
  else
    let F := s.rxAcc ++ [0x00]
    let s := if s.rxq.length < s.cfg.rxqDepth then s.pushFrame F else s.setLost true
    s.setAcc []

/-- A non-zero byte on the RX link (R148): dropped while an over-long frame is discarded; the byte that makes the frame
over-long empties the accumulator and sets both flags (R150); else it is accumulated. -/
def rxData (b : Byte) (s : State) : State :=
  if s.rxDiscard = true then s
  else if s.rxAcc.length = s.cfg.maxFrame - 1 then ((s.setAcc []).setDiscard true).setLost true
  else s.setAcc (s.rxAcc ++ [b])

/-- RX.BYTE b (R148): one atomic step of agent RXLINK, with no response. The synchronizer delimits frames only. -/
def execRxByte (b : Byte) (s : State) : Result :=
  .next (if b = 0x00 then rxDelimiter s else rxData b s)

/-- RX.POP (R152): EMPTY leaves the state as it is; else the oldest frame leaves the queue. -/
def execRxPop (op : Bytes) (s : State) : Result :=
  if op.length > 0 then raise s .malformed
  else match s.rxq with
    | [] => raise s .empty
    | F :: q => finish (s.setRxq q) F

/-- RX.STATUS (R153): the status register's value, and then RX_LOST is cleared. -/
def execRxStatus (op : Bytes) (s : State) : Result :=
  if op.length > 0 then raise s .malformed
  else
    let R := rxStatusRegister s
    finish (s.setLost false) R

end Sys2Proof.Machine
end

