-- ==== Sys2Proof/Machine/Dispatch.lean ====
section
/-! DEFINITION. One arm per instruction: the meaning each runs. -/

namespace Sys2Proof.Machine

def exec (i : Instr) (s : State) : Host.Outcome State Fault Refusal :=
  match i with
  -- the CRC engine, 40_crc.md
  | .crcCompute op => Sys2Proof.Machine.execCrcCompute op s
  | .crcUpdate op => Sys2Proof.Machine.execCrcUpdate op s
  | .crcValidate op => Sys2Proof.Machine.execCrcValidate op s
  | .crcAppend op => Sys2Proof.Machine.execCrcAppend op s
  -- the header codec, 41_headers.md
  | .phEncode op => Sys2Proof.Machine.execPhEncode op s
  | .phDecode op => Sys2Proof.Machine.execPhDecode op s
  | .tcshEncode op => Sys2Proof.Machine.execTcshEncode op s
  | .tcshDecode op => Sys2Proof.Machine.execTcshDecode op s
  | .tmshEncode op => Sys2Proof.Machine.execTmshEncode op s
  | .tmshDecode op => Sys2Proof.Machine.execTmshDecode op s
  -- the framer and the frame synchronizer, 42_framing.md
  | .cobsFrame op => Sys2Proof.Machine.execCobsFrame op s
  | .cobsDeframe op => Sys2Proof.Machine.execCobsDeframe op s
  | .rxPop op => Sys2Proof.Machine.execRxPop op s
  | .rxStatus op => Sys2Proof.Machine.execRxStatus op s
  -- the packet pipelines, 43_packets.md
  | .tmAssemble op => Sys2Proof.Machine.execTmAssemble op s
  | .tmSend op => Sys2Proof.Machine.execTmSend op s
  | .tcIngest op => Sys2Proof.Machine.execTcIngest op s
  -- the RX link event
  | .rxByte b => Sys2Proof.Machine.execRxByte b s

end Sys2Proof.Machine
end

