-- ==== Sys2Proof/Machine/Events.lean ====
section
/-! DEFINITION. What one input of the block does: a command of the port, a byte of the RX link, a reset pulse. -/

namespace Sys2Proof.Machine

/-- A command on the port: the decoded instruction runs; an unassigned OPC or a non-zero RSV completes with
ILLEGAL_COMMAND and no other effect, its operand consumed and ignored (30_encoding.md R76); bytes that are not exactly
one command end the run (R36, R226, assumptions 7 and 8). -/
def runCommand (port : Bytes) (s : State) : Result :=
  match decodeCommand port with
  | .ok i => exec i s
  | .error (.reservedNotZero _) => raise s .illegalCommand
  | .error (.unassignedOpcode _) => raise s .illegalCommand
  | .error .missingWord => .refused .incompleteCommand
  | .error .missingOperand => .refused .incompleteCommand
  | .error .bytesAfterCommand => .refused .overlappingCommand
  | .error .notAnInstruction => .refused .incompleteCommand

/-- One input (20_memory.md R54, R58): each is one indivisible step. -/
def runEvent (e : Event) (s : State) : Result :=
  match e with
  | .command port => runCommand port s
  | .rxByte b => exec (.rxByte b) s
  | .reset => .next s.resetPulse
  | .resetMidStep => .refused .resetMidStep

/-- The next step of the block: the first pending input is taken and runs; with none pending the block stays as it is
(60_exceptions.md R206, assumption 5). -/
def stepOn (s : State) : Result :=
  match s.pending with
  | [] => .next s
  | e :: es => runEvent e (s.setPending es)

/-- An input presented so that the very next step takes it. -/
def State.present (e : Event) (s : State) : State := s.setPending (e :: s.pending)

end Sys2Proof.Machine
end

