-- ==== Sys2Proof/Machine/Step.lean ====
section
/-! DEFINITION. The step function, and the placing of a table row's word where the next step takes its input. -/

namespace Sys2Proof.Machine

/-- One step of the block (20_memory.md R58). -/
def step (s : State) : Host.Outcome State Fault Refusal := stepOn s

/-- `s` with a table row's word presented as the next input, on the command port or (the 8-bit row) on the RX link
(assumptions 4 and 13). -/
def State.withFetchWord (s : State) (nbits w : Nat) : State := s.present (tableEvent nbits w)

end Sys2Proof.Machine
end

