-- ==== Sys2Proof/Machine/Assembler.lean ====
section
/-! DEFINITION. The command syntax of 30_encoding.md Part C (R86 to R88): one command a line, `MNEMONIC operand*`, and the
two pseudo-instructions. It is notation for a host program and drives nothing in the block. What R86 and R87 leave open
(white space, the order of operands of different forms, the spelling of numbers, a value too wide for its container, a
key written twice) is assumption 16, which lists what is accepted and what is refused. -/

namespace Sys2Proof.Machine

/-- A mnemonic, key or group word, as its characters. -/
abbrev AsmName := List Char

/-- The three operand forms of R86, and the header groups of TM.ASSEMBLE and TM.SEND (R87). -/
inductive AsmOperand where
  /-- `key=value`; `seed=value` is one. -/
  | assign (key : AsmName) (value : Nat)
  /-- `data(b0 b1 ...)`. -/
  | data (bs : Bytes)
  /-- `ph(key=value ...)` or `tm(key=value ...)`. -/
  | group (name : AsmName) (fields : List (AsmName × Nat))
deriving DecidableEq, Repr

/-- Why a line is no command. "A missing key is an assembly error, because fields have no defaults" (R86). -/
inductive AsmError where
  | badCharacter
  | badNumber
  | badLine
  | unknownMnemonic (m : AsmName)
  | missingKey (k : AsmName)
  | unknownKey (k : AsmName)
  | repeatedKey (k : AsmName)
  | valueTooWide (k : AsmName)
  | wrongOperands
  | operandTooLong
deriving DecidableEq, Repr

/-- What a line stands for: a command, or a pseudo-instruction of R88. -/
inductive AsmItem where
  | instr (i : Instr)
  /-- `RX.FEED data(b0 ... bn)`: the RX link events RX.BYTE b0; ...; RX.BYTE bn. -/
  | feed (bs : Bytes)
  /-- `RX.RECEIVE`: RX.POP and then, if its status is OK, TC.INGEST of its result. -/
  | receive
deriving DecidableEq, Repr

/-! ### Operands to operand bytes (R86, R87) -/

/-- The keys of a primary header, in FV order (R87). -/
def phKeys : List AsmName := ["ver", "type", "sec", "apid", "sf", "seq", "dl"].map String.toList

/-- The keys of a TC secondary header, in FV order (R87). -/
def tcshKeys : List AsmName := ["pv", "ack", "st", "sst", "src"].map String.toList

/-- The keys of a TM secondary header, in FV order (R87). -/
def tmshKeys : List AsmName := ["pv", "trs", "st", "sst", "cnt", "dst", "time"].map String.toList

/-- The containers of the keys, written in FV order regardless of the order of the `key=value` operands (R86). -/
def fvOfKeys (fields : List (AsmName × Nat)) : List AsmName → Except AsmError Bytes
  | [] => .ok []
  | k :: ks =>
    match fields.lookup k with
    | none => .error (.missingKey k)
    | some v =>
      if v ≥ 65536 then .error (.valueTooWide k)
      else match fvOfKeys fields ks with
        | .error e => .error e
        | .ok fv => .ok (be16Nat v ++ fv)

/-- The first key that the header lacks or that a later operand repeats. -/
def badKey (keys : List AsmName) : List (AsmName × Nat) → Option AsmError
  | [] => none
  | (k, _) :: fs =>
    if ¬ k ∈ keys then some (.unknownKey k)
    else if (fs.map Prod.fst).contains k then some (.repeatedKey k)
    else badKey keys fs

/-- The field vector of a header's `key=value` operands (R86, R87). -/
def asmFv (keys : List AsmName) (fields : List (AsmName × Nat)) : Except AsmError Bytes :=
  match badKey keys fields with
  | some e => .error e
  | none => fvOfKeys fields keys

/-- The operands of a line, sorted by form. -/
structure AsmOperands where
  assigns : List (AsmName × Nat)
  datas : List Bytes
  groups : List (AsmName × List (AsmName × Nat))
deriving DecidableEq, Repr

def sortOperands : List AsmOperand → AsmOperands
  | [] => ⟨[], [], []⟩
  | .assign k v :: os => { sortOperands os with assigns := (k, v) :: (sortOperands os).assigns }
  | .data bs :: os => { sortOperands os with datas := bs :: (sortOperands os).datas }
  | .group g fs :: os => { sortOperands os with groups := (g, fs) :: (sortOperands os).groups }

/-- A mnemonic that takes one `data(...)` (R87). -/
def asmData (o : AsmOperands) : Except AsmError Bytes :=
  match o.assigns, o.datas, o.groups with
  | [], [d], [] => .ok d
  | _, _, _ => .error .wrongOperands

/-- A mnemonic that takes no operand (R87). -/
def asmNone (o : AsmOperands) : Except AsmError Bytes :=
  match o.assigns, o.datas, o.groups with
  | [], [], [] => .ok []
  | _, _, _ => .error .wrongOperands

/-- CRC.UPDATE: `seed=value data(...)`, the operand `be16(seed) ++ data` (R84, R86). DESIGN CHOICE: the two may be written
in either order (assumption 16). -/
def asmSeed (o : AsmOperands) : Except AsmError Bytes :=
  match o.datas, o.groups with
  | [d], [] =>
    match asmFv ["seed".toList] o.assigns with
    | .error e => .error e
    | .ok seed => .ok (seed ++ d)
  | _, _ => .error .wrongOperands

/-- An encode mnemonic: one header's keys (R87). -/
def asmKeys (keys : List AsmName) (o : AsmOperands) : Except AsmError Bytes :=
  match o.datas, o.groups with
  | [], [] => asmFv keys o.assigns
  | _, _ => .error .wrongOperands

/-- TM.ASSEMBLE and TM.SEND: `ph(...) tm(...) data(...)`, the operand PH FV ++ TMSH FV ++ payload (R84, R87). DESIGN
CHOICE: the three may be written in any order, `tm(...)` before `ph(...)` too; R87 shows one order only (assumption 16). -/
def asmTm (o : AsmOperands) : Except AsmError Bytes :=
  match o.assigns, o.datas, o.groups.lookup "ph".toList, o.groups.lookup "tm".toList, o.groups.length with
  | [], [d], some ph, some tm, 2 =>
    match asmFv phKeys ph, asmFv tmshKeys tm with
    | .ok a, .ok b => .ok (a ++ b ++ d)
    | .error e, _ => .error e
    | _, .error e => .error e
  | _, _, _, _, _ => .error .wrongOperands

/-- The assembler computes LEN (R86), which must fit its 16-bit field (R72). -/
def asmInstr (mk : Bytes → Instr) : Except AsmError Bytes → Except AsmError AsmItem
  | .error e => .error e
  | .ok op => if op.length > 65535 then .error .operandTooLong else .ok (.instr (mk op))

/-- One command in its parts: the mnemonic, in upper case with a dot, and its operands (R86). -/
def assemble (m : AsmName) (os : List AsmOperand) : Except AsmError AsmItem :=
  let o := sortOperands os
  if m = "CRC.COMPUTE".toList then asmInstr .crcCompute (asmData o)
  else if m = "CRC.UPDATE".toList then asmInstr .crcUpdate (asmSeed o)
  else if m = "CRC.VALIDATE".toList then asmInstr .crcValidate (asmData o)
  else if m = "CRC.APPEND".toList then asmInstr .crcAppend (asmData o)
  else if m = "PH.ENCODE".toList then asmInstr .phEncode (asmKeys phKeys o)
  else if m = "PH.DECODE".toList then asmInstr .phDecode (asmData o)
  else if m = "TCSH.ENCODE".toList then asmInstr .tcshEncode (asmKeys tcshKeys o)
  else if m = "TCSH.DECODE".toList then asmInstr .tcshDecode (asmData o)
  else if m = "TMSH.ENCODE".toList then asmInstr .tmshEncode (asmKeys tmshKeys o)
  else if m = "TMSH.DECODE".toList then asmInstr .tmshDecode (asmData o)
  else if m = "COBS.FRAME".toList then asmInstr .cobsFrame (asmData o)
  else if m = "COBS.DEFRAME".toList then asmInstr .cobsDeframe (asmData o)
  else if m = "RX.POP".toList then asmInstr .rxPop (asmNone o)
  else if m = "RX.STATUS".toList then asmInstr .rxStatus (asmNone o)
  else if m = "TM.ASSEMBLE".toList then asmInstr .tmAssemble (asmTm o)
  else if m = "TM.SEND".toList then asmInstr .tmSend (asmTm o)
  else if m = "TC.INGEST".toList then asmInstr .tcIngest (asmData o)
  else if m = "RX.FEED".toList then
    match asmData o with
    | .error e => .error e
    | .ok bs => .ok (.feed bs)
  else if m = "RX.RECEIVE".toList then
    match asmNone o with
    | .error e => .error e
    | .ok _ => .ok .receive
  else .error (.unknownMnemonic m)

/-! ### The text of a line -/

/-- The tokens of a line. -/
inductive AsmToken where
  | word (cs : AsmName)
  | lpar
  | rpar
  | eq
deriving DecidableEq, Repr

/-- A word that has been read so far, kept in reverse, ends. -/
def endWord (rev : AsmName) (ts : List AsmToken) : List AsmToken :=
  if rev = [] then ts else .word rev.reverse :: ts

/-- The tokens of a line; a comment starts with `;` (R86). The first argument is the word being read, in reverse. DESIGN
CHOICE: white space separates words and means nothing else, so it may stand around `=`, `(` and `)`, and none need stand
behind `)`; R86 and R87 say nothing of it (assumption 16). -/
def asmTokens : AsmName → List Char → List AsmToken
  | rev, [] => endWord rev []
  | rev, c :: cs =>
    if c = ';' then endWord rev []
    else if c = ' ' ∨ c = '\t' ∨ c = '\r' ∨ c = '\n' then endWord rev (asmTokens [] cs)
    else if c = '(' then endWord rev (.lpar :: asmTokens [] cs)
    else if c = ')' then endWord rev (.rpar :: asmTokens [] cs)
    else if c = '=' then endWord rev (.eq :: asmTokens [] cs)
    else asmTokens (c :: rev) cs

/-- The value of a digit, hexadecimal or decimal. DESIGN CHOICE: a hex digit may be of either case (assumption 16). -/
def digitValue (c : Char) : Option Nat :=
  if '0' ≤ c ∧ c ≤ '9' then some (c.toNat - '0'.toNat)
  else if 'a' ≤ c ∧ c ≤ 'f' then some (c.toNat - 'a'.toNat + 10)
  else if 'A' ≤ c ∧ c ≤ 'F' then some (c.toNat - 'A'.toNat + 10)
  else none

/-- The value of a run of digits in a base, after the digits read so far. -/
def digitsValue (base acc : Nat) : List Char → Option Nat
  | [] => some acc
  | c :: cs =>
    match digitValue c with
    | none => none
    | some d => if d < base then digitsValue base (acc * base + d) cs else none

/-- A value in decimal or `0x` hex (R86). DESIGN CHOICE: leading zeros are accepted, and `0X` is not (assumption 16). -/
def asmNumber : AsmName → Option Nat
  | [] => none
  | '0' :: 'x' :: c :: cs => digitsValue 16 0 (c :: cs)
  | cs => digitsValue 10 0 cs

/-- One byte of a raw byte list in hex (R86). DESIGN CHOICE: one or two digits, without `0x` (assumption 16). -/
def asmByte (cs : AsmName) : Option Byte :=
  if cs.length = 1 ∨ cs.length = 2 then (digitsValue 16 0 cs).map (BitVec.ofNat 8) else none

/-- The bytes inside `data(...)`, which may be none (R86). -/
def asmBytes : List AsmToken → Except AsmError Bytes
  | [] => .ok []
  | .word cs :: ts =>
    match asmByte cs, asmBytes ts with
    | some b, .ok bs => .ok (b :: bs)
    | none, _ => .error .badNumber
    | _, .error e => .error e
  | _ :: _ => .error .badLine

/-- The `key=value` pairs inside `ph(...)` or `tm(...)` (R87). -/
def asmFields : List AsmToken → Except AsmError (List (AsmName × Nat))
  | [] => .ok []
  | .word k :: .eq :: .word v :: ts =>
    match asmNumber v, asmFields ts with
    | some n, .ok fs => .ok ((k, n) :: fs)
    | none, _ => .error .badNumber
    | _, .error e => .error e
  | _ => .error .badLine

/-- The operand of a name and the tokens between its parentheses. -/
def asmGroup (name : AsmName) (inside : List AsmToken) : Except AsmError AsmOperand :=
  if name = "data".toList then
    match asmBytes inside with
    | .ok bs => .ok (.data bs)
    | .error e => .error e
  else
    match asmFields inside with
    | .ok fs => .ok (.group name fs)
    | .error e => .error e

/-- The operands of a line. The first argument is the group being read, its tokens in reverse, or none. -/
def asmOperands : Option (AsmName × List AsmToken) → List AsmToken → Except AsmError (List AsmOperand)
  | none, [] => .ok []
  | some _, [] => .error .badLine
  | some (g, rev), .rpar :: ts =>
    match asmGroup g rev.reverse, asmOperands none ts with
    | .ok o, .ok os => .ok (o :: os)
    | .error e, _ => .error e
    | _, .error e => .error e
  | some (g, rev), t :: ts => asmOperands (some (g, t :: rev)) ts
  | none, .word k :: .eq :: .word v :: ts =>
    match asmNumber v, asmOperands none ts with
    | some n, .ok os => .ok (.assign k n :: os)
    | none, _ => .error .badNumber
    | _, .error e => .error e
  | none, .word g :: .lpar :: ts => asmOperands (some (g, [])) ts
  | none, _ :: _ => .error .badLine

/-- One line of a program: nothing on an empty or comment line, else the command it writes (R86). DESIGN CHOICE: a line
with no words is accepted and stands for no command (assumption 16). -/
def assembleLine (line : String) : Except AsmError (Option AsmItem) :=
  match asmTokens [] line.toList with
  | [] => .ok none
  | .word m :: ts =>
    match asmOperands none ts with
    | .error e => .error e
    | .ok os =>
      match assemble m os with
      | .error e => .error e
      | .ok item => .ok (some item)
  | _ => .error .badLine

/-! ### What an item does (R88) -/

/-- RX.FEED: the events in order. -/
def runFeed : Bytes → State → Result
  | [], s => .next s
  | b :: bs, s =>
    match exec (.rxByte b) s with
    | .next s => runFeed bs s
    | .fault r => .fault r
    | .refused r => .refused r

/-- What the host issues after RX.POP in the macro RX.RECEIVE: it carries the bytes of an OK response to TC.INGEST; after
another status the macro ends (R88). -/
def afterPop : Option Response → Option Instr
  | some ⟨.ok, F⟩ => some (.tcIngest F)
  | _ => none

/-- RX.RECEIVE: a host-side macro of one or two commands (R88). -/
def runReceive (s : State) : Result :=
  match exec (.rxPop []) s with
  | .next t =>
    match afterPop t.responses.getLast? with
    | some i => exec i t
    | none => .next t
  | .fault r => .fault r
  | .refused r => .refused r

/-- What a line of a host program does when nothing interleaves with it. -/
def runItem (item : AsmItem) (s : State) : Result :=
  match item with
  | .instr i => exec i s
  | .feed bs => runFeed bs s
  | .receive => runReceive s

/-- The inputs of an item that is no macro: a command, or the events of RX.FEED, which other inputs may come between
(R58, R88). -/
def AsmItem.events : AsmItem → List Event
  | .instr i => [encode i]
  | .feed bs => bs.map .rxByte
  | .receive => []

end Sys2Proof.Machine
end

