-- ==== Sys2Proof/Safety.lean ====
section
/-! DEFINITION. The terms in which claims about the block are stated: the architectural tuple, the invariants of
10_state.md R37, what a host that keeps to the port's rules presents, runs, and what an instruction answers. -/

namespace Sys2Proof.Machine

/-! ### The architectural state -/

/-- The tuple S of 10_state.md R22. -/
structure Arch where
  rxAcc : Bytes
  rxDiscard : Bool
  rxLost : Bool
  rxq : List Bytes
  txOut : Bytes
deriving DecidableEq, Repr

/-- The architectural state of the block (R22); the CRC register, which "holds no value between commands" (R23), is not
in it. -/
def State.arch (s : State) : Arch := ⟨s.rxAcc, s.rxDiscard, s.rxLost, s.rxq, s.txOut⟩

/-! ### The invariants (10_state.md R24, R27, R37, 30_encoding.md R74) -/

/-- A frame as the receive queue holds it: 2 to MAX_FRAME bytes, the last of them 0x00 and no other (R27). -/
abbrev FrameShaped (cfg : Config) (F : Bytes) : Prop :=
  2 ≤ F.length ∧ F.length ≤ cfg.maxFrame ∧ F.getLast? = some 0x00 ∧ 0x00 ∉ F.dropLast

/-- A response as R74 allows it: no result bytes unless the status is OK, and a result whose length fits RLEN. -/
abbrev Response.Shaped (r : Response) : Prop := (r.status ≠ .ok → r.result = []) ∧ r.result.length ≤ 65535

/-- The invariants of a legal instance. Clauses (a) to (d) are those of R37. -/
structure State.Inv (s : State) : Prop where
  /-- The parameters are legal (R6). -/
  legal : s.cfg.Legal
  /-- (a) `rx_acc` contains no 0x00. -/
  accNoZero : 0x00 ∉ s.rxAcc
  /-- (a) |rx_acc| ≤ MAX_FRAME − 1. -/
  accBound : s.rxAcc.length ≤ s.cfg.maxFrame - 1
  /-- (b) If `rx_discard` = 1 then `rx_acc` = []. -/
  discardEmpty : s.rxDiscard = true → s.rxAcc = []
  /-- (c) |rxq| ≤ RXQ_DEPTH. -/
  queueBound : s.rxq.length ≤ s.cfg.rxqDepth
  /-- (c) Every entry satisfies R27. -/
  queueEntries : ∀ F ∈ s.rxq, FrameShaped s.cfg F
  /-- (d) `tx_out` is a concatenation of whole frames, each the `cobs_frame` of a packet of length 17..MAX_PACKET. -/
  txFrames : ∃ pkts : List Bytes, s.txOut = pkts.flatMap (cobsFrame s.cfg.cobsFullBlockTrailer) ∧
    ∀ p ∈ pkts, 17 ≤ p.length ∧ p.length ≤ s.cfg.maxPacket
  /-- Every response returned has the form of R74. -/
  responsesShaped : ∀ r ∈ s.responses, r.Shaped

/-! ### The host's side of the port -/

/-- The port bytes of one command with any OPC and RSV (R72). -/
def portBytes (opc rsv : Byte) (op : Bytes) : Bytes := opc :: rsv :: (be16Nat op.length ++ op)

/-- An input from a host and a platform that keep the port's rules: LEN is the number of operand bytes and one command is
presented at a time (R36, R226); reset only between steps (R220). -/
def KeepsTheRules : Event → Prop
  | .command port => ∃ opc rsv op, op.length ≤ 65535 ∧ port = portBytes opc rsv op
  | .rxByte _ => True
  | .reset => True
  | .resetMidStep => False

/-- The commands of an input sequence, in issue order (R58). -/
def hostStream (es : List Event) : List Bytes :=
  es.filterMap fun e => match e with
    | .command port => some port
    | _ => none

/-- The RX link bytes of an input sequence, in arrival order (R58). -/
def linkStream (es : List Event) : Bytes :=
  es.filterMap fun e => match e with
    | .rxByte b => some b
    | _ => none

/-- Two input sequences are interleavings of the same two streams (R58). -/
def SameStreams (es es' : List Event) : Prop := hostStream es = hostStream es' ∧ linkStream es = linkStream es'

/-! ### Runs -/

/-- `t` is reached from `s` by steps of the block. -/
inductive Reaches (s : State) : State → Prop where
  | refl : Reaches s s
  | step {t u : State} : Reaches s t → step t = .next u → Reaches s u

/-! ### What an instruction answers -/

/-- The instruction completes with response `r` and changes nothing else in the state. -/
def Answers (i : Instr) (s : State) (r : Response) : Prop :=
  exec i s = .next { s with responses := s.responses ++ [r] }

/-- The instruction completes with response `r` and changes nothing else in the state but the CRC register, whose content
between commands is free (R23). -/
def AnswersWithCrc (i : Instr) (s : State) (r : Response) : Prop :=
  ∃ v n, exec i s = .next { s with responses := s.responses ++ [r], crc := v, crcTick := n }

/-- A row of the opcode map: with RSV = 0x00 the port bytes are the instruction, with any other RSV they are none (R72,
R75, R76). -/
def EncodedAs (opc : Byte) (mk : Bytes → Instr) : Prop :=
  ∀ op : Bytes, op.length ≤ 65535 →
    decodeCommand (portBytes opc 0x00 op) = .ok (mk op) ∧
    ∀ rsv, rsv ≠ 0x00 → decodeCommand (portBytes opc rsv op) = .error (.reservedNotZero rsv)

/-! ### The TM packet of an operand -/

/-- The bytes of the TM packet of an operand `PH FV ++ TMSH FV ++ payload` before its CRC trailer (30_encoding.md R70, R84). -/
def tmBody (op : Bytes) : Bytes := phEncode (phOfFv op) ++ tmshEncode (tmshOfFv (op.drop 14)) ++ op.drop 28

/-- That TM packet with its CRC trailer, high byte first (43_packets.md R172). -/
def tmPacket (op : Bytes) : Bytes := tmBody op ++ be16 (crc16 (tmBody op))

end Sys2Proof.Machine
end

