-- ==== Sys2Proof/Certificates/Slice0/Obligations.lean ====
section
/-! DEFINITION. The statements about the model, each from the numbered rules of spec/ that its docstring and
OBLIGATIONS.json cite. The terms they share come first: numbers read from bytes as 00_scope.md R11 reads them, written
without the model's own decoders. -/

namespace Sys2Proof.Claims

open Sys2Proof.Machine

/-- `B[i]` as a number. -/
def num (B : Bytes) (i : Nat) : Nat := (B.getD i 0).toNat

/-- `u16be(B, i) = B[i]·256 + B[i+1]` as a number (R11). -/
def num16 (B : Bytes) (i : Nat) : Nat := num B i * 256 + num B (i + 1)

/-- A byte of a given value. -/
def byte (n : Nat) : Byte := BitVec.ofNat 8 n

/-- A field vector of the given container values: one 16-bit big-endian container each (R78). -/
def fieldVector (vs : List Nat) : Bytes := vs.flatMap fun v => [byte (v / 256), byte v]

/-- The field widths of the three headers, in field order (R64, R66, R68). -/
def phBits : List Nat := [3, 1, 1, 11, 2, 14, 16]
def tcBits : List Nat := [4, 4, 8, 8, 16]
def tmBits : List Nat := [4, 4, 8, 8, 16, 16, 16]

/-- Every container of the field vector that starts at byte `at` is below two to its field's width (R79). -/
def InRange (op : Bytes) (start : Nat) (widths : List Nat) : Prop :=
  ∀ j, j < widths.length → num16 op (start + 2 * j) < 2 ^ widths.getD j 0

/-- `B` with bit `j` of its byte `k` inverted. -/
def flipBit (B : Bytes) (k j : Nat) : Bytes := B.modify k fun b => b ^^^ BitVec.ofNat 8 (2 ^ j)

/-- The 17 assigned opcodes (R75). -/
def assigned : List Byte :=
  [0x01, 0x02, 0x03, 0x04, 0x10, 0x11, 0x12, 0x13, 0x14, 0x15, 0x20, 0x21, 0x22, 0x23, 0x30, 0x31, 0x32]

/-- The command is none of RX.POP, RX.STATUS and TM.SEND, and no RX link event (R55). -/
def Stateless : Instr → Prop
  | .rxPop _ => False
  | .rxStatus _ => False
  | .tmSend _ => False
  | .rxByte _ => False
  | .crcCompute _ => True
  | .crcUpdate _ => True
  | .crcValidate _ => True
  | .crcAppend _ => True
  | .phEncode _ => True
  | .phDecode _ => True
  | .tcshEncode _ => True
  | .tcshDecode _ => True
  | .tmshEncode _ => True
  | .tmshDecode _ => True
  | .cobsFrame _ => True
  | .cobsDeframe _ => True
  | .tmAssemble _ => True
  | .tcIngest _ => True

/-- The statuses a decoded command can return: the row of R192's table, ILLEGAL_COMMAND apart, which is decided before a
command is decoded. The RX link event has no status. -/
def canReturn : Instr → List Status
  | .crcCompute _ => [.ok]
  | .crcUpdate _ => [.ok, .truncated]
  | .crcValidate _ => [.ok, .checksumMismatch, .truncated]
  | .crcAppend _ => [.ok, .tooLong]
  | .phEncode _ => [.ok, .truncated, .malformed]
  | .phDecode _ => [.ok, .truncated, .malformed]
  | .tcshEncode _ => [.ok, .truncated, .malformed]
  | .tcshDecode _ => [.ok, .truncated, .malformed]
  | .tmshEncode _ => [.ok, .truncated, .malformed]
  | .tmshDecode _ => [.ok, .truncated, .malformed]
  | .cobsFrame _ => [.ok, .tooLong]
  | .cobsDeframe _ => [.ok, .malformed]
  | .rxPop _ => [.ok, .malformed, .empty]
  | .rxStatus _ => [.ok, .malformed]
  | .tmAssemble _ => [.ok, .truncated, .malformed, .tooLong]
  | .tmSend _ => [.ok, .truncated, .malformed, .tooLong]
  | .tcIngest _ => [.ok, .checksumMismatch, .truncated, .malformed, .tooLong]
  | .rxByte _ => []

/-- The commands of the port, as constructors. -/
def commands : List (Bytes → Instr) :=
  [.crcCompute, .crcUpdate, .crcValidate, .crcAppend, .phEncode, .phDecode, .tcshEncode, .tcshDecode, .tmshEncode,
    .tmshDecode, .cobsFrame, .cobsDeframe, .rxPop, .rxStatus, .tmAssemble, .tmSend, .tcIngest]

/-- The status codes of R190. -/
def codes : List (Status × Nat) :=
  [(.ok, 0x00), (.checksumMismatch, 0x01), (.truncated, 0x02), (.malformed, 0x03), (.tooLong, 0x04),
    (.illegalCommand, 0x05), (.empty, 0x06)]

/-- The bytes of a response are its code, its result's length where that fits RLEN, and its result (R74). -/
def LaidOut (r : Response) : Prop :=
  (r.status, num r.bytes 0) ∈ codes ∧ (r.result.length ≤ 65535 → num16 r.bytes 1 = r.result.length) ∧
    r.bytes.drop 3 = r.result ∧ r.bytes.length = 3 + r.result.length

/-- The encode mnemonics with their keys in FV order (R87). -/
def encodeLines : List (String × (Bytes → Instr) × List String) :=
  [("PH.ENCODE", .phEncode, ["ver", "type", "sec", "apid", "sf", "seq", "dl"]),
    ("TCSH.ENCODE", .tcshEncode, ["pv", "ack", "st", "sst", "src"]),
    ("TMSH.ENCODE", .tmshEncode, ["pv", "trs", "st", "sst", "cnt", "dst", "time"])]

/-- A place where `cobs_deframe` reads a code byte of a frame's body (R143): the first byte, and after a block that does
not reach the body's end the byte behind it. -/
inductive CodeAt (body : Bytes) : Nat → Prop where
  | first : body ≠ [] → CodeAt body 0
  | next {i : Nat} : CodeAt body i → i + num body i < body.length → CodeAt body (i + num body i)

/-- A packet: its headers and payload, then the CRC trailer (R70). -/
def withTrailer (body : Bytes) : Bytes := body ++ be16 (crc16 body)

/-- The port bytes of RX.POP and RX.STATUS, which have no operand (R152, R153). -/
def popCommand : Event := .command [0x22, 0x00, 0x00, 0x00]
def statusCommand : Event := .command [0x23, 0x00, 0x00, 0x00]

end Sys2Proof.Claims

open Sys2Proof Sys2Proof.Machine Sys2Proof.Claims

/-! ### The command port (30_encoding.md) -/

/-- The step of a state whose next input is a command of the opcode map, or a byte of the RX link, is the meaning of that
instruction on the state without that input (20_memory.md R54, R58). -/
def Obligations.StepRunsTheDecodedInstruction : Prop :=
  (∀ (s : State) (port : Bytes) (es : List Event) (i : Instr),
    s.pending = .command port :: es → decodeCommand port = .ok i → step s = exec i { s with pending := es }) ∧
  ∀ (s : State) (b : Byte) (es : List Event),
    s.pending = .rxByte b :: es → step s = exec (.rxByte b) { s with pending := es }

/-- Words written out from R72, R75 and R89: the decoder reads them as the instructions they stand for. -/
def Obligations.WordsOfTheOpcodeMapDecode : Prop :=
  decodeCommand [0x01, 0x00, 0x00, 0x01, 0x41] = .ok (.crcCompute [0x41]) ∧
  decodeCommand [0x13, 0x00, 0x00, 0x02, 0xaa, 0xbb] = .ok (.tcshDecode [0xaa, 0xbb]) ∧
  decodeCommand [0x20, 0x00, 0x00, 0x00] = .ok (.cobsFrame []) ∧
  decodeCommand [0x22, 0x00, 0x00, 0x00] = .ok (.rxPop []) ∧
  decodeCommand [0x32, 0x00, 0x00, 0x02, 0x01, 0x00] = .ok (.tcIngest [0x01, 0x00]) ∧
  decodeEvent (.rxByte 0x7e) = .ok (.rxByte 0x7e)

/-- Decode of encode: every instruction with every operand of up to 65535 bytes is read back whole (R72, R75). -/
def Obligations.DecodeOfEncodeIsTheInstruction : Prop :=
  ∀ i : Instr, i.wellFormed = true → decodeEvent (encode i) = .ok i

/-- Encode of decode: port bytes that decode are exactly the encoding of what they decode to, which is well formed, so no
two spellings of one command exist (R72, R75, R76). -/
def Obligations.EncodeOfDecodeIsTheCommand : Prop :=
  ∀ (port : Bytes) (i : Instr), decodeCommand port = .ok i → encode i = .command port ∧ i.wellFormed = true

/-- R73: a command is 4 + LEN bytes, and a decoder of a byte stream finds it and the rest whatever the opcode is. -/
def Obligations.StreamDecoderFindsTheNextCommand : Prop :=
  ∀ (opc rsv : Byte) (op rest : Bytes), op.length ≤ 65535 →
    readCommand (portBytes opc rsv op ++ rest) = .ok (⟨opc, rsv, op⟩, rest) ∧
    (portBytes opc rsv op).length = 4 + op.length

/-- R76: an unassigned OPC or a non-zero RSV completes with ILLEGAL_COMMAND, the operand consumed and ignored, and no
other effect; the 17 assigned opcodes with RSV 0x00 are all commands. -/
def Obligations.IllegalCommandHasNoOtherEffect : Prop :=
  (∀ (s : State) (opc rsv : Byte) (op : Bytes) (es : List Event), op.length ≤ 65535 →
    s.pending = .command (portBytes opc rsv op) :: es → rsv ≠ 0x00 ∨ opc ∉ assigned →
    step s = .next { s with pending := es, responses := s.responses ++ [⟨.illegalCommand, []⟩] }) ∧
  ∀ (opc : Byte) (op : Bytes), op.length ≤ 65535 → opc ∈ assigned →
    ∃ i, decodeCommand (portBytes opc 0x00 op) = .ok i ∧ i.operand = op

/-- R226 and I10: a second command presented before the response ends the run, and so does a reset pulse inside a step.
That a command with too few operand bytes ends it too is the model's choice (assumption 7). -/
def Obligations.OutOfTurnInputIsRefused : Prop :=
  (∀ (s : State) (opc rsv : Byte) (op extra : Bytes) (es : List Event), op.length ≤ 65535 → extra ≠ [] →
    s.pending = .command (portBytes opc rsv op ++ extra) :: es → step s = .refused .overlappingCommand) ∧
  (∀ (s : State) (opc rsv : Byte) (op : Bytes) (k : Nat) (es : List Event), op.length ≤ 65535 → k < 4 + op.length →
    s.pending = .command ((portBytes opc rsv op).take k) :: es → step s = .refused .incompleteCommand) ∧
  ∀ (s : State) (es : List Event), s.pending = .resetMidStep :: es → step s = .refused .resetMidStep

/-- A host and a platform that keep the rules of the port are never refused: from every state the step answers a next
state, and what is still to come keeps the rules (R36, R197). -/
def Obligations.RuleKeepingInputsNeverStopTheBlock : Prop :=
  ∀ s : State, (∀ e ∈ s.pending, KeepsTheRules e) → ∃ t, step s = .next t ∧ ∀ e ∈ t.pending, KeepsTheRules e

/-- Every command returns exactly one response, with no result bytes unless its status is OK, laid out as R74 says with
the codes of R190 (R32, R74, R228); from a state that meets the invariant, its result fits RLEN. The response of an
ILLEGAL_COMMAND, which is no instruction's, has the same layout. An RX.BYTE event returns none. The history that keeps
the responses is the model's choice (assumption 6). -/
def Obligations.EveryCommandIsAnsweredOnce : Prop :=
  (∀ mk ∈ commands, ∀ (op : Bytes) (s : State), ∃ t r, exec (mk op) s = .next t ∧
    t.responses = s.responses ++ [r] ∧ (r.status ≠ .ok → r.result = []) ∧ LaidOut r ∧
    (s.Inv → op.length ≤ 65535 → r.result.length ≤ 65535)) ∧
  LaidOut ⟨.illegalCommand, []⟩ ∧
  ∀ (b : Byte) (s : State), ∃ t, exec (.rxByte b) s = .next t ∧ t.responses = s.responses

/-- R195: a command that returns a status other than OK, ILLEGAL_COMMAND and EMPTY included, writes no state, returns no
result bytes, and leaves every later command to behave as if it had not been issued. -/
def Obligations.FailedCommandChangesNothing : Prop :=
  ∀ (s t : State) (port : Bytes) (es : List Event) (r : Response), s.pending = .command port :: es →
    step s = .next t → t.responses = s.responses ++ [r] → r.status ≠ .ok →
    t.arch = s.arch ∧ t.cfg = s.cfg ∧ t.pending = es ∧ r.result = [] ∧
    ∀ (port' : Bytes) (u : State) (r' : Response), runCommand port' { s with pending := es } = .next u →
      u.responses = s.responses ++ [r'] →
      ∃ u', runCommand port' t = .next u' ∧ u'.arch = u.arch ∧ u'.responses = t.responses ++ [r']

/-- R192: no command returns a status outside its row of the table, every status of its row is returned by it for some
operand and state of a legal instance, and ILLEGAL_COMMAND arises for an assigned opcode only when RSV is not 0x00. -/
def Obligations.StatusesAreThoseOfTheTable : Prop :=
  (∀ mk ∈ commands, ∀ (op : Bytes) (s t : State) (r : Response), exec (mk op) s = .next t →
    t.responses = s.responses ++ [r] → r.status ∈ canReturn (mk op)) ∧
  (∀ mk ∈ commands, ∀ st ∈ canReturn (mk []), ∃ (op : Bytes) (s t : State) (R : Bytes), s.cfg.Legal ∧
    op.length ≤ 65535 ∧ exec (mk op) s = .next t ∧ t.responses = s.responses ++ [⟨st, R⟩]) ∧
  ∀ opc ∈ assigned, ∀ (rsv : Byte) (op : Bytes), op.length ≤ 65535 →
    ((∃ i, decodeCommand (portBytes opc rsv op) = .ok i) ↔ rsv = 0x00)

/-- R55: every command but RX.POP, RX.STATUS and TM.SEND is a pure function of its operand and the parameters: it touches
no state, and any two states of one instance give the same response. -/
def Obligations.StatelessCommandsAreFunctionsOfTheOperand : Prop :=
  ∀ i : Instr, Stateless i → ∀ s s' : State, s'.cfg = s.cfg →
    ∃ r, AnswersWithCrc i s r ∧ AnswersWithCrc i s' r

/-- R23, R222: no command or event reads what an earlier one left in the CRC register: with another content of the
register (and of the model's own counter) everything else comes out the same. -/
def Obligations.CrcRegisterContentIsNeverRead : Prop :=
  ∀ (i : Instr) (s t : State) (c : Half) (n : Nat), exec i s = .next t →
    ∃ c' n', exec i { s with crc := c, crcTick := n } = .next { t with crc := c', crcTick := n' }

/-! ### The CRC engine (40_crc.md) -/

/-- R104. CRC.COMPUTE. -/
def Obligations.CrcComputeAnswersTheCrc : Prop :=
  EncodedAs 0x01 .crcCompute ∧
  ∀ (op : Bytes) (s : State), AnswersWithCrc (.crcCompute op) s ⟨.ok, be16 (crcUpdate 0xFFFF op)⟩

/-- R105. CRC.UPDATE; seeded with the CRC of A and given B it answers the CRC of A ++ B (R103). -/
def Obligations.CrcUpdateContinuesTheCrc : Prop :=
  EncodedAs 0x02 .crcUpdate ∧
  (∀ (op : Bytes) (s : State), op.length < 2 → Answers (.crcUpdate op) s ⟨.truncated, []⟩) ∧
  (∀ (seed : Half) (D : Bytes) (s : State),
    AnswersWithCrc (.crcUpdate (be16 seed ++ D)) s ⟨.ok, be16 (crcUpdate seed D)⟩) ∧
  ∀ A B : Bytes, crcUpdate (crc16 A) B = crc16 (A ++ B)

/-- R106. CRC.VALIDATE. -/
def Obligations.CrcValidateComparesTheTrailer : Prop :=
  EncodedAs 0x03 .crcValidate ∧
  (∀ (op : Bytes) (s : State), op.length < 2 → Answers (.crcValidate op) s ⟨.truncated, []⟩) ∧
  (∀ (body : Bytes) (received : Half) (s : State), crc16 body ≠ received →
    AnswersWithCrc (.crcValidate (body ++ be16 received)) s ⟨.checksumMismatch, []⟩) ∧
  ∀ (body : Bytes) (received : Half) (s : State), crc16 body = received →
    AnswersWithCrc (.crcValidate (body ++ be16 received)) s ⟨.ok, []⟩

/-- R107. CRC.APPEND. -/
def Obligations.CrcAppendAddsTheTrailer : Prop :=
  EncodedAs 0x04 .crcAppend ∧
  (∀ (op : Bytes) (s : State), op.length > 65533 → Answers (.crcAppend op) s ⟨.tooLong, []⟩) ∧
  ∀ (op : Bytes) (s : State), op.length ≤ 65533 →
    AnswersWithCrc (.crcAppend op) s ⟨.ok, op ++ be16 (crc16 op)⟩ ∧
    AnswersWithCrc (.crcValidate (op ++ be16 (crc16 op))) s ⟨.ok, []⟩

/-- R102. The byte-wise form equals the bit-serial kernel, for every register value and data. -/
def Obligations.ByteWiseCrcEqualsBitSerialCrc : Prop :=
  ∀ (c : Half) (D : Bytes), D.foldl crcByteWise c = crcUpdate c D

/-- R108. A byte sequence with its CRC appended validates, and its residue is zero. -/
def Obligations.AppendedCrcLeavesZeroResidue : Prop :=
  ∀ (D : Bytes) (s : State), D.length ≤ 65533 →
    AnswersWithCrc (.crcValidate (D ++ be16 (crc16 D))) s ⟨.ok, []⟩ ∧
    crcUpdate (crc16 D) (be16 (crc16 D)) = 0x0000

/-- R109. Single-bit error detection, for every length and every bit position. -/
def Obligations.SingleBitErrorIsDetected : Prop :=
  ∀ (D : Bytes) (k j : Nat) (s : State), k < D.length + 2 → j < 8 →
    AnswersWithCrc (.crcValidate (flipBit (D ++ be16 (crc16 D)) k j)) s ⟨.checksumMismatch, []⟩

/-! ### The header codec (41_headers.md) -/

/-- R126. The symmetry law, for the three header kinds. -/
def Obligations.HeaderDecodeInvertsEncode : Prop :=
  (∀ h : PrimaryHeader, phDecode (phEncode h) = h) ∧ (∀ h : TcHeader, tcshDecode (tcshEncode h) = h) ∧
  ∀ h : TmHeader, tmshDecode (tmshEncode h) = h

/-- R127. The converse law: each encode is a bijection between records and N-byte values. -/
def Obligations.HeaderEncodeInvertsDecode : Prop :=
  (∀ B : Bytes, B.length = 6 → phEncode (phDecode B) = B) ∧
  (∀ B : Bytes, B.length = 5 → tcshEncode (tcshDecode B) = B) ∧
  (∀ B : Bytes, B.length = 9 → tmshEncode (tmshDecode B) = B) ∧
  (∀ h h' : PrimaryHeader, phEncode h = phEncode h' → h = h') ∧
  (∀ h h' : TcHeader, tcshEncode h = tcshEncode h' → h = h') ∧
  ∀ h h' : TmHeader, tmshEncode h = tmshEncode h' → h = h'

/-- R128 (with the byte-level form of R120). PH.ENCODE. -/
def Obligations.PhEncodePacksSixBytes : Prop :=
  EncodedAs 0x10 .phEncode ∧
  ∀ (op : Bytes) (s : State),
    (op.length < 14 → Answers (.phEncode op) s ⟨.truncated, []⟩) ∧
    (op.length > 14 → Answers (.phEncode op) s ⟨.malformed, []⟩) ∧
    (op.length = 14 → ¬ InRange op 0 phBits → Answers (.phEncode op) s ⟨.malformed, []⟩) ∧
    (op.length = 14 → InRange op 0 phBits →
      Answers (.phEncode op) s ⟨.ok,
        [byte (num16 op 0 * 32 + num16 op 2 * 16 + num16 op 4 * 8 + num16 op 6 / 256), byte (num16 op 6 % 256),
          byte (num16 op 8 * 64 + num16 op 10 / 256), byte (num16 op 10 % 256),
          byte (num16 op 12 / 256), byte (num16 op 12 % 256)]⟩)

/-- R129 (with R121). PH.DECODE. -/
def Obligations.PhDecodeUnpacksSixBytes : Prop :=
  EncodedAs 0x11 .phDecode ∧
  ∀ (op : Bytes) (s : State),
    (op.length < 6 → Answers (.phDecode op) s ⟨.truncated, []⟩) ∧
    (op.length > 6 → Answers (.phDecode op) s ⟨.malformed, []⟩) ∧
    (op.length = 6 → Answers (.phDecode op) s ⟨.ok, fieldVector
      [num op 0 / 32, num op 0 / 16 % 2, num op 0 / 8 % 2, num op 0 % 8 * 256 + num op 1,
        num op 2 / 64, num op 2 % 64 * 256 + num op 3, num op 4 * 256 + num op 5]⟩)

/-- R130 (with R122). TCSH.ENCODE. -/
def Obligations.TcshEncodePacksFiveBytes : Prop :=
  EncodedAs 0x12 .tcshEncode ∧
  ∀ (op : Bytes) (s : State),
    (op.length < 10 → Answers (.tcshEncode op) s ⟨.truncated, []⟩) ∧
    (op.length > 10 → Answers (.tcshEncode op) s ⟨.malformed, []⟩) ∧
    (op.length = 10 → ¬ InRange op 0 tcBits → Answers (.tcshEncode op) s ⟨.malformed, []⟩) ∧
    (op.length = 10 → InRange op 0 tcBits →
      Answers (.tcshEncode op) s ⟨.ok,
        [byte (num16 op 0 * 16 + num16 op 2), byte (num16 op 4), byte (num16 op 6),
          byte (num16 op 8 / 256), byte (num16 op 8 % 256)]⟩)

/-- R131 (with R123). TCSH.DECODE. -/
def Obligations.TcshDecodeUnpacksFiveBytes : Prop :=
  EncodedAs 0x13 .tcshDecode ∧
  ∀ (op : Bytes) (s : State),
    (op.length < 5 → Answers (.tcshDecode op) s ⟨.truncated, []⟩) ∧
    (op.length > 5 → Answers (.tcshDecode op) s ⟨.malformed, []⟩) ∧
    (op.length = 5 → Answers (.tcshDecode op) s ⟨.ok, fieldVector
      [num op 0 / 16, num op 0 % 16, num op 1, num op 2, num op 3 * 256 + num op 4]⟩)

/-- R132 (with R124). TMSH.ENCODE. -/
def Obligations.TmshEncodePacksNineBytes : Prop :=
  EncodedAs 0x14 .tmshEncode ∧
  ∀ (op : Bytes) (s : State),
    (op.length < 14 → Answers (.tmshEncode op) s ⟨.truncated, []⟩) ∧
    (op.length > 14 → Answers (.tmshEncode op) s ⟨.malformed, []⟩) ∧
    (op.length = 14 → ¬ InRange op 0 tmBits → Answers (.tmshEncode op) s ⟨.malformed, []⟩) ∧
    (op.length = 14 → InRange op 0 tmBits →
      Answers (.tmshEncode op) s ⟨.ok,
        [byte (num16 op 0 * 16 + num16 op 2), byte (num16 op 4), byte (num16 op 6),
          byte (num16 op 8 / 256), byte (num16 op 8 % 256), byte (num16 op 10 / 256), byte (num16 op 10 % 256),
          byte (num16 op 12 / 256), byte (num16 op 12 % 256)]⟩)

/-- R133 (with R125). TMSH.DECODE. -/
def Obligations.TmshDecodeUnpacksNineBytes : Prop :=
  EncodedAs 0x15 .tmshDecode ∧
  ∀ (op : Bytes) (s : State),
    (op.length < 9 → Answers (.tmshDecode op) s ⟨.truncated, []⟩) ∧
    (op.length > 9 → Answers (.tmshDecode op) s ⟨.malformed, []⟩) ∧
    (op.length = 9 → Answers (.tmshDecode op) s ⟨.ok, fieldVector
      [num op 0 / 16, num op 0 % 16, num op 1, num op 2, num op 3 * 256 + num op 4, num op 5 * 256 + num op 6,
        num op 7 * 256 + num op 8]⟩)

/-- R78, R79. A field vector the block returns has one container a field, every container in range, and is read back as
the record it was made from. -/
def Obligations.ReturnedFieldVectorsAreInRange : Prop :=
  (∀ h : PrimaryHeader, (phToFv h).length = 14 ∧ InRange (phToFv h) 0 phBits ∧ phOfFv (phToFv h) = h) ∧
  (∀ h : TcHeader, (tcshToFv h).length = 10 ∧ InRange (tcshToFv h) 0 tcBits ∧ tcshOfFv (tcshToFv h) = h) ∧
  ∀ h : TmHeader, (tmshToFv h).length = 14 ∧ InRange (tmshToFv h) 0 tmBits ∧ tmshOfFv (tmshToFv h) = h

/-! ### Framing (42_framing.md) -/

/-- R142 (a) to (c). A frame's only 0x00 is its last byte, and its length is bounded both ways. -/
def Obligations.FrameHasOneZeroAndBoundedLength : Prop :=
  ∀ (T : Bool) (D : Bytes),
    (cobsFrame T D).getLast? = some 0x00 ∧ 0x00 ∉ (cobsFrame T D).dropLast ∧
    D.length + 2 ≤ (cobsFrame T D).length ∧ (cobsFrame T D).length ≤ D.length + D.length / 254 + 2 ∧
    (1 ≤ D.length → (cobsFrame false D).length ≤ D.length + (D.length + 253) / 254 + 1)

/-- R142 (d). De-framing is the inverse of framing, for every byte sequence and both trailer settings. -/
def Obligations.DeframeInvertsFrame : Prop :=
  ∀ (T : Bool) (D : Bytes), cobsDeframe (cobsFrame T D) = some D

/-- R141. The declarative form of the framer equals its loop. -/
def Obligations.DeclarativeFrameEqualsTheLoop : Prop :=
  ∀ (T : Bool) (D : Bytes), cobsFrameDecl T D = cobsFrame T D

/-- R144. De-framing fails in exactly the four cases, the commands that use it then answer MALFORMED, and it takes a final
full block with and without the lone 0x01. -/
def Obligations.DeframeFailsInExactlyFourCases : Prop :=
  (∀ F : Bytes, cobsDeframe F = none ↔
    F.length < 2 ∨ F.getLast? ≠ some 0x00 ∨ 0x00 ∈ F.dropLast ∨
    ∃ i, CodeAt F.dropLast i ∧ F.dropLast.length < i + num F.dropLast i) ∧
  (∀ (F : Bytes) (s : State), cobsDeframe F = none →
    Answers (.cobsDeframe F) s ⟨.malformed, []⟩ ∧ Answers (.tcIngest F) s ⟨.malformed, []⟩) ∧
  ∀ D : Bytes, D.length = 254 → 0x00 ∉ D →
    cobsDeframe (0xFF :: (D ++ [0x00])) = some D ∧ cobsDeframe (0xFF :: (D ++ [0x01, 0x00])) = some D

/-- R146. COBS.FRAME. -/
def Obligations.CobsFrameCommandAnswersTheFrame : Prop :=
  EncodedAs 0x20 .cobsFrame ∧
  ∀ (op : Bytes) (s : State),
    ((cobsFrame s.cfg.cobsFullBlockTrailer op).length > 65535 → Answers (.cobsFrame op) s ⟨.tooLong, []⟩) ∧
    ((cobsFrame s.cfg.cobsFullBlockTrailer op).length ≤ 65535 →
      Answers (.cobsFrame op) s ⟨.ok, cobsFrame s.cfg.cobsFullBlockTrailer op⟩) ∧
    (op.length < 65278 → Answers (.cobsFrame op) s ⟨.ok, cobsFrame s.cfg.cobsFullBlockTrailer op⟩) ∧
    (op = List.replicate 65533 0x00 →
      Answers (.cobsFrame op) s ⟨.ok, cobsFrame s.cfg.cobsFullBlockTrailer op⟩ ∧
      (cobsFrame s.cfg.cobsFullBlockTrailer op).length = 65535)

/-- R147. COBS.DEFRAME. -/
def Obligations.CobsDeframeCommandAnswersTheBytes : Prop :=
  EncodedAs 0x21 .cobsDeframe ∧
  ∀ (op : Bytes) (s : State),
    (cobsDeframe op = none → Answers (.cobsDeframe op) s ⟨.malformed, []⟩) ∧
    ∀ D, cobsDeframe op = some D → Answers (.cobsDeframe op) s ⟨.ok, D⟩ ∧ D.length ≤ op.length - 1

/-- R148 (with R149 to R151). The seven cases of one RX.BYTE event and all that each changes. -/
def Obligations.RxByteAccumulatesAndQueues : Prop :=
  ∀ (s : State) (b : Byte),
    (b = 0x00 → s.rxDiscard = true → exec (.rxByte b) s = .next { s with rxDiscard := false }) ∧
    (b = 0x00 → s.rxDiscard = false → s.rxAcc = [] → exec (.rxByte b) s = .next s) ∧
    (b = 0x00 → s.rxDiscard = false → s.rxAcc ≠ [] → s.rxq.length < s.cfg.rxqDepth →
      exec (.rxByte b) s = .next { s with rxq := s.rxq ++ [s.rxAcc ++ [0x00]], rxAcc := [] }) ∧
    (b = 0x00 → s.rxDiscard = false → s.rxAcc ≠ [] → s.cfg.rxqDepth ≤ s.rxq.length →
      exec (.rxByte b) s = .next { s with rxLost := true, rxAcc := [] }) ∧
    (b ≠ 0x00 → s.rxDiscard = true → exec (.rxByte b) s = .next s) ∧
    (b ≠ 0x00 → s.rxDiscard = false → s.rxAcc.length = s.cfg.maxPacket + s.cfg.maxPacket / 254 + 2 - 1 →
      exec (.rxByte b) s = .next { s with rxAcc := [], rxDiscard := true, rxLost := true }) ∧
    (b ≠ 0x00 → s.rxDiscard = false → s.rxAcc.length ≠ s.cfg.maxPacket + s.cfg.maxPacket / 254 + 2 - 1 →
      exec (.rxByte b) s = .next { s with rxAcc := s.rxAcc ++ [b] })

/-- R150. A non-zero byte that arrives at a full accumulator empties it and sets both flags, every byte up to and
including the next 0x00 is dropped, and that 0x00 clears `rx_discard`. -/
def Obligations.OverlongFrameIsDroppedToItsDelimiter : Prop :=
  ∀ (s : State) (b : Byte) (bs : Bytes), s.rxDiscard = false → s.rxAcc.length = s.cfg.maxFrame - 1 →
    b ≠ 0x00 → 0x00 ∉ bs →
    runFeed (b :: bs) s = .next { s with rxAcc := [], rxDiscard := true, rxLost := true } ∧
    runFeed (b :: (bs ++ [0x00])) s = .next { s with rxAcc := [], rxDiscard := false, rxLost := true }

/-- R154 and R151. A frame that fits becomes available exactly when its 0x00 is processed and there is room: before, no
state but the accumulator has changed; without room it is dropped and `rx_lost` set. -/
def Obligations.FrameBecomesAvailableAtItsDelimiter : Prop :=
  ∀ (s : State) (bs : Bytes), s.rxDiscard = false → s.rxAcc = [] → bs ≠ [] → 0x00 ∉ bs →
    bs.length ≤ s.cfg.maxFrame - 1 →
    runFeed bs s = .next { s with rxAcc := bs } ∧
    (s.rxq.length < s.cfg.rxqDepth →
      runFeed (bs ++ [0x00]) s = .next { s with rxq := s.rxq ++ [bs ++ [0x00]] }) ∧
    (s.cfg.rxqDepth ≤ s.rxq.length → runFeed (bs ++ [0x00]) s = .next { s with rxLost := true })

/-- R155. Whatever bytes have arrived, the synchronizer is back in step after the next 0x00. -/
def Obligations.SynchronizerIsBackInStepAfterADelimiter : Prop :=
  ∀ (s : State) (bs : Bytes), (s.rxDiscard = true → s.rxAcc = []) →
    ∃ t, runFeed (bs ++ [0x00]) s = .next t ∧ t.rxAcc = [] ∧ t.rxDiscard = false ∧
      t.responses = s.responses ∧ t.txOut = s.txOut ∧ ∃ q, t.rxq = s.rxq ++ q

/-- R152. RX.POP. -/
def Obligations.RxPopTakesTheOldestFrame : Prop :=
  EncodedAs 0x22 .rxPop ∧
  ∀ s : State,
    (∀ op : Bytes, op ≠ [] → Answers (.rxPop op) s ⟨.malformed, []⟩) ∧
    (s.rxq = [] → Answers (.rxPop []) s ⟨.empty, []⟩) ∧
    ∀ F q, s.rxq = F :: q →
      exec (.rxPop []) s = .next { s with rxq := q, responses := s.responses ++ [⟨.ok, F⟩] }

/-- R153 and R28. RX.STATUS: the four bytes of the RX status register, then RX_LOST is cleared. -/
def Obligations.RxStatusReadsAndClears : Prop :=
  EncodedAs 0x23 .rxStatus ∧
  ∀ s : State,
    (∀ op : Bytes, op ≠ [] → Answers (.rxStatus op) s ⟨.malformed, []⟩) ∧
    exec (.rxStatus []) s = .next { s with
      rxLost := false
      responses := s.responses ++ [⟨.ok,
        [byte s.rxq.length, byte ((if s.rxLost then 2 else 0) + (if s.rxDiscard then 1 else 0)),
          byte (s.rxAcc.length / 256), byte s.rxAcc.length]⟩] }

/-- R35, R199. `rx_ready` is 1 exactly when the queue holds a frame; it rises only by an RX.BYTE event and falls only by
RX.POP or reset. -/
def Obligations.RxReadyFollowsTheQueue : Prop :=
  (∀ s : State, s.rxReady = true ↔ s.rxq.length > 0) ∧
  ∀ (s t : State) (e : Event) (es : List Event), s.pending = e :: es → step s = .next t →
    (s.rxReady = false → t.rxReady = true → ∃ b, e = .rxByte b) ∧
    (s.rxReady = true → t.rxReady = false → e = .reset ∨ ∃ port, e = .command port ∧
      decodeCommand port = .ok (.rxPop []))

/-- R26. `rx_lost` is set exactly when a received frame is dropped, over-long or at a full queue; RX.STATUS and reset
clear it, and nothing else does; it is 0 after power-on. -/
def Obligations.OnlyStatusAndResetClearTheLostFlag : Prop :=
  (∀ (s t : State) (e : Event) (es : List Event), s.pending = e :: es → step s = .next t →
    (s.rxLost = false → (t.rxLost = true ↔ s.rxDiscard = false ∧
      ((∃ b, e = .rxByte b ∧ b ≠ 0x00 ∧ s.rxAcc.length = s.cfg.maxFrame - 1) ∨
        (e = .rxByte 0x00 ∧ s.rxAcc ≠ [] ∧ s.cfg.rxqDepth ≤ s.rxq.length)))) ∧
    (s.rxLost = true → (t.rxLost = false ↔
      e = .reset ∨ ∃ port, e = .command port ∧ decodeCommand port = .ok (.rxStatus [])))) ∧
  ∀ cfg : Config, (State.powerOn cfg).rxLost = false

/-- R59. RX.POP returns frames in the order they were queued: as many RX.POP commands as there are frames in front return
them in order. -/
def Obligations.QueueIsFirstInFirstOut : Prop :=
  ∀ (s : State) (fs q : List Bytes), s.rxq = fs ++ q → s.pending = List.replicate fs.length popCommand →
    Host.Core.run core fs.length s =
      .next { s with rxq := q, pending := [], responses := s.responses ++ fs.map fun F => ⟨.ok, F⟩ }

/-- Every frame the block can emit is received whole by a block of the same instance: fed byte by byte to a synchronizer
in step and with room, it is queued, and de-framing it gives back the packet (R142, R148, R150). -/
def Obligations.EmittedFrameIsReceivedWhole : Prop :=
  ∀ (s : State) (pkt : Bytes), 1 ≤ pkt.length → pkt.length ≤ s.cfg.maxPacket → s.rxAcc = [] → s.rxDiscard = false →
    s.rxq = [] → 1 ≤ s.cfg.rxqDepth →
    ∃ t u, runFeed (cobsFrame s.cfg.cobsFullBlockTrailer pkt) s = .next t ∧ exec (.rxPop []) t = .next u ∧
      u.arch = s.arch ∧ u.responses = s.responses ++ [⟨.ok, cobsFrame s.cfg.cobsFullBlockTrailer pkt⟩] ∧
      Answers (.cobsDeframe (cobsFrame s.cfg.cobsFullBlockTrailer pkt)) u ⟨.ok, pkt⟩

/-! ### The packet pipelines (43_packets.md) -/

/-- R173 (with R172). TM.ASSEMBLE. -/
def Obligations.TmAssembleBuildsThePacket : Prop :=
  EncodedAs 0x30 .tmAssemble ∧
  ∀ (op : Bytes) (s : State),
    (op.length < 28 → Answers (.tmAssemble op) s ⟨.truncated, []⟩) ∧
    (28 ≤ op.length → ¬ (InRange op 0 phBits ∧ InRange op 14 tmBits) → Answers (.tmAssemble op) s ⟨.malformed, []⟩) ∧
    (28 ≤ op.length → InRange op 0 phBits → InRange op 14 tmBits → 17 + (op.length - 28) > s.cfg.maxPacket →
      Answers (.tmAssemble op) s ⟨.tooLong, []⟩) ∧
    (28 ≤ op.length → InRange op 0 phBits → InRange op 14 tmBits → 17 + (op.length - 28) ≤ s.cfg.maxPacket →
      AnswersWithCrc (.tmAssemble op) s ⟨.ok, tmPacket op⟩ ∧ (tmPacket op).length = 17 + (op.length - 28))

/-- R174. TM.SEND: one whole frame on the TX port on OK, nothing on a failure. -/
def Obligations.TmSendEmitsOneFrame : Prop :=
  EncodedAs 0x31 .tmSend ∧
  ∀ (op : Bytes) (s : State),
    (op.length < 28 → Answers (.tmSend op) s ⟨.truncated, []⟩) ∧
    (28 ≤ op.length → ¬ (InRange op 0 phBits ∧ InRange op 14 tmBits) → Answers (.tmSend op) s ⟨.malformed, []⟩) ∧
    (28 ≤ op.length → InRange op 0 phBits → InRange op 14 tmBits → 17 + (op.length - 28) > s.cfg.maxPacket →
      Answers (.tmSend op) s ⟨.tooLong, []⟩) ∧
    (28 ≤ op.length → InRange op 0 phBits → InRange op 14 tmBits → 17 + (op.length - 28) ≤ s.cfg.maxPacket →
      (∃ v n, exec (.tmSend op) s = .next { s with
        txOut := s.txOut ++ cobsFrame s.cfg.cobsFullBlockTrailer (tmPacket op)
        responses := s.responses ++ [⟨.ok, []⟩], crc := v, crcTick := n }) ∧
      (cobsFrame s.cfg.cobsFullBlockTrailer (tmPacket op)).length ≤ s.cfg.maxFrame ∧
      (cobsFrame s.cfg.cobsFullBlockTrailer (tmPacket op)).getLast? = some 0x00 ∧
      0x00 ∉ (cobsFrame s.cfg.cobsFullBlockTrailer (tmPacket op)).dropLast)

/-- R177 (with R175, R176, R83, R194). TC.INGEST: the first failing check decides, and a ValidatedTc is laid out as
R83 says. Here L = data_length + 7 and `sec` is the secondary header flag of the de-framed bytes D. -/
def Obligations.TcIngestFirstFailingCheckDecides : Prop :=
  EncodedAs 0x32 .tcIngest ∧
  ∀ (op : Bytes) (s : State),
    (cobsDeframe op = none → Answers (.tcIngest op) s ⟨.malformed, []⟩) ∧
    ∀ (D : Bytes) (L sec : Nat), cobsDeframe op = some D → L = num16 D 4 + 7 → sec = num D 0 / 8 % 2 →
      (D.length < 6 → Answers (.tcIngest op) s ⟨.truncated, []⟩) ∧
      (6 ≤ D.length → D.length < L → Answers (.tcIngest op) s ⟨.truncated, []⟩) ∧
      (6 ≤ D.length → D.length > L → Answers (.tcIngest op) s ⟨.malformed, []⟩) ∧
      (D.length = L → L > s.cfg.maxPacket → Answers (.tcIngest op) s ⟨.tooLong, []⟩) ∧
      (D.length = L → L ≤ s.cfg.maxPacket → L < 8 → Answers (.tcIngest op) s ⟨.malformed, []⟩) ∧
      (D.length = L → L ≤ s.cfg.maxPacket → 8 ≤ L → sec = 1 → L < 13 → Answers (.tcIngest op) s ⟨.malformed, []⟩) ∧
      (D.length = L → L ≤ s.cfg.maxPacket → 8 ≤ L → (sec = 1 → 13 ≤ L) →
        (crc16 (D.take (L - 2))).toNat ≠ num16 D (L - 2) →
        AnswersWithCrc (.tcIngest op) s ⟨.checksumMismatch, []⟩) ∧
      (D.length = L → L ≤ s.cfg.maxPacket → 13 ≤ L → sec = 1 → (crc16 (D.take (L - 2))).toNat = num16 D (L - 2) →
        AnswersWithCrc (.tcIngest op) s ⟨.ok, phToFv (phDecode (D.take 6)) ++ [0x01] ++
          tcshToFv (tcshDecode ((D.drop 6).take 5)) ++ (D.drop 11).take (L - 13)⟩) ∧
      (D.length = L → L ≤ s.cfg.maxPacket → 8 ≤ L → sec = 0 → (crc16 (D.take (L - 2))).toNat = num16 D (L - 2) →
        AnswersWithCrc (.tcIngest op) s ⟨.ok, phToFv (phDecode (D.take 6)) ++ [0x00] ++ List.replicate 10 0x00 ++
          (D.drop 6).take (L - 8)⟩)

/-- Every telecommand that is built as R70 lays it out, with a consistent length that fits, is ingested, whatever its
other fields hold (R179), and comes back field for field; with and without a secondary header (R176, R180). -/
def Obligations.WellFormedTelecommandIsIngested : Prop :=
  (∀ (T : Bool) (ph : PrimaryHeader) (tc : TcHeader) (payload : Bytes) (s : State), ph.secHdrFlag = 1 →
    ph.dataLength.toNat = payload.length + 6 → payload.length + 13 ≤ s.cfg.maxPacket →
    AnswersWithCrc (.tcIngest (cobsFrame T (withTrailer (phEncode ph ++ tcshEncode tc ++ payload)))) s
      ⟨.ok, phToFv ph ++ [0x01] ++ tcshToFv tc ++ payload⟩) ∧
  ∀ (T : Bool) (ph : PrimaryHeader) (payload : Bytes) (s : State), ph.secHdrFlag = 0 →
    ph.dataLength.toNat = payload.length + 1 → payload.length + 8 ≤ s.cfg.maxPacket →
    AnswersWithCrc (.tcIngest (cobsFrame T (withTrailer (phEncode ph ++ payload)))) s
      ⟨.ok, phToFv ph ++ [0x00] ++ List.replicate 10 0x00 ++ payload⟩

/-- A packet that is ingested is rejected after any single-bit error, and with CHECKSUM_MISMATCH if the bit is in its CRC
trailer; nothing is written and nothing transmitted (R109, R175, R178, 90_conflicts.md C9). -/
def Obligations.SingleBitErrorIsNeverIngested : Prop :=
  ∀ (T : Bool) (D : Bytes) (k j : Nat) (s t : State) (R : Bytes), exec (.tcIngest (cobsFrame T D)) s = .next t →
    t.responses = s.responses ++ [⟨.ok, R⟩] → k < D.length → j < 8 →
    ∃ st, st ≠ .ok ∧ AnswersWithCrc (.tcIngest (cobsFrame T (flipBit D k j))) s ⟨st, []⟩ ∧
      (D.length - 2 ≤ k → st = .checksumMismatch)

/-! ### The state and whole-machine rules (10_state.md, 20_memory.md, 70_reset_and_hazards.md) -/

/-- R38. The values after power-on, for every instance; `State.reset` is the power-on of the instance that assumption 1
names. The CRC register's value is left out: the spec gives none. -/
def Obligations.PowerOnStateIsEmpty : Prop :=
  (∀ cfg : Config, (State.powerOn cfg).arch = ⟨[], false, false, [], []⟩ ∧ (State.powerOn cfg).cfg = cfg ∧
    (State.powerOn cfg).rxReady = false ∧ rxStatusRegister (State.powerOn cfg) = [0x00, 0x00, 0x00, 0x00]) ∧
  ∃ cfg : Config, cfg.Legal ∧ State.reset = State.powerOn cfg

/-- R220 and R221. A reset pulse, whatever input comes behind it, empties the synchronizer and clears both flags, alters
neither `tx_out` nor the parameters, and leaves `rx_ready` at 0; an RX.STATUS right behind it returns four zero bytes. That
the pulse leaves the response history and the inputs still to come as they are is the model's choice (assumptions 6
and 11). -/
def Obligations.ResetPulseEmptiesTheSynchronizer : Prop :=
  ∀ (s : State) (es : List Event), s.pending = .reset :: es →
    ∃ t, step s = .next t ∧ t.arch = ⟨[], false, false, [], s.txOut⟩ ∧ t.cfg = s.cfg ∧ t.rxReady = false ∧
      t.responses = s.responses ∧ t.pending = es ∧
      ∀ es', es = statusCommand :: es' → ∃ u, step t = .next u ∧
        u.responses = t.responses ++ [⟨.ok, [0x00, 0x00, 0x00, 0x00]⟩] ∧ u.arch = t.arch ∧ u.cfg = t.cfg ∧
        u.pending = es'

/-- The invariant of R37 holds after power-on of every legal instance. -/
def Obligations.PowerOnStateIsInvariant : Prop :=
  (∀ cfg : Config, cfg.Legal → (State.powerOn cfg).Inv) ∧ State.reset.Inv

/-- R37, R27, R74. Every step from a state that meets the invariant reaches a state that meets it. -/
def Obligations.StepKeepsTheInvariant : Prop :=
  ∀ s t : State, s.Inv → step s = .next t → t.Inv

/-- R30. No step changes the parameters, so they are the same all along a run; each step takes exactly its own input off
the inputs still to come (R34, R58). -/
def Obligations.ParametersAreFixedAlongARun : Prop :=
  (∀ s t : State, step s = .next t → t.cfg = s.cfg ∧ t.pending = s.pending.tail) ∧
  ∀ s t : State, Reaches s t → t.cfg = s.cfg

/-- R33, R59. The TX port history only grows, by one whole frame and only by a TM.SEND. -/
def Obligations.TxHistoryGrowsByWholeFrames : Prop :=
  (∀ (s t : State) (e : Event) (es : List Event), s.pending = e :: es → step s = .next t →
    t.txOut = s.txOut ∨ ∃ port op, e = .command port ∧ decodeCommand port = .ok (.tmSend op) ∧
      t.txOut = s.txOut ++ cobsFrame s.cfg.cobsFullBlockTrailer (tmPacket op)) ∧
  ∀ s t : State, Reaches s t → s.txOut <+: t.txOut

/-- R6, R67. The two ACK numberings name the sub-bits as the table says, and no operation depends on which one the
instance has. -/
def Obligations.AckBitOrderNeverMatters : Prop :=
  ([AckFlag.acceptance, .start, .progress, .completion].map (ackMask .lsb0) = [0x8, 0x4, 0x2, 0x1] ∧
    [AckFlag.acceptance, .start, .progress, .completion].map (ackMask .msb0) = [0x1, 0x2, 0x4, 0x8]) ∧
  ∀ (i : Instr) (s t : State) (o : AckBitOrder), exec i s = .next t →
    exec i { s with cfg := { s.cfg with ackBitOrder := o } } =
      .next { t with cfg := { t.cfg with ackBitOrder := o } }

/-- R58 and R55. How link bytes interleave with stateless commands does not matter: two input sequences of the same two
streams, of bytes and of stateless or illegal commands, end in the same architectural state and with the same
responses. -/
def Obligations.InterleavingDoesNotMatterToStatelessCommands : Prop :=
  ∀ (s : State) (es es' : List Event), SameStreams es es' →
    (∀ e ∈ es ++ es', (∃ b, e = .rxByte b) ∨ ∃ opc rsv op, e = .command (portBytes opc rsv op) ∧ op.length ≤ 65535 ∧
      ∀ i, decodeCommand (portBytes opc rsv op) = .ok i → Stateless i) →
    ∃ t t', Host.Core.run core es.length { s with pending := es } = .next t ∧
      Host.Core.run core es'.length { s with pending := es' } = .next t' ∧
      t'.arch = t.arch ∧ t'.responses = t.responses

/-! ### The command syntax (30_encoding.md Part C) -/

/-- R88. RX.RECEIVE pops the oldest frame and ingests it; with no frame queued it ends with EMPTY. -/
def Obligations.RxReceiveIngestsTheOldestFrame : Prop :=
  ∀ s : State,
    (s.rxq = [] → runItem .receive s = .next { s with responses := s.responses ++ [⟨.empty, []⟩] }) ∧
    ∀ F q, s.rxq = F :: q →
      runItem .receive s = exec (.tcIngest F) { s with rxq := q, responses := s.responses ++ [⟨.ok, F⟩] }

/-- R86, R87. The assembler writes the containers in FV order regardless of the order of the operands: container `j` holds
the value assigned to key `j`, there is one container a key, and a missing key is an error. An encode line with one
16-bit value for each of its keys, in any order, is the command with those values as its field vector; the lines of
TM.ASSEMBLE, TM.SEND and CRC.UPDATE are not in that clause. The model's choices here (assumption 16): a repeated key or a
value of 65536 or more is an error, and a value below 65536 that is too wide for its field (`ver=8`) is assembled as it is
written, because the block itself rejects it (R79). -/
def Obligations.AssemblerOrderDoesNotMatter : Prop :=
  (∀ (keys : List AsmName) (fields fields' : List (AsmName × Nat)) (fv : Bytes), fields.Perm fields' →
    asmFv keys fields = .ok fv → asmFv keys fields' = .ok fv ∧ fv.length = 2 * keys.length ∧
      ∀ (j : Nat) (k : AsmName), keys[j]? = some k → ∃ v, (k, v) ∈ fields ∧ num16 fv (2 * j) = v) ∧
  (∀ (keys : List AsmName) (fields : List (AsmName × Nat)) (k : AsmName) (fv : Bytes), k ∈ keys →
    k ∉ fields.map Prod.fst → asmFv keys fields ≠ .ok fv) ∧
  ∀ line ∈ encodeLines, ∀ (vs : List Nat) (fields : List (AsmName × Nat)), vs.length = line.2.2.length →
    (∀ v ∈ vs, v < 65536) → fields.Perm ((line.2.2.map String.toList).zip vs) →
    assemble line.1.toList (fields.map fun p => .assign p.1 p.2) = .ok (.instr (line.2.1 (fieldVector vs)))
end

