-- ==== Sys2Proof/Laws/State.lean ====
section
/-! SUPPORT. One lemma per field and update of the state, true by rfl, so that no proof unfolds a record update. -/

namespace Sys2Proof.Machine

variable (s : State)

/-! ### `State.respond` -/

@[simp] theorem State.respond_rxAcc (r : Response) : (s.respond r).rxAcc = s.rxAcc := rfl
@[simp] theorem State.respond_rxDiscard (r : Response) : (s.respond r).rxDiscard = s.rxDiscard := rfl
@[simp] theorem State.respond_rxLost (r : Response) : (s.respond r).rxLost = s.rxLost := rfl
@[simp] theorem State.respond_rxq (r : Response) : (s.respond r).rxq = s.rxq := rfl
@[simp] theorem State.respond_txOut (r : Response) : (s.respond r).txOut = s.txOut := rfl
@[simp] theorem State.respond_crc (r : Response) : (s.respond r).crc = s.crc := rfl
@[simp] theorem State.respond_crcTick (r : Response) : (s.respond r).crcTick = s.crcTick := rfl
@[simp] theorem State.respond_cfg (r : Response) : (s.respond r).cfg = s.cfg := rfl
@[simp] theorem State.respond_responses (r : Response) : (s.respond r).responses = s.responses ++ [r] := rfl
@[simp] theorem State.respond_pending (r : Response) : (s.respond r).pending = s.pending := rfl
@[simp] theorem State.respond_arch (r : Response) : (s.respond r).arch = s.arch := rfl

/-! ### `State.setCrc` -/

@[simp] theorem State.setCrc_rxAcc (v : Half) : (s.setCrc v).rxAcc = s.rxAcc := rfl
@[simp] theorem State.setCrc_rxDiscard (v : Half) : (s.setCrc v).rxDiscard = s.rxDiscard := rfl
@[simp] theorem State.setCrc_rxLost (v : Half) : (s.setCrc v).rxLost = s.rxLost := rfl
@[simp] theorem State.setCrc_rxq (v : Half) : (s.setCrc v).rxq = s.rxq := rfl
@[simp] theorem State.setCrc_txOut (v : Half) : (s.setCrc v).txOut = s.txOut := rfl
@[simp] theorem State.setCrc_crc (v : Half) : (s.setCrc v).crc = v := rfl
@[simp] theorem State.setCrc_crcTick (v : Half) : (s.setCrc v).crcTick = s.crcTick := rfl
@[simp] theorem State.setCrc_cfg (v : Half) : (s.setCrc v).cfg = s.cfg := rfl
@[simp] theorem State.setCrc_responses (v : Half) : (s.setCrc v).responses = s.responses := rfl
@[simp] theorem State.setCrc_pending (v : Half) : (s.setCrc v).pending = s.pending := rfl
@[simp] theorem State.setCrc_arch (v : Half) : (s.setCrc v).arch = s.arch := rfl

/-! ### `State.releaseCrc` -/

@[simp] theorem State.releaseCrc_rxAcc : s.releaseCrc.rxAcc = s.rxAcc := rfl
@[simp] theorem State.releaseCrc_rxDiscard : s.releaseCrc.rxDiscard = s.rxDiscard := rfl
@[simp] theorem State.releaseCrc_rxLost : s.releaseCrc.rxLost = s.rxLost := rfl
@[simp] theorem State.releaseCrc_rxq : s.releaseCrc.rxq = s.rxq := rfl
@[simp] theorem State.releaseCrc_txOut : s.releaseCrc.txOut = s.txOut := rfl
@[simp] theorem State.releaseCrc_crc : s.releaseCrc.crc = Config.crcBetween s.crcTick := rfl
@[simp] theorem State.releaseCrc_crcTick : s.releaseCrc.crcTick = s.crcTick + 1 := rfl
@[simp] theorem State.releaseCrc_cfg : s.releaseCrc.cfg = s.cfg := rfl
@[simp] theorem State.releaseCrc_responses : s.releaseCrc.responses = s.responses := rfl
@[simp] theorem State.releaseCrc_pending : s.releaseCrc.pending = s.pending := rfl
@[simp] theorem State.releaseCrc_arch : s.releaseCrc.arch = s.arch := rfl

/-! ### `State.emitTx` -/

@[simp] theorem State.emitTx_rxAcc (B : Bytes) : (s.emitTx B).rxAcc = s.rxAcc := rfl
@[simp] theorem State.emitTx_rxDiscard (B : Bytes) : (s.emitTx B).rxDiscard = s.rxDiscard := rfl
@[simp] theorem State.emitTx_rxLost (B : Bytes) : (s.emitTx B).rxLost = s.rxLost := rfl
@[simp] theorem State.emitTx_rxq (B : Bytes) : (s.emitTx B).rxq = s.rxq := rfl
@[simp] theorem State.emitTx_txOut (B : Bytes) : (s.emitTx B).txOut = s.txOut ++ B := rfl
@[simp] theorem State.emitTx_crc (B : Bytes) : (s.emitTx B).crc = s.crc := rfl
@[simp] theorem State.emitTx_crcTick (B : Bytes) : (s.emitTx B).crcTick = s.crcTick := rfl
@[simp] theorem State.emitTx_cfg (B : Bytes) : (s.emitTx B).cfg = s.cfg := rfl
@[simp] theorem State.emitTx_responses (B : Bytes) : (s.emitTx B).responses = s.responses := rfl
@[simp] theorem State.emitTx_pending (B : Bytes) : (s.emitTx B).pending = s.pending := rfl
@[simp] theorem State.emitTx_arch (B : Bytes) : (s.emitTx B).arch = ⟨s.rxAcc, s.rxDiscard, s.rxLost, s.rxq, s.txOut ++ B⟩ := rfl

/-! ### `State.setAcc` -/

@[simp] theorem State.setAcc_rxAcc (B : Bytes) : (s.setAcc B).rxAcc = B := rfl
@[simp] theorem State.setAcc_rxDiscard (B : Bytes) : (s.setAcc B).rxDiscard = s.rxDiscard := rfl
@[simp] theorem State.setAcc_rxLost (B : Bytes) : (s.setAcc B).rxLost = s.rxLost := rfl
@[simp] theorem State.setAcc_rxq (B : Bytes) : (s.setAcc B).rxq = s.rxq := rfl
@[simp] theorem State.setAcc_txOut (B : Bytes) : (s.setAcc B).txOut = s.txOut := rfl
@[simp] theorem State.setAcc_crc (B : Bytes) : (s.setAcc B).crc = s.crc := rfl
@[simp] theorem State.setAcc_crcTick (B : Bytes) : (s.setAcc B).crcTick = s.crcTick := rfl
@[simp] theorem State.setAcc_cfg (B : Bytes) : (s.setAcc B).cfg = s.cfg := rfl
@[simp] theorem State.setAcc_responses (B : Bytes) : (s.setAcc B).responses = s.responses := rfl
@[simp] theorem State.setAcc_pending (B : Bytes) : (s.setAcc B).pending = s.pending := rfl
@[simp] theorem State.setAcc_arch (B : Bytes) : (s.setAcc B).arch = ⟨B, s.rxDiscard, s.rxLost, s.rxq, s.txOut⟩ := rfl

/-! ### `State.setDiscard` -/

@[simp] theorem State.setDiscard_rxAcc (v : Bool) : (s.setDiscard v).rxAcc = s.rxAcc := rfl
@[simp] theorem State.setDiscard_rxDiscard (v : Bool) : (s.setDiscard v).rxDiscard = v := rfl
@[simp] theorem State.setDiscard_rxLost (v : Bool) : (s.setDiscard v).rxLost = s.rxLost := rfl
@[simp] theorem State.setDiscard_rxq (v : Bool) : (s.setDiscard v).rxq = s.rxq := rfl
@[simp] theorem State.setDiscard_txOut (v : Bool) : (s.setDiscard v).txOut = s.txOut := rfl
@[simp] theorem State.setDiscard_crc (v : Bool) : (s.setDiscard v).crc = s.crc := rfl
@[simp] theorem State.setDiscard_crcTick (v : Bool) : (s.setDiscard v).crcTick = s.crcTick := rfl
@[simp] theorem State.setDiscard_cfg (v : Bool) : (s.setDiscard v).cfg = s.cfg := rfl
@[simp] theorem State.setDiscard_responses (v : Bool) : (s.setDiscard v).responses = s.responses := rfl
@[simp] theorem State.setDiscard_pending (v : Bool) : (s.setDiscard v).pending = s.pending := rfl
@[simp] theorem State.setDiscard_arch (v : Bool) : (s.setDiscard v).arch = ⟨s.rxAcc, v, s.rxLost, s.rxq, s.txOut⟩ := rfl

/-! ### `State.setLost` -/

@[simp] theorem State.setLost_rxAcc (v : Bool) : (s.setLost v).rxAcc = s.rxAcc := rfl
@[simp] theorem State.setLost_rxDiscard (v : Bool) : (s.setLost v).rxDiscard = s.rxDiscard := rfl
@[simp] theorem State.setLost_rxLost (v : Bool) : (s.setLost v).rxLost = v := rfl
@[simp] theorem State.setLost_rxq (v : Bool) : (s.setLost v).rxq = s.rxq := rfl
@[simp] theorem State.setLost_txOut (v : Bool) : (s.setLost v).txOut = s.txOut := rfl
@[simp] theorem State.setLost_crc (v : Bool) : (s.setLost v).crc = s.crc := rfl
@[simp] theorem State.setLost_crcTick (v : Bool) : (s.setLost v).crcTick = s.crcTick := rfl
@[simp] theorem State.setLost_cfg (v : Bool) : (s.setLost v).cfg = s.cfg := rfl
@[simp] theorem State.setLost_responses (v : Bool) : (s.setLost v).responses = s.responses := rfl
@[simp] theorem State.setLost_pending (v : Bool) : (s.setLost v).pending = s.pending := rfl
@[simp] theorem State.setLost_arch (v : Bool) : (s.setLost v).arch = ⟨s.rxAcc, s.rxDiscard, v, s.rxq, s.txOut⟩ := rfl

/-! ### `State.setRxq` -/

@[simp] theorem State.setRxq_rxAcc (q : List Bytes) : (s.setRxq q).rxAcc = s.rxAcc := rfl
@[simp] theorem State.setRxq_rxDiscard (q : List Bytes) : (s.setRxq q).rxDiscard = s.rxDiscard := rfl
@[simp] theorem State.setRxq_rxLost (q : List Bytes) : (s.setRxq q).rxLost = s.rxLost := rfl
@[simp] theorem State.setRxq_rxq (q : List Bytes) : (s.setRxq q).rxq = q := rfl
@[simp] theorem State.setRxq_txOut (q : List Bytes) : (s.setRxq q).txOut = s.txOut := rfl
@[simp] theorem State.setRxq_crc (q : List Bytes) : (s.setRxq q).crc = s.crc := rfl
@[simp] theorem State.setRxq_crcTick (q : List Bytes) : (s.setRxq q).crcTick = s.crcTick := rfl
@[simp] theorem State.setRxq_cfg (q : List Bytes) : (s.setRxq q).cfg = s.cfg := rfl
@[simp] theorem State.setRxq_responses (q : List Bytes) : (s.setRxq q).responses = s.responses := rfl
@[simp] theorem State.setRxq_pending (q : List Bytes) : (s.setRxq q).pending = s.pending := rfl
@[simp] theorem State.setRxq_arch (q : List Bytes) : (s.setRxq q).arch = ⟨s.rxAcc, s.rxDiscard, s.rxLost, q, s.txOut⟩ := rfl

/-! ### `State.pushFrame` -/

@[simp] theorem State.pushFrame_rxAcc (F : Bytes) : (s.pushFrame F).rxAcc = s.rxAcc := rfl
@[simp] theorem State.pushFrame_rxDiscard (F : Bytes) : (s.pushFrame F).rxDiscard = s.rxDiscard := rfl
@[simp] theorem State.pushFrame_rxLost (F : Bytes) : (s.pushFrame F).rxLost = s.rxLost := rfl
@[simp] theorem State.pushFrame_rxq (F : Bytes) : (s.pushFrame F).rxq = s.rxq ++ [F] := rfl
@[simp] theorem State.pushFrame_txOut (F : Bytes) : (s.pushFrame F).txOut = s.txOut := rfl
@[simp] theorem State.pushFrame_crc (F : Bytes) : (s.pushFrame F).crc = s.crc := rfl
@[simp] theorem State.pushFrame_crcTick (F : Bytes) : (s.pushFrame F).crcTick = s.crcTick := rfl
@[simp] theorem State.pushFrame_cfg (F : Bytes) : (s.pushFrame F).cfg = s.cfg := rfl
@[simp] theorem State.pushFrame_responses (F : Bytes) : (s.pushFrame F).responses = s.responses := rfl
@[simp] theorem State.pushFrame_pending (F : Bytes) : (s.pushFrame F).pending = s.pending := rfl
@[simp] theorem State.pushFrame_arch (F : Bytes) : (s.pushFrame F).arch = ⟨s.rxAcc, s.rxDiscard, s.rxLost, s.rxq ++ [F], s.txOut⟩ := rfl

/-! ### `State.setPending` -/

@[simp] theorem State.setPending_rxAcc (es : List Event) : (s.setPending es).rxAcc = s.rxAcc := rfl
@[simp] theorem State.setPending_rxDiscard (es : List Event) : (s.setPending es).rxDiscard = s.rxDiscard := rfl
@[simp] theorem State.setPending_rxLost (es : List Event) : (s.setPending es).rxLost = s.rxLost := rfl
@[simp] theorem State.setPending_rxq (es : List Event) : (s.setPending es).rxq = s.rxq := rfl
@[simp] theorem State.setPending_txOut (es : List Event) : (s.setPending es).txOut = s.txOut := rfl
@[simp] theorem State.setPending_crc (es : List Event) : (s.setPending es).crc = s.crc := rfl
@[simp] theorem State.setPending_crcTick (es : List Event) : (s.setPending es).crcTick = s.crcTick := rfl
@[simp] theorem State.setPending_cfg (es : List Event) : (s.setPending es).cfg = s.cfg := rfl
@[simp] theorem State.setPending_responses (es : List Event) : (s.setPending es).responses = s.responses := rfl
@[simp] theorem State.setPending_pending (es : List Event) : (s.setPending es).pending = es := rfl
@[simp] theorem State.setPending_arch (es : List Event) : (s.setPending es).arch = s.arch := rfl

/-! ### `State.resetPulse` -/

@[simp] theorem State.resetPulse_rxAcc : s.resetPulse.rxAcc = [] := rfl
@[simp] theorem State.resetPulse_rxDiscard : s.resetPulse.rxDiscard = false := rfl
@[simp] theorem State.resetPulse_rxLost : s.resetPulse.rxLost = false := rfl
@[simp] theorem State.resetPulse_rxq : s.resetPulse.rxq = [] := rfl
@[simp] theorem State.resetPulse_txOut : s.resetPulse.txOut = s.txOut := rfl
@[simp] theorem State.resetPulse_crc : s.resetPulse.crc = Config.crcBetween s.crcTick := rfl
@[simp] theorem State.resetPulse_crcTick : s.resetPulse.crcTick = s.crcTick + 1 := rfl
@[simp] theorem State.resetPulse_cfg : s.resetPulse.cfg = s.cfg := rfl
@[simp] theorem State.resetPulse_responses : s.resetPulse.responses = s.responses := rfl
@[simp] theorem State.resetPulse_pending : s.resetPulse.pending = s.pending := rfl
@[simp] theorem State.resetPulse_arch : s.resetPulse.arch = ⟨[], false, false, [], s.txOut⟩ := rfl

/-! ### `State.runCrc` -/

@[simp] theorem State.runCrc_rxAcc (v : Half) (D : Bytes) : (s.runCrc v D).rxAcc = s.rxAcc := rfl
@[simp] theorem State.runCrc_rxDiscard (v : Half) (D : Bytes) : (s.runCrc v D).rxDiscard = s.rxDiscard := rfl
@[simp] theorem State.runCrc_rxLost (v : Half) (D : Bytes) : (s.runCrc v D).rxLost = s.rxLost := rfl
@[simp] theorem State.runCrc_rxq (v : Half) (D : Bytes) : (s.runCrc v D).rxq = s.rxq := rfl
@[simp] theorem State.runCrc_txOut (v : Half) (D : Bytes) : (s.runCrc v D).txOut = s.txOut := rfl
@[simp] theorem State.runCrc_crc (v : Half) (D : Bytes) : (s.runCrc v D).crc = crcUpdate v D := rfl
@[simp] theorem State.runCrc_crcTick (v : Half) (D : Bytes) : (s.runCrc v D).crcTick = s.crcTick := rfl
@[simp] theorem State.runCrc_cfg (v : Half) (D : Bytes) : (s.runCrc v D).cfg = s.cfg := rfl
@[simp] theorem State.runCrc_responses (v : Half) (D : Bytes) : (s.runCrc v D).responses = s.responses := rfl
@[simp] theorem State.runCrc_pending (v : Half) (D : Bytes) : (s.runCrc v D).pending = s.pending := rfl
@[simp] theorem State.runCrc_arch (v : Half) (D : Bytes) : (s.runCrc v D).arch = s.arch := rfl

/-! ### The register let go after a computation, and the tuple of R22 -/

/-- Whatever a computation left in the CRC register, letting it go leaves the same state. -/
@[simp] theorem State.runCrc_releaseCrc (v : Half) (D : Bytes) : (s.runCrc v D).releaseCrc = s.releaseCrc := rfl

theorem State.arch_eq_iff (s t : State) : t.arch = s.arch ↔ t.rxAcc = s.rxAcc ∧ t.rxDiscard = s.rxDiscard ∧
    t.rxLost = s.rxLost ∧ t.rxq = s.rxq ∧ t.txOut = s.txOut := by
  simp [State.arch]

@[simp] theorem State.present_pending (e : Event) : (s.present e).pending = e :: s.pending := rfl

theorem State.present_eq (e : Event) : s.present e = { s with pending := e :: s.pending } := rfl

end Sys2Proof.Machine
end

