-- ==== Sys2Proof/Laws/PerInstr.lean ====
section
/-! SUPPORT. Statements about the instruction as syntax, made per constructor. -/

namespace Sys2Proof.Laws.OpcodeRow

/-- The opcode that `encode` puts in front of an instruction's operand is the one the decoder reads as that instruction
(30_encoding.md R75); the RX link event is encoded as its byte. -/
def Statement (i : Instr) : Prop :=
  (∃ opc, encode i = .command (commandBytes opc i.operand) ∧ decodeOpcode opc i.operand = some i) ∨
    ∃ b, encode i = .rxByte b ∧ i = .rxByte b

theorem crcCompute (op : Bytes) : Statement (.crcCompute op) := .inl ⟨0x01, rfl, rfl⟩
theorem crcUpdate (op : Bytes) : Statement (.crcUpdate op) := .inl ⟨0x02, rfl, rfl⟩
theorem crcValidate (op : Bytes) : Statement (.crcValidate op) := .inl ⟨0x03, rfl, rfl⟩
theorem crcAppend (op : Bytes) : Statement (.crcAppend op) := .inl ⟨0x04, rfl, rfl⟩
theorem phEncode (op : Bytes) : Statement (.phEncode op) := .inl ⟨0x10, rfl, rfl⟩
theorem phDecode (op : Bytes) : Statement (.phDecode op) := .inl ⟨0x11, rfl, rfl⟩
theorem tcshEncode (op : Bytes) : Statement (.tcshEncode op) := .inl ⟨0x12, rfl, rfl⟩
theorem tcshDecode (op : Bytes) : Statement (.tcshDecode op) := .inl ⟨0x13, rfl, rfl⟩
theorem tmshEncode (op : Bytes) : Statement (.tmshEncode op) := .inl ⟨0x14, rfl, rfl⟩
theorem tmshDecode (op : Bytes) : Statement (.tmshDecode op) := .inl ⟨0x15, rfl, rfl⟩
theorem cobsFrame (op : Bytes) : Statement (.cobsFrame op) := .inl ⟨0x20, rfl, rfl⟩
theorem cobsDeframe (op : Bytes) : Statement (.cobsDeframe op) := .inl ⟨0x21, rfl, rfl⟩
theorem rxPop (op : Bytes) : Statement (.rxPop op) := .inl ⟨0x22, rfl, rfl⟩
theorem rxStatus (op : Bytes) : Statement (.rxStatus op) := .inl ⟨0x23, rfl, rfl⟩
theorem tmAssemble (op : Bytes) : Statement (.tmAssemble op) := .inl ⟨0x30, rfl, rfl⟩
theorem tmSend (op : Bytes) : Statement (.tmSend op) := .inl ⟨0x31, rfl, rfl⟩
theorem tcIngest (op : Bytes) : Statement (.tcIngest op) := .inl ⟨0x32, rfl, rfl⟩
theorem rxByte (b : Byte) : Statement (.rxByte b) := .inr ⟨b, rfl, rfl⟩

end Sys2Proof.Laws.OpcodeRow
end

