-- ==== Sys2Proof/Laws/Decode.lean ====
section
/-! SUPPORT. Big-endian halves and the framing of commands on the port. -/

namespace Sys2Proof

open Machine

@[simp] theorem be16_length (v : Half) : (be16 v).length = 2 := rfl

@[simp] theorem be16Nat_length (n : Nat) : (be16Nat n).length = 2 := rfl

/-- Reading back the two bytes of `be16` gives the value. -/
@[simp] theorem u16be_be16 (v : Half) : u16be (v.extractLsb' 8 8) (v.extractLsb' 0 8) = v := by
  unfold u16be
  ext i hi
  simp only [BitVec.getElem_append, BitVec.getElem_extractLsb']
  split
  · simp [BitVec.getLsbD_eq_getElem hi]
  · rename_i h
    have : 8 + (i - 8) = i := by omega
    simp [this, BitVec.getLsbD_eq_getElem hi]

/-- `be16` of two bytes read as a half gives the bytes. -/
@[simp] theorem be16_u16be (a b : Byte) : be16 (u16be a b) = [a, b] := by
  unfold be16 u16be
  simp only [List.cons.injEq, and_true]
  constructor
  · ext i hi
    rw [BitVec.getElem_extractLsb', BitVec.getLsbD_append, ← BitVec.getLsbD_eq_getElem]
    simp
  · ext i hi
    rw [BitVec.getElem_extractLsb', BitVec.getLsbD_append, ← BitVec.getLsbD_eq_getElem]
    simp [hi]

theorem u16be_toNat (a b : Byte) : (u16be a b).toNat = a.toNat * 256 + b.toNat := by
  unfold u16be
  rw [BitVec.toNat_append, Nat.shiftLeft_eq, Nat.mul_comm, ← Nat.two_pow_add_eq_or_of_lt b.isLt]

theorem be16_injective {v w : Half} (h : be16 v = be16 w) : v = w := by
  have h1 := (List.cons.inj h).1
  have h2 := (List.cons.inj (List.cons.inj h).2).1
  rw [← u16be_be16 v, ← u16be_be16 w, h1, h2]

/-- A length of at most 65535 is read back whole from its two bytes. -/
theorem readLen {n : Nat} (h : n ≤ 65535) :
    (u16be ((BitVec.ofNat 16 n).extractLsb' 8 8) ((BitVec.ofNat 16 n).extractLsb' 0 8)).toNat = n := by
  rw [u16be_be16, BitVec.toNat_ofNat]
  omega

/-- Every port byte sequence of a command is read as its fields, and what follows is left. -/
theorem readCommand_portBytes (opc rsv : Byte) (op rest : Bytes) (h : op.length ≤ 65535) :
    readCommand (portBytes opc rsv op ++ rest) = .ok (⟨opc, rsv, op⟩, rest) := by
  simp [portBytes, be16Nat, be16, readCommand, -u16be_be16, readLen h]

theorem decodeCommand_portBytes (opc rsv : Byte) (op : Bytes) (h : op.length ≤ 65535) :
    decodeCommand (portBytes opc rsv op) = decodeFields ⟨opc, rsv, op⟩ := by
  have hr := readCommand_portBytes opc rsv op [] h
  rw [List.append_nil] at hr
  simp [decodeCommand, hr]

theorem commandBytes_eq (opc : Byte) (op : Bytes) : commandBytes opc op = portBytes opc 0x00 op := rfl

/-- What a command that is read was: its fields in their places, and the rest (30_encoding.md R73). -/
theorem readCommand_inv {port rest : Bytes} {c : RawCommand} (h : readCommand port = .ok (c, rest)) :
    port = portBytes c.opc c.rsv c.op ++ rest ∧ c.op.length ≤ 65535 := by
  unfold readCommand at h
  split at h
  · rename_i opc rsv hi lo body
    simp only at h
    split at h
    · cases h
    · rename_i hlen
      simp only [Except.ok.injEq, Prod.mk.injEq] at h
      obtain ⟨rfl, rfl⟩ := h
      have hlt : (u16be hi lo).toNat < 65536 := (u16be hi lo).isLt
      have hmin : min (u16be hi lo).toNat body.length = (u16be hi lo).toNat := by omega
      refine ⟨?_, by simp; omega⟩
      simp [portBytes, be16Nat, List.length_take, hmin]
  · cases h

/-- The assigned opcodes are those of the decoder's table. -/
theorem decodeOpcode_operand {opc : Byte} {op : Bytes} {i : Instr} (h : decodeOpcode opc op = some i) :
    i.operand = op ∧ encode i = .command (commandBytes opc op) := by
  unfold decodeOpcode at h
  split at h
  case h_18 => cases h
  all_goals
    cases h
    rename_i hopc
    refine ⟨rfl, ?_⟩
    have : opc = BitVec.ofNat 8 opc.toNat := by simp
    rw [this, hopc]
    rfl

end Sys2Proof
end

