-- ==== Sys2Proof/Laws/Assembler.lean ====
section
/-! SUPPORT. What the assembler's field-vector operations can do (30_encoding.md R86, R87). -/

namespace Sys2Proof.Machine

/-- A key that is assigned once has the value assigned to it. -/
theorem lookup_eq_some_iff {fields : List (AsmName × Nat)} (h : (fields.map Prod.fst).Nodup) (k : AsmName) (v : Nat) :
    fields.lookup k = some v ↔ (k, v) ∈ fields := by
  induction fields with
  | nil => simp
  | cons p fs ih =>
    obtain ⟨k', v'⟩ := p
    simp only [List.map_cons, List.nodup_cons] at h
    by_cases hk : k = k'
    · subst hk
      have : (k, v) ∉ fs := fun hm => h.1 (List.mem_map_of_mem (f := Prod.fst) hm)
      simp [this, eq_comm]
    · have hb : (k == k') = false := by simpa using hk
      simp only [List.lookup_cons, hb, ih h.2, List.mem_cons, Prod.mk.injEq, hk, false_and, false_or]

/-- The containers are written exactly when every key has a value that fits one. -/
theorem fvOfKeys_eq_ok_iff (fields : List (AsmName × Nat)) (keys : List AsmName) (fv : Bytes) :
    fvOfKeys fields keys = .ok fv ↔ (∀ k ∈ keys, ∃ v, fields.lookup k = some v ∧ v < 65536) ∧
      fv = keys.flatMap fun k => be16Nat ((fields.lookup k).getD 0) := by
  induction keys generalizing fv with
  | nil => simp [fvOfKeys, eq_comm]
  | cons k ks ih =>
    cases hk : fields.lookup k with
    | none => simp [fvOfKeys, hk]
    | some v =>
      by_cases hv : v < 65536
      · cases hs : fvOfKeys fields ks with
        | error e =>
          have : ¬ ∀ k ∈ ks, ∃ v, fields.lookup k = some v ∧ v < 65536 := fun h => by
            simpa [hs] using (ih _).2 ⟨h, rfl⟩
          simp [fvOfKeys, hk, hs, this, Nat.not_le.2 hv]
        | ok fv' =>
          obtain ⟨h, rfl⟩ := (ih _).1 hs
          have : ∀ k' ∈ k :: ks, ∃ v, fields.lookup k' = some v ∧ v < 65536 :=
            List.forall_mem_cons.2 ⟨⟨v, hk, hv⟩, h⟩
          rw [and_iff_right this]
          simp only [fvOfKeys, hk, hs, ge_iff_le, Nat.not_le.2 hv, if_false, List.flatMap_cons, Option.getD_some,
            Except.ok.injEq, eq_comm]
      · simp [fvOfKeys, hk, hv, Nat.le_of_not_lt hv]

/-- The operands pass the key check exactly when each has a key of the header and no key comes twice. -/
theorem badKey_eq_none_iff (keys : List AsmName) (fields : List (AsmName × Nat)) :
    badKey keys fields = none ↔ (∀ k ∈ fields.map Prod.fst, k ∈ keys) ∧ (fields.map Prod.fst).Nodup := by
  induction fields with
  | nil => simp [badKey]
  | cons p fs ih =>
    obtain ⟨k, v⟩ := p
    by_cases hk : k ∈ keys
    · by_cases hr : k ∈ fs.map Prod.fst
      · have : (fs.map Prod.fst).contains k = true := by simpa using hr
        simp only [badKey, hk, this, not_true_eq_false, if_false, if_true, List.map_cons, List.nodup_cons, hr]
        simp
      · have : (fs.map Prod.fst).contains k = false := by simpa using hr
        have hb : badKey keys ((k, v) :: fs) = badKey keys fs := by simp only [badKey, hk, this]; simp
        rw [hb, ih, List.map_cons, List.forall_mem_cons, List.nodup_cons, and_iff_right hk, and_iff_right hr]
    · simp [badKey, hk]

/-- What assembling a header's operands can do: each key of the header is assigned once, no other is, every value fits
its container, and the containers stand in FV order. -/
theorem asmFv_eq_ok_iff (keys : List AsmName) (fields : List (AsmName × Nat)) (fv : Bytes) :
    asmFv keys fields = .ok fv ↔ (∀ k ∈ fields.map Prod.fst, k ∈ keys) ∧ (fields.map Prod.fst).Nodup ∧
      (∀ k ∈ keys, ∃ v, (k, v) ∈ fields ∧ v < 65536) ∧
      fv = keys.flatMap fun k => be16Nat ((fields.lookup k).getD 0) := by
  cases hb : badKey keys fields with
  | some e =>
    have : ¬ ((∀ k ∈ fields.map Prod.fst, k ∈ keys) ∧ (fields.map Prod.fst).Nodup) := by
      rw [← badKey_eq_none_iff, hb]; simp
    simp only [asmFv, hb, reduceCtorEq, false_iff]
    exact fun h => this ⟨h.1, h.2.1⟩
  | none =>
    obtain ⟨hk, hn⟩ := (badKey_eq_none_iff _ _).1 hb
    simp only [asmFv, hb, fvOfKeys_eq_ok_iff, lookup_eq_some_iff hn, hn, true_and]
    exact ⟨fun h => ⟨hk, h⟩, fun h => h.2⟩

/-- Sorting a line of `key=value` operands only. -/
@[simp] theorem sortOperands_assigns (fields : List (AsmName × Nat)) :
    sortOperands (fields.map fun p => .assign p.1 p.2) = ⟨fields, [], []⟩ := by
  induction fields with
  | nil => rfl
  | cons p fs ih => simp [sortOperands, ih]

end Sys2Proof.Machine
end

