-- ==== Sys2Proof/Laws/Ops.lean ====
section
/-! SUPPORT. What each shared operation over the operands and the response can do, said once. -/

namespace Sys2Proof.Machine

variable {s t : State} {op fv : Bytes} {n : Nat} {ws : List Nat} {body : Result}

/-! ### The response -/

theorem State.respond_eq (s : State) (r : Response) : s.respond r = { s with responses := s.responses ++ [r] } := rfl

@[simp] theorem finish_eq (s : State) (R : Bytes) : finish s R = .next (s.respond ⟨.ok, R⟩) := rfl

@[simp] theorem raise_eq (s : State) (st : Status) : raise s st = .next (s.respond ⟨st, []⟩) := rfl

/-- A response's own bytes: one status byte, the two of RLEN, the result (30_encoding.md R74). -/
@[simp] theorem Response.bytes_length (r : Response) : r.bytes.length = 3 + r.result.length := by
  simp [Response.bytes, be16Nat]
  omega

theorem Status.code_injective {a b : Status} (h : a.code = b.code) : a = b := by
  cases a <;> cases b <;> first | rfl | exact absurd h (by decide)

/-! ### Length checks (30_encoding.md R77) -/

theorem withFixedLen_short (h : op.length < n) : withFixedLen n op s body = raise s .truncated := by
  simp [withFixedLen, h]

theorem withFixedLen_long (h : op.length > n) : withFixedLen n op s body = raise s .malformed := by
  have : ¬ op.length < n := by omega
  simp [withFixedLen, this, h]

theorem withFixedLen_exact (h : op.length = n) : withFixedLen n op s body = body := by simp [withFixedLen, h]

/-- All that a fixed-length check does. -/
theorem withFixedLen_cases (n : Nat) (op : Bytes) (s : State) (body : Result) :
    (op.length < n ∧ withFixedLen n op s body = raise s .truncated) ∨
      (op.length > n ∧ withFixedLen n op s body = raise s .malformed) ∨
        op.length = n ∧ withFixedLen n op s body = body := by
  obtain h | h | h := Nat.lt_trichotomy op.length n
  · exact .inl ⟨h, withFixedLen_short h⟩
  · exact .inr (.inr ⟨h, withFixedLen_exact h⟩)
  · exact .inr (.inl ⟨h, withFixedLen_long h⟩)

theorem withMinLen_short (h : op.length < n) : withMinLen n op s body = raise s .truncated := by
  simp [withMinLen, h]

theorem withMinLen_enough (h : n ≤ op.length) : withMinLen n op s body = body := by
  have : ¬ op.length < n := by omega
  simp [withMinLen, this]

/-- All that a minimum-length check does. -/
theorem withMinLen_cases (n : Nat) (op : Bytes) (s : State) (body : Result) :
    (op.length < n ∧ withMinLen n op s body = raise s .truncated) ∨ n ≤ op.length ∧ withMinLen n op s body = body := by
  obtain h | h := Nat.lt_or_ge op.length n
  · exact .inl ⟨h, withMinLen_short h⟩
  · exact .inr ⟨h, withMinLen_enough h⟩

/-! ### Field vectors (30_encoding.md R78, R79) -/

/-- The range check holds exactly when every container is below two to its field's width. -/
theorem fvInRange_iff (fv : Bytes) (k : Nat) (ws : List Nat) :
    fvInRange fv k ws = true ↔ ∀ j, j < ws.length → (container fv (k + j)).toNat < 2 ^ ws.getD j 0 := by
  induction ws generalizing k with
  | nil => simp [fvInRange]
  | cons w ws ih =>
    simp only [fvInRange, Bool.and_eq_true, decide_eq_true_eq, ih, List.length_cons]
    constructor
    · rintro ⟨h0, h⟩ j hj
      cases j with
      | zero => simpa using h0
      | succ j => simpa [Nat.add_assoc, Nat.add_comm 1 j] using h j (by omega)
    · intro h
      refine ⟨by simpa using h 0 (by omega), fun j hj => ?_⟩
      simpa [Nat.add_assoc, Nat.add_comm 1 j] using h (j + 1) (by omega)

theorem withRange_good (h : fvInRange fv 0 ws = true) : withRange fv ws s body = body := by simp [withRange, h]

theorem withRange_bad (h : fvInRange fv 0 ws ≠ true) : withRange fv ws s body = raise s .malformed := by
  simp [withRange, h]

/-- All that a range check does. -/
theorem withRange_cases (fv : Bytes) (ws : List Nat) (s : State) (body : Result) :
    (fvInRange fv 0 ws ≠ true ∧ withRange fv ws s body = raise s .malformed) ∨
      fvInRange fv 0 ws = true ∧ withRange fv ws s body = body := by
  by_cases h : fvInRange fv 0 ws = true
  · exact .inr ⟨h, withRange_good h⟩
  · exact .inl ⟨h, withRange_bad h⟩

/-- A container as the number R11 gives it. -/
theorem container_toNat (fv : Bytes) (j : Nat) :
    (container fv j).toNat = (fv.getD (2 * j) 0).toNat * 256 + (fv.getD (2 * j + 1) 0).toNat := by
  simp [container, u16beAt, byteAt, u16be_toNat]

/-! ### The packet of a TM operand (43_packets.md R172, R173) -/

@[simp] theorem phEncode_length (h : PrimaryHeader) : (phEncode h).length = 6 := rfl
@[simp] theorem tcshEncode_length (h : TcHeader) : (tcshEncode h).length = 5 := rfl
@[simp] theorem tmshEncode_length (h : TmHeader) : (tmshEncode h).length = 9 := rfl
@[simp] theorem phToFv_length (h : PrimaryHeader) : (phToFv h).length = 14 := rfl
@[simp] theorem tcshToFv_length (h : TcHeader) : (tcshToFv h).length = 10 := rfl
@[simp] theorem tmshToFv_length (h : TmHeader) : (tmshToFv h).length = 14 := rfl

/-- All that the checks of TM.ASSEMBLE and TM.SEND do, in their order (R173). -/
theorem withTmPacket_cases (op : Bytes) (s : State) (body : Bytes → Result) :
    (op.length < 28 ∧ withTmPacket op s body = raise s .truncated) ∨
    (28 ≤ op.length ∧ ¬ (fvInRange op 0 phWidths = true ∧ fvInRange (op.drop 14) 0 tmshWidths = true) ∧
      withTmPacket op s body = raise s .malformed) ∨
    (28 ≤ op.length ∧ fvInRange op 0 phWidths = true ∧ fvInRange (op.drop 14) 0 tmshWidths = true ∧
      17 + (op.length - 28) > s.cfg.maxPacket ∧ withTmPacket op s body = raise s .tooLong) ∨
    (28 ≤ op.length ∧ fvInRange op 0 phWidths = true ∧ fvInRange (op.drop 14) 0 tmshWidths = true ∧
      17 + (op.length - 28) ≤ s.cfg.maxPacket ∧
      withTmPacket op s body = body (tmPacket op)) := by
  unfold withTmPacket
  obtain hl | hl := Nat.lt_or_ge op.length 28
  · exact .inl ⟨hl, withMinLen_short hl⟩
  rw [withMinLen_enough hl]
  by_cases hp : fvInRange op 0 phWidths = true
  · rw [withRange_good hp]
    by_cases hm : fvInRange (op.drop 14) 0 tmshWidths = true
    · rw [withRange_good hm]
      by_cases hb : 17 + (op.length - 28) > s.cfg.maxPacket
      · refine .inr (.inr (.inl ⟨hl, hp, hm, hb, ?_⟩))
        simp [tmAssemble, hb]
      · refine .inr (.inr (.inr ⟨hl, hp, hm, by omega, ?_⟩))
        simp [tmAssemble, hb, tmPacket, tmBody]
    · rw [withRange_bad hm]
      exact .inr (.inl ⟨hl, fun h => hm h.2, rfl⟩)
  · rw [withRange_bad hp]
    exact .inr (.inl ⟨hl, fun h => hp h.1, rfl⟩)

end Sys2Proof.Machine
end

