-- ==== Sys2Proof/Laws/Crc.lean ====
section
/-! SUPPORT. The CRC kernel: its recursion, and that a step loses nothing of the register. -/

namespace Sys2Proof.Machine

/-! ### Recursion -/

@[simp] theorem crcUpdate_nil (c : Half) : crcUpdate c [] = c := rfl

@[simp] theorem crcUpdate_cons (c : Half) (b : Byte) (D : Bytes) : crcUpdate c (b :: D) = crcUpdate (crcByte c b) D := rfl

theorem crcUpdate_append (c : Half) (A B : Bytes) : crcUpdate c (A ++ B) = crcUpdate (crcUpdate c A) B := by
  simp [crcUpdate]

/-! ### One bit -/

/-- The kernel's bit step as one exclusive-or. -/
theorem crcBit_eq (c : Half) (x : Bool) :
    crcBit c x = (c <<< 1) ^^^ (if c.getLsbD 15 ^^ x then 0x1021 else 0) := by
  unfold crcBit
  split <;> simp

/-- Bit 0 after a step is the feedback. -/
theorem crcBit_bit0 (c : Half) (x : Bool) : (crcBit c x).getLsbD 0 = (c.getLsbD 15 ^^ x) := by
  rw [crcBit_eq]
  cases c.getLsbD 15 ^^ x <;> simp

/-- The step is linear over exclusive-or, in the register and the data bit together. -/
theorem crcBit_xor (c d : Half) (x y : Bool) : crcBit (c ^^^ d) (x ^^ y) = crcBit c x ^^^ crcBit d y := by
  have hif : ∀ p q : Bool, (if p ^^ q then 0x1021 else 0 : Half) = (if p then 0x1021 else 0) ^^^ if q then 0x1021 else 0 := by
    decide
  have hb : ((c ^^^ d).getLsbD 15 ^^ (x ^^ y)) = ((c.getLsbD 15 ^^ x) ^^ (d.getLsbD 15 ^^ y)) := by
    rw [BitVec.getLsbD_xor]
    cases c.getLsbD 15 <;> cases d.getLsbD 15 <;> cases x <;> cases y <;> rfl
  simp only [crcBit_eq]
  rw [hb, hif, BitVec.shiftLeft_xor_distrib]
  ac_rfl

/-- For a fixed data bit the step loses nothing of the register. -/
theorem crcBit_injective {c d : Half} {x : Bool} (h : crcBit c x = crcBit d x) : c = d := by
  have h15 : c.getLsbD 15 = d.getLsbD 15 := by
    have := congrArg (·.getLsbD 0) h
    simp only [crcBit_bit0] at this
    simpa using this
  have hs : c <<< 1 = d <<< 1 := by
    rw [crcBit_eq, crcBit_eq, h15] at h
    have := congrArg (· ^^^ (if d.getLsbD 15 ^^ x then 0x1021 else 0 : Half)) h
    simpa only [BitVec.xor_assoc, BitVec.xor_self, BitVec.xor_zero] using this
  apply BitVec.eq_of_getLsbD_eq
  intro i hi
  by_cases hi15 : i = 15
  · rw [hi15, h15]
  · have := congrArg (·.getLsbD (i + 1)) hs
    simp only [BitVec.getLsbD_shiftLeft] at this
    have h1 : i + 1 < 16 := by omega
    simpa [h1] using this

/-- A shift of the byte-wise form is the step on a data bit of 0. -/
theorem crcShift_eq (c : Half) : crcShift c = crcBit c false := by simp [crcShift, crcBit]

/-! ### One byte -/

theorem crcByte_eq (c : Half) (b : Byte) :
    crcByte c b = crcBit (crcBit (crcBit (crcBit (crcBit (crcBit (crcBit (crcBit c (b.getLsbD 7)) (b.getLsbD 6))
      (b.getLsbD 5)) (b.getLsbD 4)) (b.getLsbD 3)) (b.getLsbD 2)) (b.getLsbD 1)) (b.getLsbD 0) := rfl

/-- For a fixed byte the kernel loses nothing of the register. -/
theorem crcByte_injective {c d : Half} {b : Byte} (h : crcByte c b = crcByte d b) : c = d := by
  simp only [crcByte_eq] at h
  exact crcBit_injective (crcBit_injective (crcBit_injective (crcBit_injective (crcBit_injective (crcBit_injective
    (crcBit_injective (crcBit_injective h)))))))

/-- For fixed data the kernel loses nothing of the register. -/
theorem crcUpdate_injective {c d : Half} (D : Bytes) (h : crcUpdate c D = crcUpdate d D) : c = d := by
  induction D generalizing c d with
  | nil => exact h
  | cons b D ih => exact crcByte_injective (ih h)

/-- One data bit taken through the high byte of the register instead (the step behind 40_crc.md R102). -/
theorem crcBit_highByte (c : Half) (b : Byte) :
    crcBit (c ^^^ (b.setWidth 16 <<< 8)) false = crcBit c (b.getLsbD 7) ^^^ ((b <<< 1).setWidth 16 <<< 8) := by
  have hb : (b.setWidth 16 <<< 8 : Half).getLsbD 15 = b.getLsbD 7 := by simp
  have hs : (b.setWidth 16 <<< 8 : Half) <<< 1 = (b <<< 1).setWidth 16 <<< 8 := by
    apply BitVec.eq_of_getLsbD_eq
    intro i hi
    simp only [BitVec.getLsbD_shiftLeft, BitVec.getLsbD_setWidth]
    by_cases h9 : i < 9
    · by_cases h8 : i = 8
      · subst h8; simp
      · have h1 : i < 8 := by omega
        have h2 : i - 1 < 8 := by omega
        simp [h1, h2]
    · have e1 : ¬ i < 1 := by omega
      have e2 : ¬ i - 1 < 8 := by omega
      have e3 : ¬ i < 8 := by omega
      have e4 : ¬ i - 8 < 1 := by omega
      have e5 : i - 1 - 8 = i - 8 - 1 := by omega
      have e6 : i - 8 < 8 := by omega
      have e7 : i - 1 < 16 := by omega
      have e8 : i - 8 - 1 < 16 := by omega
      have e9 : i - 8 < 16 := by omega
      simp [hi, e1, e2, e3, e4, e5, e6, e7, e8, e9]
  rw [crcBit_eq, crcBit_eq, BitVec.getLsbD_xor, hb, BitVec.shiftLeft_xor_distrib, hs]
  simp only [Bool.xor_false]
  ac_rfl

end Sys2Proof.Machine
end

