-- ==== Sys2Proof/Laws/Exec.lean ====
section
/-! SUPPORT. All that each meaning can do, said once: one lemma per instruction, and what every instruction has in common.
A command answers `raise s st` or `finish u R`, where `u` is `s` but for what the command may write. -/

namespace Sys2Proof.Machine

variable (op : Bytes) (b : Byte) (s : State)

/-! ### The CRC engine (40_crc.md) -/

theorem execCrcCompute_next : execCrcCompute op s = finish s.releaseCrc (be16 (crc16 op)) := rfl

theorem execCrcUpdate_cases :
    (op.length < 2 ∧ execCrcUpdate op s = raise s .truncated) ∨
    (2 ≤ op.length ∧ execCrcUpdate op s = finish s.releaseCrc (be16 (crcUpdate (u16beAt op 0) (op.drop 2)))) := by
  obtain ⟨h, e⟩ | ⟨h, e⟩ := withMinLen_cases 2 op s (finish s.releaseCrc (be16 (crcUpdate (u16beAt op 0) (op.drop 2))))
  · exact .inl ⟨h, e⟩
  · exact .inr ⟨h, e⟩

theorem execCrcValidate_cases :
    (op.length < 2 ∧ execCrcValidate op s = raise s .truncated) ∨
    (2 ≤ op.length ∧ crc16 (op.take (op.length - 2)) ≠ u16beAt op (op.length - 2) ∧
      execCrcValidate op s = raise s.releaseCrc .checksumMismatch) ∨
    (2 ≤ op.length ∧ crc16 (op.take (op.length - 2)) = u16beAt op (op.length - 2) ∧
      execCrcValidate op s = finish s.releaseCrc []) := by
  unfold execCrcValidate
  obtain h | h := Nat.lt_or_ge op.length 2
  · exact .inl ⟨h, withMinLen_short h⟩
  · rw [withMinLen_enough h]
    by_cases hc : crc16 (op.take (op.length - 2)) = u16beAt op (op.length - 2)
    · exact .inr (.inr ⟨h, hc, if_neg (not_not.mpr hc)⟩)
    · exact .inr (.inl ⟨h, hc, if_pos hc⟩)

theorem execCrcAppend_cases :
    (op.length > 65533 ∧ execCrcAppend op s = raise s .tooLong) ∨
    (op.length ≤ 65533 ∧ execCrcAppend op s = finish s.releaseCrc (op ++ be16 (crc16 op))) := by
  unfold execCrcAppend
  by_cases h : op.length > 65533
  · exact .inl ⟨h, if_pos h⟩
  · exact .inr ⟨by omega, if_neg h⟩

/-! ### The header codec (41_headers.md) -/

theorem fixedLen_range_cases (n : Nat) (ws : List Nat) (R : Bytes) :
    (op.length < n ∧ (withFixedLen n op s <| withRange op ws s <| finish s R) = raise s .truncated) ∨
    (op.length > n ∧ (withFixedLen n op s <| withRange op ws s <| finish s R) = raise s .malformed) ∨
    (op.length = n ∧ fvInRange op 0 ws ≠ true ∧
      (withFixedLen n op s <| withRange op ws s <| finish s R) = raise s .malformed) ∨
    (op.length = n ∧ fvInRange op 0 ws = true ∧
      (withFixedLen n op s <| withRange op ws s <| finish s R) = finish s R) := by
  obtain ⟨h, e⟩ | ⟨h, e⟩ | ⟨h, e⟩ := withFixedLen_cases n op s (withRange op ws s <| finish s R)
  · exact .inl ⟨h, e⟩
  · exact .inr (.inl ⟨h, e⟩)
  · obtain ⟨h', e'⟩ | ⟨h', e'⟩ := withRange_cases op ws s (finish s R)
    · exact .inr (.inr (.inl ⟨h, h', e.trans e'⟩))
    · exact .inr (.inr (.inr ⟨h, h', e.trans e'⟩))

theorem execPhEncode_cases :
    (op.length < 14 ∧ execPhEncode op s = raise s .truncated) ∨ (op.length > 14 ∧ execPhEncode op s = raise s .malformed) ∨
    (op.length = 14 ∧ fvInRange op 0 phWidths ≠ true ∧ execPhEncode op s = raise s .malformed) ∨
    (op.length = 14 ∧ fvInRange op 0 phWidths = true ∧ execPhEncode op s = finish s (phEncode (phOfFv op))) :=
  fixedLen_range_cases op s 14 phWidths _

theorem execPhDecode_cases :
    (op.length < 6 ∧ execPhDecode op s = raise s .truncated) ∨ (op.length > 6 ∧ execPhDecode op s = raise s .malformed) ∨
    (op.length = 6 ∧ execPhDecode op s = finish s (phToFv (phDecode op))) :=
  withFixedLen_cases 6 op s _

theorem execTcshEncode_cases :
    (op.length < 10 ∧ execTcshEncode op s = raise s .truncated) ∨
    (op.length > 10 ∧ execTcshEncode op s = raise s .malformed) ∨
    (op.length = 10 ∧ fvInRange op 0 tcshWidths ≠ true ∧ execTcshEncode op s = raise s .malformed) ∨
    (op.length = 10 ∧ fvInRange op 0 tcshWidths = true ∧ execTcshEncode op s = finish s (tcshEncode (tcshOfFv op))) :=
  fixedLen_range_cases op s 10 tcshWidths _

theorem execTcshDecode_cases :
    (op.length < 5 ∧ execTcshDecode op s = raise s .truncated) ∨
    (op.length > 5 ∧ execTcshDecode op s = raise s .malformed) ∨
    (op.length = 5 ∧ execTcshDecode op s = finish s (tcshToFv (tcshDecode op))) :=
  withFixedLen_cases 5 op s _

theorem execTmshEncode_cases :
    (op.length < 14 ∧ execTmshEncode op s = raise s .truncated) ∨
    (op.length > 14 ∧ execTmshEncode op s = raise s .malformed) ∨
    (op.length = 14 ∧ fvInRange op 0 tmshWidths ≠ true ∧ execTmshEncode op s = raise s .malformed) ∨
    (op.length = 14 ∧ fvInRange op 0 tmshWidths = true ∧ execTmshEncode op s = finish s (tmshEncode (tmshOfFv op))) :=
  fixedLen_range_cases op s 14 tmshWidths _

theorem execTmshDecode_cases :
    (op.length < 9 ∧ execTmshDecode op s = raise s .truncated) ∨
    (op.length > 9 ∧ execTmshDecode op s = raise s .malformed) ∨
    (op.length = 9 ∧ execTmshDecode op s = finish s (tmshToFv (tmshDecode op))) :=
  withFixedLen_cases 9 op s _

/-! ### Framing and the synchronizer (42_framing.md) -/

theorem execCobsFrame_cases :
    ((cobsFrame s.cfg.cobsFullBlockTrailer op).length > 65535 ∧ execCobsFrame op s = raise s .tooLong) ∨
    ((cobsFrame s.cfg.cobsFullBlockTrailer op).length ≤ 65535 ∧
      execCobsFrame op s = finish s (cobsFrame s.cfg.cobsFullBlockTrailer op)) := by
  unfold execCobsFrame
  by_cases h : (cobsFrame s.cfg.cobsFullBlockTrailer op).length > 65535
  · exact .inl ⟨h, if_pos h⟩
  · exact .inr ⟨by omega, if_neg h⟩

theorem execCobsDeframe_cases :
    (cobsDeframe op = none ∧ execCobsDeframe op s = raise s .malformed) ∨
    ∃ D, cobsDeframe op = some D ∧ execCobsDeframe op s = finish s D := by
  unfold execCobsDeframe
  cases h : cobsDeframe op with
  | none => exact .inl ⟨rfl, rfl⟩
  | some D => exact .inr ⟨D, rfl, rfl⟩

theorem execRxPop_cases :
    (op ≠ [] ∧ execRxPop op s = raise s .malformed) ∨ (op = [] ∧ s.rxq = [] ∧ execRxPop op s = raise s .empty) ∨
    ∃ F q, op = [] ∧ s.rxq = F :: q ∧ execRxPop op s = finish (s.setRxq q) F := by
  cases op with
  | cons x xs => exact .inl ⟨List.cons_ne_nil _ _, rfl⟩
  | nil =>
    cases h : s.rxq with
    | nil => exact .inr (.inl ⟨rfl, rfl, by simp [execRxPop, h]⟩)
    | cons F q => exact .inr (.inr ⟨F, q, rfl, rfl, by simp [execRxPop, h]⟩)

theorem execRxStatus_cases :
    (op ≠ [] ∧ execRxStatus op s = raise s .malformed) ∨
    (op = [] ∧ execRxStatus op s = finish (s.setLost false) (rxStatusRegister s)) := by
  cases op with
  | cons x xs => exact .inl ⟨List.cons_ne_nil _ _, rfl⟩
  | nil => exact .inr ⟨rfl, rfl⟩

/-- All that an RX.BYTE event can do (42_framing.md R148). -/
theorem execRxByte_cases :
    (b = 0x00 ∧ s.rxDiscard = true ∧ execRxByte b s = .next (s.setDiscard false)) ∨
    (b = 0x00 ∧ s.rxDiscard = false ∧ s.rxAcc = [] ∧ execRxByte b s = .next s) ∨
    (b = 0x00 ∧ s.rxDiscard = false ∧ s.rxAcc ≠ [] ∧ s.rxq.length < s.cfg.rxqDepth ∧
      execRxByte b s = .next ((s.pushFrame (s.rxAcc ++ [0x00])).setAcc [])) ∨
    (b = 0x00 ∧ s.rxDiscard = false ∧ s.rxAcc ≠ [] ∧ s.cfg.rxqDepth ≤ s.rxq.length ∧
      execRxByte b s = .next ((s.setLost true).setAcc [])) ∨
    (b ≠ 0x00 ∧ s.rxDiscard = true ∧ execRxByte b s = .next s) ∨
    (b ≠ 0x00 ∧ s.rxDiscard = false ∧ s.rxAcc.length = s.cfg.maxFrame - 1 ∧
      execRxByte b s = .next (((s.setAcc []).setDiscard true).setLost true)) ∨
    (b ≠ 0x00 ∧ s.rxDiscard = false ∧ s.rxAcc.length ≠ s.cfg.maxFrame - 1 ∧
      execRxByte b s = .next (s.setAcc (s.rxAcc ++ [b]))) := by
  unfold execRxByte rxDelimiter rxData
  by_cases hb : b = 0x00 <;> cases hd : s.rxDiscard <;> simp only [hb, if_true, if_false]
  · by_cases ha : s.rxAcc = []
    · simp [ha]
    · by_cases hq : s.rxq.length < s.cfg.rxqDepth
      · simp [ha, hq]
      · simp [ha, hq, Nat.not_lt.mp hq]
  · simp
  · by_cases hl : s.rxAcc.length = s.cfg.maxFrame - 1 <;> simp [hl] <;> exact hb
  · simp; exact hb

/-! ### The packet pipelines (43_packets.md) -/

/-- All that TM.ASSEMBLE can do (R173). -/
theorem execTmAssemble_cases :
    (∃ st, st ≠ Status.ok ∧ execTmAssemble op s = raise s st ∧
      (st = .truncated ∨ st = .malformed ∨ st = .tooLong)) ∨
    (17 + (op.length - 28) ≤ s.cfg.maxPacket ∧ execTmAssemble op s = finish s.releaseCrc (tmPacket op)) := by
  obtain ⟨-, e⟩ | ⟨-, -, e⟩ | ⟨-, -, -, -, e⟩ | ⟨-, -, -, h, e⟩ :=
    withTmPacket_cases op s fun pkt => finish s.releaseCrc pkt
  · exact .inl ⟨_, by decide, e, .inl rfl⟩
  · exact .inl ⟨_, by decide, e, .inr (.inl rfl)⟩
  · exact .inl ⟨_, by decide, e, .inr (.inr rfl)⟩
  · exact .inr ⟨h, e⟩

/-- All that TM.SEND can do (R174). -/
theorem execTmSend_cases :
    (∃ st, st ≠ Status.ok ∧ execTmSend op s = raise s st ∧ (st = .truncated ∨ st = .malformed ∨ st = .tooLong)) ∨
    (28 ≤ op.length ∧ 17 + (op.length - 28) ≤ s.cfg.maxPacket ∧ execTmSend op s =
      finish (s.releaseCrc.emitTx (cobsFrame s.cfg.cobsFullBlockTrailer (tmPacket op))) []) := by
  obtain ⟨-, e⟩ | ⟨-, -, e⟩ | ⟨-, -, -, -, e⟩ | ⟨hl, -, -, h, e⟩ :=
    withTmPacket_cases op s fun pkt => finish (s.releaseCrc.emitTx (cobsFrame s.cfg.cobsFullBlockTrailer pkt)) []
  · exact .inl ⟨_, by decide, e, .inl rfl⟩
  · exact .inl ⟨_, by decide, e, .inr (.inl rfl)⟩
  · exact .inl ⟨_, by decide, e, .inr (.inr rfl)⟩
  · exact .inr ⟨hl, h, e⟩

/-- The statuses with which TC ingest fails (R177). -/
theorem tcIngest_error {cfg : Config} {F : Bytes} {st : Status} (h : tcIngest cfg F = .error st) :
    st = .truncated ∨ st = .malformed ∨ st = .tooLong ∨ st = .checksumMismatch := by
  unfold tcIngest at h
  split at h
  · cases h; simp
  · unfold tcIngestPacket at h
    repeat' split at h
    all_goals first
      | cases h; simp
      | (simp only at h; repeat' split at h)
    all_goals first
      | cases h; simp
      | cases h

/-- All that TC.INGEST can do (R177). -/
theorem execTcIngest_cases :
    (∃ v, tcIngest s.cfg op = .ok v ∧ execTcIngest op s = finish s.releaseCrc v.bytes) ∨
    (tcIngest s.cfg op = .error .checksumMismatch ∧ execTcIngest op s = raise s.releaseCrc .checksumMismatch) ∨
    ∃ st, tcIngest s.cfg op = .error st ∧ (st = .truncated ∨ st = .malformed ∨ st = .tooLong) ∧
      execTcIngest op s = raise s st := by
  unfold execTcIngest
  cases h : tcIngest s.cfg op with
  | ok v => exact .inl ⟨v, rfl, rfl⟩
  | error st =>
    obtain rfl | rfl | rfl | rfl := tcIngest_error h
    · exact .inr (.inr ⟨_, rfl, by simp, rfl⟩)
    · exact .inr (.inr ⟨_, rfl, by simp, rfl⟩)
    · exact .inr (.inr ⟨_, rfl, by simp, rfl⟩)
    · exact .inr (.inl ⟨rfl, rfl⟩)

/-! ### What every instruction has in common -/

/-- Every instruction answers a next state of the same instance, with the same inputs to come. -/
theorem exec_next (i : Instr) : ∃ t, exec i s = .next t ∧ t.cfg = s.cfg ∧ t.pending = s.pending := by
  cases i with
  | crcCompute op => exact ⟨_, execCrcCompute_next op s, rfl, rfl⟩
  | crcUpdate op => obtain ⟨-, e⟩ | ⟨-, e⟩ := execCrcUpdate_cases op s <;> exact ⟨_, e, rfl, rfl⟩
  | crcValidate op => obtain ⟨-, e⟩ | ⟨-, -, e⟩ | ⟨-, -, e⟩ := execCrcValidate_cases op s <;> exact ⟨_, e, rfl, rfl⟩
  | crcAppend op => obtain ⟨-, e⟩ | ⟨-, e⟩ := execCrcAppend_cases op s <;> exact ⟨_, e, rfl, rfl⟩
  | phEncode op =>
    obtain ⟨-, e⟩ | ⟨-, e⟩ | ⟨-, -, e⟩ | ⟨-, -, e⟩ := execPhEncode_cases op s <;> exact ⟨_, e, rfl, rfl⟩
  | phDecode op => obtain ⟨-, e⟩ | ⟨-, e⟩ | ⟨-, e⟩ := execPhDecode_cases op s <;> exact ⟨_, e, rfl, rfl⟩
  | tcshEncode op =>
    obtain ⟨-, e⟩ | ⟨-, e⟩ | ⟨-, -, e⟩ | ⟨-, -, e⟩ := execTcshEncode_cases op s <;> exact ⟨_, e, rfl, rfl⟩
  | tcshDecode op => obtain ⟨-, e⟩ | ⟨-, e⟩ | ⟨-, e⟩ := execTcshDecode_cases op s <;> exact ⟨_, e, rfl, rfl⟩
  | tmshEncode op =>
    obtain ⟨-, e⟩ | ⟨-, e⟩ | ⟨-, -, e⟩ | ⟨-, -, e⟩ := execTmshEncode_cases op s <;> exact ⟨_, e, rfl, rfl⟩
  | tmshDecode op => obtain ⟨-, e⟩ | ⟨-, e⟩ | ⟨-, e⟩ := execTmshDecode_cases op s <;> exact ⟨_, e, rfl, rfl⟩
  | cobsFrame op => obtain ⟨-, e⟩ | ⟨-, e⟩ := execCobsFrame_cases op s <;> exact ⟨_, e, rfl, rfl⟩
  | cobsDeframe op => obtain ⟨-, e⟩ | ⟨_, -, e⟩ := execCobsDeframe_cases op s <;> exact ⟨_, e, rfl, rfl⟩
  | rxPop op => obtain ⟨-, e⟩ | ⟨-, -, e⟩ | ⟨_, _, -, -, e⟩ := execRxPop_cases op s <;> exact ⟨_, e, rfl, rfl⟩
  | rxStatus op => obtain ⟨-, e⟩ | ⟨-, e⟩ := execRxStatus_cases op s <;> exact ⟨_, e, rfl, rfl⟩
  | tmAssemble op => obtain ⟨_, -, e, -⟩ | ⟨-, e⟩ := execTmAssemble_cases op s <;> exact ⟨_, e, rfl, rfl⟩
  | tmSend op => obtain ⟨_, -, e, -⟩ | ⟨-, -, e⟩ := execTmSend_cases op s <;> exact ⟨_, e, rfl, rfl⟩
  | tcIngest op =>
    obtain ⟨_, -, e⟩ | ⟨-, e⟩ | ⟨_, -, -, e⟩ := execTcIngest_cases op s <;> exact ⟨_, e, rfl, rfl⟩
  | rxByte b =>
    obtain ⟨-, -, e⟩ | ⟨-, -, -, e⟩ | ⟨-, -, -, -, e⟩ | ⟨-, -, -, -, e⟩ | ⟨-, -, e⟩ | ⟨-, -, -, e⟩ | ⟨-, -, -, e⟩ :=
      execRxByte_cases b s <;> exact ⟨_, e, rfl, rfl⟩

end Sys2Proof.Machine
end

