-- ==== Sys2Proof/Laws/Framing.lean ====
section
/-! SUPPORT. The framer and the de-framer block by block: what one block writes, and what one block reads. -/

namespace Sys2Proof.Machine

/-! ### The framer -/

/-- A frame without its terminator: the loop of `cobs_frame` from a pending block (42_framing.md R140). -/
def cobsBody (T : Bool) : Bytes → Bytes → Bytes
  | blk, [] => cobsBlock blk
  | blk, b :: D =>
    if b = 0x00 then cobsBlock blk ++ cobsBody T [] D
    else if blk.length + 2 = 0xFF ∧ (T = true ∨ D ≠ []) then cobsBlock (blk ++ [b]) ++ cobsBody T [] D
    else cobsBody T (blk ++ [b]) D

theorem cobsFrameFrom_eq (T : Bool) (blk D : Bytes) : cobsFrameFrom T blk D = cobsBody T blk D ++ [0x00] := by
  induction D generalizing blk with
  | nil => rfl
  | cons b D ih =>
    simp only [cobsFrameFrom, cobsBody, ih]
    split
    · simp
    · split <;> simp

/-- A frame is its body and the terminator. -/
theorem cobsFrame_eq (T : Bool) (D : Bytes) : cobsFrame T D = cobsBody T [] D ++ [0x00] := cobsFrameFrom_eq T [] D

@[simp] theorem cobsBlock_length (blk : Bytes) : (cobsBlock blk).length = blk.length + 1 := rfl

theorem cobsBlock_ne_nil (blk : Bytes) : cobsBlock blk ≠ [] := List.cons_ne_nil _ _

theorem cobsBody_ne_nil (T : Bool) (blk D : Bytes) : cobsBody T blk D ≠ [] := by
  induction D generalizing blk with
  | nil => exact cobsBlock_ne_nil blk
  | cons b D ih =>
    unfold cobsBody
    split
    · simp [cobsBlock_ne_nil]
    · split
      · simp [cobsBlock_ne_nil]
      · exact ih _

/-- The code byte of a block of at most 254 bytes, as a number. -/
theorem cobsCode_toNat {blk : Bytes} (h : blk.length ≤ 254) : (BitVec.ofNat 8 (blk.length + 1)).toNat = blk.length + 1 := by
  rw [BitVec.toNat_ofNat]
  omega

/-- A block whose data bytes are not 0x00 holds no 0x00: its code byte is 1..255. -/
theorem cobsBlock_noZero {blk : Bytes} (h : blk.length ≤ 254) (hz : 0x00 ∉ blk) : 0x00 ∉ cobsBlock blk := by
  intro hm
  obtain hc | hm := List.mem_cons.mp hm
  · have := cobsCode_toNat h
    rw [← hc] at this
    simp at this
  · exact hz hm

/-- Bytes 0x00 alone cost one code byte each, and one more for the end (42_framing.md R146). -/
theorem cobsFrame_zeros_length (T : Bool) (n : Nat) : (cobsFrame T (List.replicate n 0x00)).length = n + 2 := by
  rw [cobsFrame_eq]
  induction n with
  | zero => rfl
  | succ n ih =>
    simp only [List.replicate_succ, cobsBody, if_true, List.length_append] at ih ⊢
    simp only [cobsBlock_length, List.length_nil]
    omega

/-! ### The de-framer -/

/-- What the de-framer makes of one block of the framer: its bytes, a 0x00 if more follows and the block is not full, and
then the rest (42_framing.md R143). -/
theorem cobsDeframeBody_block (n : Nat) {blk rest : Bytes} (h : blk.length ≤ 254) :
    cobsDeframeBody (n + 1) (cobsBlock blk ++ rest) =
      (cobsDeframeBody n rest).map fun out => blk ++ (if blk.length < 254 ∧ rest ≠ [] then [0x00] else []) ++ out := by
  have hc := cobsCode_toNat h
  simp only [cobsBlock, List.cons_append, cobsDeframeBody, hc]
  have h1 : ¬ (blk ++ rest).length + 1 < blk.length + 1 := by simp
  have h2 : blk.length + 1 - 1 = blk.length := by omega
  have h3 : blk.length + 1 < 0xFF ↔ blk.length < 254 := by omega
  simp only [if_neg h1, h2, List.drop_left, List.take_left, h3]
  cases cobsDeframeBody n rest <;> rfl

/-- More rounds than the body has bytes change nothing, so the bound of the loop is no limit of the de-framer. -/
theorem cobsDeframeBody_more {n m : Nat} {body : Bytes} (hn : body.length ≤ n) (hm : body.length ≤ m) :
    cobsDeframeBody n body = cobsDeframeBody m body := by
  induction n generalizing m body with
  | zero =>
    have : body = [] := List.length_eq_zero_iff.mp (by omega)
    subst this
    cases m <;> rfl
  | succ n ih =>
    cases body with
    | nil => cases m <;> rfl
    | cons code rest =>
      obtain _ | m := m
      · simp at hm
      · have hd : (rest.drop (code.toNat - 1)).length ≤ rest.length := by simp
        simp only [List.length_cons] at hn hm
        simp only [cobsDeframeBody]
        rw [ih (m := m) (body := rest.drop (code.toNat - 1)) (by omega) (by omega)]

/-- De-framing succeeds on a body and its terminator as the loop over the body does. -/
theorem cobsDeframe_terminated {body : Bytes} (hne : body ≠ []) (hz : 0x00 ∉ body) :
    cobsDeframe (body ++ [0x00]) = cobsDeframeBody body.length body := by
  have hl : 0 < body.length := List.length_pos_iff.mpr hne
  have h1 : ¬ (body ++ [(0x00 : Byte)]).length < 2 := by simp; omega
  have h2 : (body ++ [(0x00 : Byte)]).length - 1 = body.length := by simp
  have h3 : byteAt (body ++ [(0x00 : Byte)]) body.length = 0x00 := by simp [byteAt]
  have h4 : (body ++ [(0x00 : Byte)]).take body.length = body := by simp
  have h5 : body.any (· == (0x00 : Byte)) = false := by
    rw [List.any_eq_false]
    intro x hx hx0
    rw [beq_iff_eq.mp hx0] at hx
    exact hz hx
  unfold cobsDeframe
  rw [if_neg h1]
  simp only [h2, h3, h4, h5]
  simp

end Sys2Proof.Machine
end

