-- ==== Sys2Proof/Laws/Headers.lean ====
section
/-! SUPPORT. The header codec in numbers: the bytes of an encoded header from its field values, and the field values of a
decoded header from its bytes, as 00_scope.md R11 reads them. -/

namespace Sys2Proof.Machine

/-- A concatenation as a number. -/
theorem toNat_append_eq {n m : Nat} (x : BitVec n) (y : BitVec m) : (x ++ y).toNat = x.toNat * 2 ^ m + y.toNat := by
  rw [BitVec.toNat_append, Nat.shiftLeft_eq, Nat.mul_comm, ← Nat.two_pow_add_eq_or_of_lt y.isLt]

/-- `be16` as the two bytes of a number, high byte first. -/
theorem be16_bytes (v : Half) : be16 v = [BitVec.ofNat 8 (v.toNat / 256), BitVec.ofNat 8 (v.toNat % 256)] := by
  have := v.isLt
  simp only [be16, List.cons.injEq, and_true]
  constructor <;>
  · apply BitVec.eq_of_toNat_eq
    rw [BitVec.extractLsb'_toNat, BitVec.toNat_ofNat, Nat.shiftRight_eq_div_pow]
    try omega

/-- The six bytes of a 48-bit word, from bit 47 down, are that word. -/
theorem bytes48 (w : BitVec 48) :
    (w.extractLsb' 40 8 ++ w.extractLsb' 32 8 ++ w.extractLsb' 24 8 ++ w.extractLsb' 16 8 ++ w.extractLsb' 8 8 ++
      w.extractLsb' 0 8 : BitVec 48) = w := by
  apply BitVec.eq_of_getLsbD_eq
  intro i hi
  interval_cases i <;> simp only [BitVec.getLsbD_append, BitVec.getLsbD_extractLsb'] <;> rfl

/-- The word that `ph_encode` ORs together is its fields one after the other (41_headers.md R120, 20_memory.md R47). -/
theorem phEncode_word (h : PrimaryHeader) :
    (((((((0 : BitVec 48) ||| (h.version.setWidth 48 <<< 45)) ||| (h.packetType.setWidth 48 <<< 44)) |||
      (h.secHdrFlag.setWidth 48 <<< 43)) ||| (h.apid.setWidth 48 <<< 32)) ||| (h.seqFlags.setWidth 48 <<< 30)) |||
      (h.seqCount.setWidth 48 <<< 16)) ||| h.dataLength.setWidth 48 =
    (h.version ++ h.packetType ++ h.secHdrFlag ++ h.apid ++ h.seqFlags ++ h.seqCount ++ h.dataLength : BitVec 48) := by
  apply BitVec.eq_of_getLsbD_eq
  intro i hi
  interval_cases i <;> (simp only [BitVec.getLsbD_append]; simp)

/-- `ph_encode` in its byte-level form (R120). -/
theorem phEncode_bytes (h : PrimaryHeader) : phEncode h =
    [BitVec.ofNat 8 (h.version.toNat * 32 + h.packetType.toNat * 16 + h.secHdrFlag.toNat * 8 + h.apid.toNat / 256),
      BitVec.ofNat 8 (h.apid.toNat % 256), BitVec.ofNat 8 (h.seqFlags.toNat * 64 + h.seqCount.toNat / 256),
      BitVec.ofNat 8 (h.seqCount.toNat % 256), BitVec.ofNat 8 (h.dataLength.toNat / 256),
      BitVec.ofNat 8 (h.dataLength.toNat % 256)] := by
  unfold phEncode
  simp only [phEncode_word]
  have h1 := h.version.isLt
  have h2 := h.packetType.isLt
  have h3 := h.secHdrFlag.isLt
  have h4 := h.apid.isLt
  have h5 := h.seqFlags.isLt
  have h6 := h.seqCount.isLt
  have h7 := h.dataLength.isLt
  simp only [List.cons.injEq, and_true]
  refine ⟨?_, ?_, ?_, ?_, ?_, ?_⟩ <;>
  · apply BitVec.eq_of_toNat_eq
    rw [BitVec.extractLsb'_toNat]
    simp only [toNat_append_eq, BitVec.toNat_ofNat, Nat.shiftRight_eq_div_pow]
    omega

/-- The fields of `ph_decode` as numbers (R121). -/
theorem phDecode_fields (B : Bytes) :
    (phDecode B).version.toNat = (byteAt B 0).toNat / 32 ∧
    (phDecode B).packetType.toNat = (byteAt B 0).toNat / 16 % 2 ∧
    (phDecode B).secHdrFlag.toNat = (byteAt B 0).toNat / 8 % 2 ∧
    (phDecode B).apid.toNat = (byteAt B 0).toNat % 8 * 256 + (byteAt B 1).toNat ∧
    (phDecode B).seqFlags.toNat = (byteAt B 2).toNat / 64 ∧
    (phDecode B).seqCount.toNat = (byteAt B 2).toNat % 64 * 256 + (byteAt B 3).toNat ∧
    (phDecode B).dataLength.toNat = (byteAt B 4).toNat * 256 + (byteAt B 5).toNat := by
  have h0 := (byteAt B 0).isLt
  have h1 := (byteAt B 1).isLt
  have h2 := (byteAt B 2).isLt
  have h3 := (byteAt B 3).isLt
  have h4 := (byteAt B 4).isLt
  have h5 := (byteAt B 5).isLt
  unfold phDecode
  simp only [BitVec.extractLsb'_toNat, toNat_append_eq, Nat.shiftRight_eq_div_pow]
  refine ⟨?_, ?_, ?_, ?_, ?_, ?_, ?_⟩ <;> omega

/-- Byte 0 of the two PUS headers: two nibbles, the first-listed field in the high one (R122, R124). -/
theorem nibbles_byte (x y : BitVec 4) :
    (x.setWidth 8 <<< 4 ||| y.setWidth 8 : Byte) = BitVec.ofNat 8 (x.toNat * 16 + y.toNat) := by
  have h : (x.setWidth 8 <<< 4 ||| y.setWidth 8 : Byte) = x ++ y := by
    apply BitVec.eq_of_getLsbD_eq
    intro i hi
    interval_cases i <;> (simp only [BitVec.getLsbD_append]; simp)
  rw [h]
  apply BitVec.eq_of_toNat_eq
  have := x.isLt
  have := y.isLt
  rw [toNat_append_eq, BitVec.toNat_ofNat]
  omega

/-- The two nibbles of a byte put together again. -/
theorem nibbles_join (b : Byte) :
    ((b.extractLsb' 4 4).setWidth 8 <<< 4 ||| (b.extractLsb' 0 4).setWidth 8 : Byte) = b := by
  apply BitVec.eq_of_getLsbD_eq
  intro i hi
  interval_cases i <;> simp

/-- The two nibbles of a byte as numbers (R123, R125). -/
theorem nibbles_toNat (b : Byte) :
    (b.extractLsb' 4 4).toNat = b.toNat / 16 ∧ (b.extractLsb' 0 4).toNat = b.toNat % 16 := by
  have := b.isLt
  simp only [BitVec.extractLsb'_toNat, Nat.shiftRight_eq_div_pow]
  omega

/-- A field narrower than its container is read back from the container it was widened to. -/
theorem setWidth_container {n : Nat} (hn : n < 16) (x : BitVec n) : (x.setWidth 16).setWidth n = x := by
  apply BitVec.eq_of_toNat_eq
  have := x.isLt
  have : 2 ^ n < 2 ^ 16 := Nat.pow_lt_pow_right (by decide) hn
  simp only [BitVec.toNat_setWidth]
  rw [Nat.mod_eq_of_lt (by omega), Nat.mod_eq_of_lt (by omega)]

end Sys2Proof.Machine
end

