-- ==== Sys2Proof/Laws/Step.lean ====
section
/-! SUPPORT. What one input does, said once: the command port, the RX link and reset, and a feed of link bytes. -/

namespace Sys2Proof.Machine

variable {s : State}

/-! ### One input -/

theorem runCommand_ok {port : Bytes} {i : Instr} (h : decodeCommand port = .ok i) : runCommand port s = exec i s := by
  simp only [runCommand, h]

/-- With an unassigned OPC or a non-zero RSV a command is answered ILLEGAL_COMMAND (30_encoding.md R76). -/
theorem runCommand_illegal {opc rsv : Byte} {op : Bytes} (hop : op.length ≤ 65535)
    (h : rsv ≠ 0x00 ∨ decodeOpcode opc op = none) :
    runCommand (portBytes opc rsv op) s = raise s .illegalCommand := by
  unfold runCommand
  rw [decodeCommand_portBytes opc rsv op hop, decodeFields]
  by_cases hr : rsv = 0x00
  · rw [h.resolve_left (not_not.mpr hr)]
    simp [hr]
  · simp only [if_pos hr]

/-- The port bytes of one command with any OPC and RSV are answered by the meaning of an instruction or by
ILLEGAL_COMMAND. -/
theorem runCommand_portBytes (opc rsv : Byte) {op : Bytes} (hop : op.length ≤ 65535) (s : State) :
    (∃ i, decodeCommand (portBytes opc rsv op) = .ok i ∧ runCommand (portBytes opc rsv op) s = exec i s) ∨
    ((∀ i, decodeCommand (portBytes opc rsv op) ≠ .ok i) ∧
      runCommand (portBytes opc rsv op) s = raise s .illegalCommand) := by
  cases h : decodeCommand (portBytes opc rsv op) with
  | ok i => exact .inl ⟨i, rfl, runCommand_ok h⟩
  | error e =>
    refine .inr ⟨fun i => nofun, ?_⟩
    apply runCommand_illegal hop
    rw [decodeCommand_portBytes opc rsv op hop, decodeFields] at h
    by_cases hr : rsv = 0x00
    · right
      cases ho : decodeOpcode opc op with
      | none => rfl
      | some i => simp [hr, ho] at h
    · exact .inl hr

/-- The inputs after which the block goes on, and what each does. -/
theorem runEvent_next {e : Event} {t : State} (h : runEvent e s = .next t) :
    (∃ i, decodeEvent e = .ok i ∧ exec i s = .next t) ∨
    (∃ port, e = .command port ∧ (∀ i, decodeCommand port ≠ .ok i) ∧ t = s.respond ⟨.illegalCommand, []⟩) ∨
    e = .reset ∧ t = s.resetPulse := by
  cases e with
  | command port =>
    cases hd : decodeCommand port with
    | ok i =>
      simp only [runEvent, runCommand, hd] at h
      exact .inl ⟨i, hd, h⟩
    | error r =>
      cases r with
      | reservedNotZero rsv =>
        simp only [runEvent, runCommand, hd, raise_eq, Host.Outcome.next.injEq] at h
        exact .inr (.inl ⟨port, rfl, by simp [hd], h.symm⟩)
      | unassignedOpcode opc =>
        simp only [runEvent, runCommand, hd, raise_eq, Host.Outcome.next.injEq] at h
        exact .inr (.inl ⟨port, rfl, by simp [hd], h.symm⟩)
      | missingWord => simp [runEvent, runCommand, hd] at h
      | missingOperand => simp [runEvent, runCommand, hd] at h
      | bytesAfterCommand => simp [runEvent, runCommand, hd] at h
      | notAnInstruction => simp [runEvent, runCommand, hd] at h
  | rxByte b => exact .inl ⟨.rxByte b, rfl, h⟩
  | reset =>
    simp only [runEvent, Host.Outcome.next.injEq] at h
    exact .inr (.inr ⟨rfl, h.symm⟩)
  | resetMidStep => simp [runEvent] at h

/-- A step with an input pending is that input's effect on the state without it. -/
theorem step_cons {e : Event} {es : List Event} (h : s.pending = e :: es) : step s = runEvent e (s.setPending es) := by
  simp only [step, stepOn, h]

theorem step_idle (h : s.pending = []) : step s = .next s := by simp only [step, stepOn, h]

/-! ### A feed of link bytes (30_encoding.md R88) -/

theorem runFeed_append (bs cs : Bytes) {s t : State} (h : runFeed bs s = .next t) :
    runFeed (bs ++ cs) s = runFeed cs t := by
  induction bs generalizing s with
  | nil => cases h; rfl
  | cons b bs ih =>
    simp only [List.cons_append, runFeed, exec, execRxByte] at h ⊢
    exact ih h

/-- Bytes of one frame that fit are accumulated (42_framing.md R154). -/
theorem runFeed_accumulate (bs : Bytes) {s : State} (hd : s.rxDiscard = false) (hz : 0x00 ∉ bs)
    (hl : s.rxAcc.length + bs.length ≤ s.cfg.maxFrame - 1) : runFeed bs s = .next (s.setAcc (s.rxAcc ++ bs)) := by
  induction bs generalizing s with
  | nil => simp [runFeed, State.setAcc]
  | cons b bs ih =>
    have hb : b ≠ 0x00 := fun h => hz (h ▸ List.mem_cons_self)
    simp only [List.length_cons] at hl
    have hne : ¬ s.rxAcc.length = s.cfg.maxFrame - 1 := by omega
    simp only [runFeed, exec, execRxByte, if_neg hb, rxData, hd, if_neg hne]
    have := ih (s := s.setAcc (s.rxAcc ++ [b])) hd (fun h => hz (List.mem_cons_of_mem _ h)) (by simp; omega)
    simpa [State.setAcc] using this

/-- Bytes of an over-long frame are dropped up to its 0x00 (42_framing.md R150). -/
theorem runFeed_discard (bs : Bytes) {s : State} (hd : s.rxDiscard = true) (hz : 0x00 ∉ bs) : runFeed bs s = .next s := by
  induction bs with
  | nil => rfl
  | cons b bs ih =>
    have hb : b ≠ 0x00 := fun h => hz (h ▸ List.mem_cons_self)
    simp only [runFeed, exec, execRxByte, if_neg hb, rxData, hd, if_true]
    exact ih fun h => hz (List.mem_cons_of_mem _ h)

end Sys2Proof.Machine
end

