-- ==== Sys2Proof/Tests/Slice0.lean ====
section
/-! SUPPORT. The model's own tests. Expected results are those of 95_test_vectors.md, or written out from the encodings of
30_encoding.md; and one witness for the hypotheses of every statement of Certificates/Slice0/Obligations.lean. -/

namespace Sys2Proof.Tests

open Sys2Proof.Machine Sys2Proof.Claims

set_option Elab.async false

/-! ### Well-formedness: the one check, an operand of at most 65535 bytes (30_encoding.md R72) -/

theorem test_illFormed_operand_too_long : Instr.wellFormed (.crcCompute (List.replicate 65536 0x00)) = false := by
  simp only [Instr.wellFormed, Instr.operand, List.length_replicate]
  decide

theorem test_wellFormed_longest_operand : Instr.wellFormed (.tcIngest (List.replicate 65535 0x00)) = true := by
  simp only [Instr.wellFormed, Instr.operand, List.length_replicate]
  decide

/-! ### Decoding: one written-out command for every opcode (30_encoding.md R72, R75) -/

theorem test_decode_crcCompute : decodeCommand [0x01, 0x00, 0x00, 0x03, 0x31, 0x32, 0x33] =
    .ok (.crcCompute [0x31, 0x32, 0x33]) := by decide
theorem test_decode_crcUpdate : decodeCommand [0x02, 0x00, 0x00, 0x03, 0x53, 0x49, 0x35] =
    .ok (.crcUpdate [0x53, 0x49, 0x35]) := by decide
theorem test_decode_crcValidate : decodeCommand [0x03, 0x00, 0x00, 0x02, 0xff, 0xff] =
    .ok (.crcValidate [0xff, 0xff]) := by decide
theorem test_decode_crcAppend : decodeCommand [0x04, 0x00, 0x00, 0x02, 0x12, 0x34] =
    .ok (.crcAppend [0x12, 0x34]) := by decide
theorem test_decode_phEncode : decodeCommand [0x10, 0x00, 0x00, 0x02, 0x00, 0x07] =
    .ok (.phEncode [0x00, 0x07]) := by decide
theorem test_decode_phDecode : decodeCommand [0x11, 0x00, 0x00, 0x06, 0x18, 0x00, 0xc0, 0x00, 0x00, 0x0b] =
    .ok (.phDecode [0x18, 0x00, 0xc0, 0x00, 0x00, 0x0b]) := by decide
theorem test_decode_tcshEncode : decodeCommand [0x12, 0x00, 0x00, 0x01, 0x0f] = .ok (.tcshEncode [0x0f]) := by decide
theorem test_decode_tcshDecode : decodeCommand [0x13, 0x00, 0x00, 0x05, 0x2f, 0x11, 0x01, 0x00, 0x42] =
    .ok (.tcshDecode [0x2f, 0x11, 0x01, 0x00, 0x42]) := by decide
theorem test_decode_tmshEncode : decodeCommand [0x14, 0x00, 0x00, 0x01, 0x02] = .ok (.tmshEncode [0x02]) := by decide
theorem test_decode_tmshDecode : decodeCommand [0x15, 0x00, 0x00, 0x02, 0x20, 0x11] =
    .ok (.tmshDecode [0x20, 0x11]) := by decide
theorem test_decode_cobsFrame : decodeCommand [0x20, 0x00, 0x00, 0x00] = .ok (.cobsFrame []) := by decide
theorem test_decode_cobsDeframe : decodeCommand [0x21, 0x00, 0x00, 0x02, 0x01, 0x00] =
    .ok (.cobsDeframe [0x01, 0x00]) := by decide
theorem test_decode_rxPop : decodeCommand [0x22, 0x00, 0x00, 0x00] = .ok (.rxPop []) := by decide
theorem test_decode_rxStatus : decodeCommand [0x23, 0x00, 0x00, 0x00] = .ok (.rxStatus []) := by decide
theorem test_decode_tmAssemble : decodeCommand [0x30, 0x00, 0x00, 0x01, 0x00] = .ok (.tmAssemble [0x00]) := by decide
theorem test_decode_tmSend : decodeCommand [0x31, 0x00, 0x00, 0x01, 0x00] = .ok (.tmSend [0x00]) := by decide
theorem test_decode_tcIngest : decodeCommand [0x32, 0x00, 0x00, 0x02, 0x01, 0x00] =
    .ok (.tcIngest [0x01, 0x00]) := by decide
theorem test_decode_rxByte : decodeEvent (.rxByte 0x7e) = .ok (.rxByte 0x7e) := rfl

theorem test_decode_reserved : decodeCommand [0x01, 0x01, 0x00, 0x00] = .error (.reservedNotZero 0x01) := by decide
theorem test_decode_unassigned : decodeCommand [0x16, 0x00, 0x00, 0x00] = .error (.unassignedOpcode 0x16) := by decide
theorem test_decode_no_word : decodeCommand [0x01, 0x00, 0x00] = .error .missingWord := by decide
theorem test_decode_no_operand : decodeCommand [0x01, 0x00, 0x00, 0x01] = .error .missingOperand := by decide
theorem test_decode_second_command : decodeCommand [0x22, 0x00, 0x00, 0x00, 0x22] = .error .bytesAfterCommand := by
  decide

/-- A table word is laid out high byte first, its operand bytes after it (30_encoding.md R72). -/
theorem test_tableWord_command : decodeTableWord 32 0x01000000 = some (.crcCompute []) := by decide
theorem test_tableWord_operand : decodeTableWord 32 0x11000006 = some (.phDecode (List.replicate 6 0x00)) := by decide
theorem test_tableWord_event : decodeTableWord 8 0x7e = some (.rxByte 0x7e) := by decide

/-- The word that `withFetchWord` places is the one the next step runs. -/
theorem test_withFetchWord : step (State.reset.withFetchWord 32 0x22000000) = exec (.rxPop []) State.reset := rfl
theorem test_withFetchWord_event : step (State.reset.withFetchWord 8 0x05) = exec (.rxByte 0x05) State.reset := rfl

/-! ### One command from a small state, byte for byte -/

/-- The response bytes of the command that the next step takes. -/
def answer (s : State) (port : Bytes) : Option Bytes :=
  match step (s.present (.command port)) with
  | .next t => t.responses.getLast?.map Response.bytes
  | _ => none

/-- The instance of D5 and E1 with MAX_PACKET = 17 and RXQ_DEPTH = 1, after power-on. -/
def smallCfg : Config := { maxPacket := 17, rxqDepth := 1, cobsFullBlockTrailer := false, ackBitOrder := .lsb0 }
def small : State := State.powerOn smallCfg

/-- 95_test_vectors.md S1. -/
theorem test_crcCompute_check_value : answer State.reset
    [0x01, 0x00, 0x00, 0x09, 0x31, 0x32, 0x33, 0x34, 0x35, 0x36, 0x37, 0x38, 0x39] =
      some [0x00, 0x00, 0x02, 0x29, 0xb1] := by decide +kernel

/-- 95_test_vectors.md B1. -/
theorem test_crcCompute_empty : answer State.reset
    [0x01, 0x00, 0x00, 0x00] =
      some [0x00, 0x00, 0x02, 0xff, 0xff] := by decide +kernel

/-- 95_test_vectors.md B4. -/
theorem test_crcUpdate_continues : answer State.reset
    [0x02, 0x00, 0x00, 0x07, 0x53, 0x49, 0x35, 0x36, 0x37, 0x38, 0x39] =
      some [0x00, 0x00, 0x02, 0x29, 0xb1] := by decide +kernel

/-- 95_test_vectors.md B4. -/
theorem test_crcUpdate_short : answer State.reset
    [0x02, 0x00, 0x00, 0x01, 0x53] =
      some [0x02, 0x00, 0x00] := by decide +kernel

/-- 95_test_vectors.md B5. -/
theorem test_crcValidate_good : answer State.reset
    [0x03, 0x00, 0x00, 0x0b, 0x31, 0x32, 0x33, 0x34, 0x35, 0x36, 0x37, 0x38, 0x39, 0x29, 0xb1] =
      some [0x00, 0x00, 0x00] := by decide +kernel

/-- 95_test_vectors.md B5. -/
theorem test_crcValidate_bad : answer State.reset
    [0x03, 0x00, 0x00, 0x0b, 0x31, 0x32, 0x33, 0x34, 0x35, 0x36, 0x37, 0x38, 0x39, 0x29, 0xb0] =
      some [0x01, 0x00, 0x00] := by decide +kernel

/-- 95_test_vectors.md B6. -/
theorem test_crcAppend : answer State.reset
    [0x04, 0x00, 0x00, 0x02, 0x12, 0x34] =
      some [0x00, 0x00, 0x04, 0x12, 0x34, 0x0e, 0xc9] := by decide +kernel

/-- 95_test_vectors.md C1. -/
theorem test_phEncode_fields : answer State.reset
    [0x10, 0x00, 0x00, 0x0e, 0x00, 0x05, 0x00, 0x00, 0x00, 0x01, 0x05, 0x55, 0x00, 0x01, 0x2a, 0xaa, 0x55, 0x55] =
      some [0x00, 0x00, 0x06, 0xad, 0x55, 0x6a, 0xaa, 0x55, 0x55] := by decide +kernel

/-- 95_test_vectors.md C1. -/
theorem test_phEncode_wide_apid : answer State.reset
    [0x10, 0x00, 0x00, 0x0e, 0x00, 0x00, 0x00, 0x01, 0x00, 0x01, 0x08, 0x00, 0x00, 0x03, 0x00, 0x00, 0x00, 0x00] =
      some [0x03, 0x00, 0x00] := by decide +kernel

/-- 95_test_vectors.md C2. -/
theorem test_phDecode_fields : answer State.reset
    [0x11, 0x00, 0x00, 0x06, 0x18, 0x00, 0xc0, 0x00, 0x00, 0x0b] =
      some [0x00, 0x00, 0x0e, 0x00, 0x00, 0x00, 0x01, 0x00, 0x01, 0x00, 0x00, 0x00, 0x03, 0x00, 0x00, 0x00,
        0x0b] := by decide +kernel

/-- 95_test_vectors.md C2. -/
theorem test_phDecode_long : answer State.reset
    [0x11, 0x00, 0x00, 0x07, 0xff, 0xff, 0xff, 0xff, 0xff, 0xff, 0xff] =
      some [0x03, 0x00, 0x00] := by decide +kernel

/-- 95_test_vectors.md S2. -/
theorem test_tcshEncode_fields : answer State.reset
    [0x12, 0x00, 0x00, 0x0a, 0x00, 0x02, 0x00, 0x0f, 0x00, 0x11, 0x00, 0x01, 0x00, 0x42] =
      some [0x00, 0x00, 0x05, 0x2f, 0x11, 0x01, 0x00, 0x42] := by decide +kernel

/-- 95_test_vectors.md S2. -/
theorem test_tcshDecode_fields : answer State.reset
    [0x13, 0x00, 0x00, 0x05, 0x2f, 0x11, 0x01, 0x00, 0x42] =
      some [0x00, 0x00, 0x0a, 0x00, 0x02, 0x00, 0x0f, 0x00, 0x11, 0x00, 0x01, 0x00, 0x42] := by decide +kernel

/-- 95_test_vectors.md S2. -/
theorem test_tmshEncode_fields : answer State.reset
    [0x14, 0x00, 0x00, 0x0e, 0x00, 0x02, 0x00, 0x00, 0x00, 0x11, 0x00, 0x02, 0x00, 0x01, 0x00, 0x42, 0x12, 0x34] =
      some [0x00, 0x00, 0x09, 0x20, 0x11, 0x02, 0x00, 0x01, 0x00, 0x42, 0x12, 0x34] := by decide +kernel

/-- 95_test_vectors.md C4. -/
theorem test_tmshEncode_wide_status : answer State.reset
    [0x14, 0x00, 0x00, 0x0e, 0x00, 0x02, 0x00, 0x10, 0x00, 0x01, 0x00, 0x01, 0x00, 0x05, 0x00, 0x42, 0xab, 0xcd] =
      some [0x03, 0x00, 0x00] := by decide +kernel

/-- 95_test_vectors.md S2. -/
theorem test_tmshDecode_fields : answer State.reset
    [0x15, 0x00, 0x00, 0x09, 0x20, 0x11, 0x02, 0x00, 0x01, 0x00, 0x42, 0x12, 0x34] =
      some [0x00, 0x00, 0x0e, 0x00, 0x02, 0x00, 0x00, 0x00, 0x11, 0x00, 0x02, 0x00, 0x01, 0x00, 0x42, 0x12,
        0x34] := by decide +kernel

/-- 95_test_vectors.md C4. -/
theorem test_tmshDecode_long : answer State.reset
    [0x15, 0x00, 0x00, 0x0a, 0x20, 0x11, 0x02, 0x00, 0x01, 0x00, 0x42, 0x12, 0x34, 0x00] =
      some [0x03, 0x00, 0x00] := by decide +kernel

/-- 95_test_vectors.md D1. -/
theorem test_cobsFrame_inner_zero : answer State.reset
    [0x20, 0x00, 0x00, 0x04, 0x11, 0x22, 0x00, 0x33] =
      some [0x00, 0x00, 0x06, 0x03, 0x11, 0x22, 0x02, 0x33, 0x00] := by decide +kernel

/-- 95_test_vectors.md D1. -/
theorem test_cobsFrame_zeros : answer State.reset
    [0x20, 0x00, 0x00, 0x02, 0x00, 0x00] =
      some [0x00, 0x00, 0x04, 0x01, 0x01, 0x01, 0x00] := by decide +kernel

/-- 95_test_vectors.md D4. -/
theorem test_cobsDeframe_inner_zero : answer State.reset
    [0x21, 0x00, 0x00, 0x06, 0x03, 0x11, 0x22, 0x02, 0x33, 0x00] =
      some [0x00, 0x00, 0x04, 0x11, 0x22, 0x00, 0x33] := by decide +kernel

/-- 95_test_vectors.md D4. -/
theorem test_cobsDeframe_overrun : answer State.reset
    [0x21, 0x00, 0x00, 0x03, 0x03, 0x11, 0x00] =
      some [0x03, 0x00, 0x00] := by decide +kernel

/-- 95_test_vectors.md D6. -/
theorem test_rxPop_empty : answer State.reset
    [0x22, 0x00, 0x00, 0x00] =
      some [0x06, 0x00, 0x00] := by decide +kernel

/-- 95_test_vectors.md D6. -/
theorem test_rxPop_frame : answer (State.reset.setRxq [[0x05, 0x11, 0x23, 0xc0, 0x44, 0x05, 0x02, 0x99, 0x66, 0x1b,
        0x00]])
    [0x22, 0x00, 0x00, 0x00] =
      some [0x00, 0x00, 0x0b, 0x05, 0x11, 0x23, 0xc0, 0x44, 0x05, 0x02, 0x99, 0x66, 0x1b, 0x00] := by decide +kernel

/-- 95_test_vectors.md D6. -/
theorem test_rxStatus_flags : answer ((State.reset.setDiscard true).setLost true)
    [0x23, 0x00, 0x00, 0x00] =
      some [0x00, 0x00, 0x04, 0x00, 0x03, 0x00, 0x00] := by decide +kernel

/-- 95_test_vectors.md P2. -/
theorem test_rxStatus_accumulated : answer (State.reset.setAcc [0x05, 0x19, 0x23, 0xc0, 0x43])
    [0x23, 0x00, 0x00, 0x00] =
      some [0x00, 0x00, 0x04, 0x00, 0x00, 0x00, 0x05] := by decide +kernel

/-- 95_test_vectors.md E1. -/
theorem test_tmAssemble_packet : answer State.reset
    [0x30, 0x00, 0x00, 0x20, 0x00, 0x00, 0x00, 0x00, 0x00, 0x01, 0x01, 0x23, 0x00, 0x03, 0x00, 0x07, 0x00, 0x0e,
        0x00, 0x02, 0x00, 0x00, 0x00, 0x11, 0x00, 0x02, 0x00, 0x01, 0x00, 0x42, 0x12, 0x34, 0xaa, 0xaa, 0x12, 0x34] =
      some [0x00, 0x00, 0x15, 0x09, 0x23, 0xc0, 0x07, 0x00, 0x0e, 0x20, 0x11, 0x02, 0x00, 0x01, 0x00, 0x42, 0x12,
        0x34, 0xaa, 0xaa, 0x12, 0x34, 0x18, 0xca] := by decide +kernel

/-- 95_test_vectors.md E1. -/
theorem test_tmAssemble_too_long : answer small
    [0x30, 0x00, 0x00, 0x1d, 0x00, 0x00, 0x00, 0x00, 0x00, 0x01, 0x01, 0x23, 0x00, 0x03, 0x00, 0x07, 0x00, 0x0e,
        0x00, 0x02, 0x00, 0x00, 0x00, 0x11, 0x00, 0x02, 0x00, 0x01, 0x00, 0x42, 0x12, 0x34, 0x01] =
      some [0x04, 0x00, 0x00] := by decide +kernel

/-- 95_test_vectors.md E2. -/
theorem test_tmSend_short : answer State.reset
    [0x31, 0x00, 0x00, 0x1b, 0x00, 0x00, 0x00, 0x00, 0x00, 0x01, 0x01, 0x23, 0x00, 0x03, 0x00, 0x07, 0x00, 0x0e,
        0x00, 0x02, 0x00, 0x00, 0x00, 0x11, 0x00, 0x02, 0x00, 0x01, 0x00, 0x42, 0x12] =
      some [0x02, 0x00, 0x00] := by decide +kernel

/-- 95_test_vectors.md E3. -/
theorem test_tcIngest_telecommand : answer State.reset
    [0x32, 0x00, 0x00, 0x11, 0x05, 0x19, 0x23, 0xc0, 0x42, 0x05, 0x08, 0x2f, 0x11, 0x01, 0x02, 0x42, 0x04, 0x01,
        0x16, 0x0d, 0x00] =
      some [0x00, 0x00, 0x1b, 0x00, 0x00, 0x00, 0x01, 0x00, 0x01, 0x01, 0x23, 0x00, 0x03, 0x00, 0x42, 0x00, 0x08,
        0x01, 0x00, 0x02, 0x00, 0x0f, 0x00, 0x11, 0x00, 0x01, 0x00, 0x42, 0x00, 0x01] := by decide +kernel

/-- 95_test_vectors.md S4. -/
theorem test_tcIngest_bad_trailer : answer State.reset
    [0x32, 0x00, 0x00, 0x11, 0x05, 0x19, 0x23, 0xc0, 0x42, 0x05, 0x08, 0x2f, 0x11, 0x01, 0x02, 0x42, 0x04, 0x01,
        0x16, 0xf2, 0x00] =
      some [0x01, 0x00, 0x00] := by decide +kernel

/-- 95_test_vectors.md A. -/
theorem test_illegal_opcode : answer State.reset
    [0x05, 0x00, 0x00, 0x02, 0x01, 0x02] =
      some [0x05, 0x00, 0x00] := by decide +kernel

/-- 95_test_vectors.md A. -/
theorem test_illegal_reserved : answer State.reset
    [0x01, 0x01, 0x00, 0x01, 0x31] =
      some [0x05, 0x00, 0x00] := by decide +kernel

/-! ### The RX link, TM.SEND and reset: one step each -/

/-- The state after the next step has taken an input. -/
def after (s : State) (e : Event) : Option Arch :=
  match step (s.present e) with
  | .next t => some t.arch
  | _ => none

/-- 95_test_vectors.md D5: an empty frame is ignored. -/
theorem test_rxByte_empty_frame : after State.reset (.rxByte 0x00) = some ⟨[], false, false, [],
        []⟩ := by decide +kernel

/-- 95_test_vectors.md D5: the byte after 18 bytes of a frame makes it over-long on the small instance. -/
theorem test_rxByte_overlong :
    after (small.setAcc (List.replicate 18 0x11)) (.rxByte 0x22) = some ⟨[], true, true, [], []⟩ := by decide +kernel

/-- 95_test_vectors.md E2: the frame of OP2 on the TX port. -/
theorem test_tmSend_frame : (after State.reset (.command [0x31, 0x00, 0x00, 0x1c,
    0x00, 0x00, 0x00, 0x00, 0x00, 0x01, 0x01, 0x23, 0x00, 0x03, 0x00, 0x08, 0x00, 0x0a,
    0x00, 0x02, 0x00, 0x00, 0x00, 0x11, 0x00, 0x02, 0x00, 0x02, 0x00, 0x42, 0x00, 0x00])).map Arch.txOut =
    some [0x05, 0x09, 0x23, 0xc0, 0x08, 0x05, 0x0a, 0x20, 0x11, 0x02, 0x02, 0x02, 0x02, 0x42, 0x01, 0x03, 0x3d, 0x39,
      0x00] := by decide +kernel

/-- 95_test_vectors.md P6: a reset pulse while a frame is partly received. -/
theorem test_reset : after (small.setAcc [0x05, 0x11]) .reset = some ⟨[], false, false, [], []⟩ := by decide +kernel

/-- 30_encoding.md R86, R87: the line of R128's example. -/
theorem test_assemble_phEncode : assembleLine "PH.ENCODE dl=8 ver=0 type=1 sec=1 apid=0x123 sf=3 seq=0x42 ; any order" =
    .ok (some (.instr (.phEncode [0x00, 0x00, 0x00, 0x01, 0x00, 0x01, 0x01, 0x23, 0x00, 0x03, 0x00, 0x42, 0x00,
        0x08]))) :=
  by decide +kernel

/-! ### Witnesses: the hypotheses of every statement that has some, met together, at boundary values -/

/-- `n` bytes of 0x00. -/
def zeros (n : Nat) : Bytes := List.replicate n 0x00

theorem zeros_length (n : Nat) : (zeros n).length = n := List.length_replicate

/-- The frame of 95_test_vectors.md D5, and the shortest frame a queue can hold. -/
def frameA : Bytes := [0x05, 0x11, 0x23, 0xc0, 0x44, 0x05, 0x02, 0x99, 0x66, 0x1b, 0x00]
def frameB : Bytes := [0x11, 0x00]

/-- A PH FV with every container at its largest value, and one with `version` one too large. -/
def phMax : Bytes := [0x00, 0x07, 0x00, 0x01, 0x00, 0x01, 0x07, 0xff, 0x00, 0x03, 0x3f, 0xff, 0xff, 0xff]
def phWide : Bytes := [0x00, 0x08, 0x00, 0x01, 0x00, 0x01, 0x07, 0xff, 0x00, 0x03, 0x3f, 0xff, 0xff, 0xff]
def tcMax : Bytes := [0x00, 0x0f, 0x00, 0x0f, 0x00, 0xff, 0x00, 0xff, 0xff, 0xff]
def tcWide : Bytes := [0x00, 0x0f, 0x00, 0x0f, 0x00, 0xff, 0x01, 0x00, 0xff, 0xff]
def tmMax : Bytes := [0x00, 0x0f, 0x00, 0x0f, 0x00, 0xff, 0x00, 0xff, 0xff, 0xff, 0xff, 0xff, 0xff, 0xff]
def tmWide : Bytes := [0x00, 0x0f, 0x00, 0x10, 0x00, 0xff, 0x00, 0xff, 0xff, 0xff, 0xff, 0xff, 0xff, 0xff]

/-- TC1 of 95_test_vectors.md E3, 13 bytes. -/
def tc1 : Bytes := [0x19, 0x23, 0xc0, 0x43, 0x00, 0x06, 0x2f, 0x11, 0x01, 0x00, 0x42, 0x7f, 0xf0]

/-- `EncodedAs`, a clause of the statements about single commands: the longest operand, and a set bit in RSV. -/
theorem witness_EncodedAs : (zeros 65535).length ≤ 65535 ∧ (0x80 : Byte) ≠ 0x00 :=
  ⟨by rw [zeros_length], by decide⟩

theorem witness_StepRunsTheDecodedInstruction :
    ((small.setPending [.command [0x22, 0x00, 0x00, 0x00]]).pending = .command [0x22, 0x00, 0x00, 0x00] :: [] ∧
      decodeCommand [0x22, 0x00, 0x00, 0x00] = .ok (.rxPop [])) ∧
    (small.setPending [.rxByte 0x05]).pending = .rxByte 0x05 :: [] := by decide

theorem witness_DecodeOfEncodeIsTheInstruction : Instr.wellFormed (.tcIngest (zeros 65535)) = true :=
  test_wellFormed_longest_operand

theorem witness_EncodeOfDecodeIsTheCommand : decodeCommand [0x32, 0x00, 0x00, 0x01, 0x00] = .ok (.tcIngest [0x00]) := by
  decide

theorem witness_StreamDecoderFindsTheNextCommand : (zeros 65535).length ≤ 65535 := by rw [zeros_length]

theorem witness_IllegalCommandHasNoOtherEffect :
    ((small.setPending [.command (portBytes 0x01 0x01 [0x31])]).pending = .command (portBytes 0x01 0x01 [0x31]) :: [] ∧
      (0x01 : Byte) ≠ 0x00) ∧
    ((small.setPending [.command (portBytes 0x33 0x00 [])]).pending = .command (portBytes 0x33 0x00 []) :: [] ∧
      (0x33 : Byte) ∉ assigned) ∧ (0x32 : Byte) ∈ assigned := by decide

theorem witness_OutOfTurnInputIsRefused :
    (small.setPending [.command (portBytes 0x22 0x00 [] ++ [0x22])]).pending =
      .command (portBytes 0x22 0x00 [] ++ [0x22]) :: [] ∧
    (small.setPending [.command ((portBytes 0x01 0x00 [0x31]).take 4)]).pending =
      .command ((portBytes 0x01 0x00 [0x31]).take 4) :: [] ∧ 4 < 4 + [(0x31 : Byte)].length ∧
    (small.setPending [.resetMidStep]).pending = .resetMidStep :: [] := by decide

theorem witness_RuleKeepingInputsNeverStopTheBlock :
    ∀ e ∈ (small.setPending [.command (portBytes 0x05 0xff [0x01]), .rxByte 0x00, .reset]).pending, KeepsTheRules e := by
  intro e he
  simp only [State.setPending_pending, List.mem_cons, List.not_mem_nil, or_false] at he
  obtain rfl | rfl | rfl := he
  · exact ⟨0x05, 0xff, [0x01], by decide, rfl⟩
  · trivial
  · trivial

theorem witness_EveryCommandIsAnsweredOnce : Instr.tcIngest ∈ commands := by simp [commands]

/-- A failed RX.POP and the RX.STATUS that could follow. -/
theorem witness_FailedCommandChangesNothing :
    ∃ t u R, (small.setPending [popCommand]).pending = popCommand :: [] ∧ step (small.setPending [popCommand]) = .next t ∧
      t.responses = small.responses ++ [⟨.empty, []⟩] ∧ Status.empty ≠ .ok ∧
      runCommand [0x23, 0x00, 0x00, 0x00] small = .next u ∧ u.responses = small.responses ++ [⟨.ok, R⟩] :=
  ⟨_, _, _, rfl, rfl, rfl, by decide, rfl, rfl⟩

/-- The same for a command with a set bit in RSV. -/
theorem witness_FailedCommandChangesNothing_illegal :
    ∃ t, step (small.setPending [.command [0x01, 0x01, 0x00, 0x00]]) = .next t ∧
      t.responses = small.responses ++ [⟨.illegalCommand, []⟩] ∧ Status.illegalCommand ≠ .ok :=
  ⟨_, rfl, rfl, by decide⟩

theorem witness_StatusesAreThoseOfTheTable : Instr.rxPop ∈ commands ∧
    (∃ t, exec (.rxPop []) small = .next t ∧ t.responses = small.responses ++ [⟨.empty, []⟩]) ∧
    Status.empty ∈ canReturn (.rxPop []) ∧ (0x01 : Byte) ∈ assigned ∧ (0x32 : Byte) ∈ assigned :=
  ⟨by simp [commands], ⟨_, rfl, rfl⟩, by decide, by decide, by decide⟩

theorem witness_StatelessCommandsAreFunctionsOfTheOperand :
    Stateless (.crcCompute []) ∧ ((small.setAcc [0x05]).setLost true).cfg = small.cfg := ⟨trivial, rfl⟩

theorem witness_CrcRegisterContentIsNeverRead : ∃ t, exec (.crcUpdate [0xff, 0xff]) small = .next t := ⟨_, rfl⟩

theorem witness_CrcUpdateContinuesTheCrc : ([0x53] : Bytes).length < 2 := by decide

theorem witness_CrcValidateComparesTheTrailer :
    ([0x53] : Bytes).length < 2 ∧ crc16 [] ≠ 0xfffe ∧ crc16 [] = 0xffff ∧
      crc16 [0x31, 0x32, 0x33, 0x34, 0x35, 0x36, 0x37, 0x38, 0x39] = 0x29b1 := by decide +kernel

theorem witness_CrcAppendAddsTheTrailer : (zeros 65534).length > 65533 ∧ (zeros 65533).length ≤ 65533 := by
  rw [zeros_length, zeros_length]
  decide

theorem witness_AppendedCrcLeavesZeroResidue : (zeros 65533).length ≤ 65533 := by rw [zeros_length]

theorem witness_SingleBitErrorIsDetected : 3 < ([0x12, 0x34] : Bytes).length + 2 ∧ 7 < 8 := by decide

theorem witness_HeaderEncodeInvertsDecode : (zeros 6).length = 6 ∧ (zeros 5).length = 5 ∧ (zeros 9).length = 9 ∧
    phEncode (phOfFv phMax) = phEncode (phOfFv phMax) ∧ tcshEncode (tcshOfFv tcMax) = tcshEncode (tcshOfFv tcMax) ∧
      tmshEncode (tmshOfFv tmMax) = tmshEncode (tmshOfFv tmMax) := by decide

theorem witness_PhEncodePacksSixBytes : (zeros 13).length < 14 ∧ (zeros 15).length > 14 ∧
    (phWide.length = 14 ∧ ¬ InRange phWide 0 phBits) ∧ phMax.length = 14 ∧ InRange phMax 0 phBits := by
  unfold InRange
  decide

theorem witness_PhDecodeUnpacksSixBytes : (zeros 5).length < 6 ∧ (zeros 7).length > 6 ∧ (zeros 6).length = 6 := by decide

theorem witness_TcshEncodePacksFiveBytes : (zeros 9).length < 10 ∧ (zeros 11).length > 10 ∧
    (tcWide.length = 10 ∧ ¬ InRange tcWide 0 tcBits) ∧ tcMax.length = 10 ∧ InRange tcMax 0 tcBits := by
  unfold InRange
  decide

theorem witness_TcshDecodeUnpacksFiveBytes : (zeros 4).length < 5 ∧ (zeros 6).length > 5 ∧ (zeros 5).length = 5 := by
  decide

theorem witness_TmshEncodePacksNineBytes : (zeros 13).length < 14 ∧ (zeros 15).length > 14 ∧
    (tmWide.length = 14 ∧ ¬ InRange tmWide 0 tmBits) ∧ tmMax.length = 14 ∧ InRange tmMax 0 tmBits := by
  unfold InRange
  decide

theorem witness_TmshDecodeUnpacksNineBytes : (zeros 8).length < 9 ∧ (zeros 10).length > 9 ∧ (zeros 9).length = 9 := by
  decide

theorem witness_FrameHasOneZeroAndBoundedLength : 1 ≤ ([0x00] : Bytes).length := by decide

theorem witness_DeframeFailsInExactlyFourCases : cobsDeframe [0x02, 0x00] = none ∧
    (List.replicate 254 0x01 : Bytes).length = 254 ∧ (0x00 : Byte) ∉ (List.replicate 254 0x01 : Bytes) :=
  ⟨by decide, List.length_replicate, fun h => absurd (List.eq_of_mem_replicate h) (by decide)⟩

theorem witness_CobsFrameCommandAnswersTheFrame :
    (cobsFrame small.cfg.cobsFullBlockTrailer (zeros 65534)).length > 65535 ∧
    (cobsFrame small.cfg.cobsFullBlockTrailer (zeros 65533)).length ≤ 65535 ∧
    (zeros 65277).length < 65278 ∧ zeros 65533 = List.replicate 65533 0x00 := by
  rw [zeros_length]
  unfold zeros
  rw [cobsFrame_zeros_length, cobsFrame_zeros_length]
  exact ⟨by decide, by decide, by decide, rfl⟩

theorem witness_CobsDeframeCommandAnswersTheBytes :
    cobsDeframe [0x02, 0x00] = none ∧ cobsDeframe [0x01, 0x00] = some [] := by decide

/-- The seven cases of one RX.BYTE event, on the small instance: MAX_FRAME = 19, RXQ_DEPTH = 1. -/
theorem witness_RxByteAccumulatesAndQueues :
    (small.setDiscard true).rxDiscard = true ∧
    (small.rxDiscard = false ∧ small.rxAcc = []) ∧
    ((small.setAcc [0x11]).rxDiscard = false ∧ (small.setAcc [0x11]).rxAcc ≠ [] ∧
      (small.setAcc [0x11]).rxq.length < (small.setAcc [0x11]).cfg.rxqDepth) ∧
    (((small.setAcc [0x11]).setRxq [frameB]).rxAcc ≠ [] ∧
      ((small.setAcc [0x11]).setRxq [frameB]).cfg.rxqDepth ≤ ((small.setAcc [0x11]).setRxq [frameB]).rxq.length) ∧
    (0x22 : Byte) ≠ 0x00 ∧
    (small.setAcc (List.replicate 18 0x11)).rxAcc.length = small.cfg.maxPacket + small.cfg.maxPacket / 254 + 2 - 1 ∧
    (small.setAcc (List.replicate 17 0x11)).rxAcc.length ≠ small.cfg.maxPacket + small.cfg.maxPacket / 254 + 2 - 1 := by
  decide

theorem witness_OverlongFrameIsDroppedToItsDelimiter :
    (small.setAcc (List.replicate 18 0x11)).rxDiscard = false ∧
    (small.setAcc (List.replicate 18 0x11)).rxAcc.length = small.cfg.maxFrame - 1 ∧ (0x22 : Byte) ≠ 0x00 ∧
    (0x00 : Byte) ∉ [0x33, 0x44] := by decide

theorem witness_FrameBecomesAvailableAtItsDelimiter :
    (small.rxDiscard = false ∧ small.rxAcc = [] ∧ (List.replicate 18 0x11 : Bytes) ≠ [] ∧
      (0x00 : Byte) ∉ (List.replicate 18 0x11 : Bytes) ∧
      (List.replicate 18 0x11 : Bytes).length ≤ small.cfg.maxFrame - 1) ∧
    small.rxq.length < small.cfg.rxqDepth ∧
    (small.setRxq [frameB]).cfg.rxqDepth ≤ (small.setRxq [frameB]).rxq.length := by decide

theorem witness_SynchronizerIsBackInStepAfterADelimiter :
    (small.setDiscard true).rxDiscard = true → (small.setDiscard true).rxAcc = [] := by decide

theorem witness_RxPopTakesTheOldestFrame :
    ([0x00] : Bytes) ≠ [] ∧ small.rxq = [] ∧ (small.setRxq [frameA]).rxq = frameA :: [] := by decide

theorem witness_RxStatusReadsAndClears : ([0x00] : Bytes) ≠ [] := by decide

/-- An RX.BYTE event that raises `rx_ready`, and an RX.POP that lowers it. -/
theorem witness_RxReadyFollowsTheQueue :
    (∃ t, step ((small.setAcc [0x11]).setPending [.rxByte 0x00]) = .next t ∧
      ((small.setAcc [0x11]).setPending [.rxByte 0x00]).rxReady = false ∧ t.rxReady = true) ∧
    ∃ t, step ((small.setRxq [frameB]).setPending [popCommand]) = .next t ∧
      ((small.setRxq [frameB]).setPending [popCommand]).rxReady = true ∧ t.rxReady = false :=
  ⟨⟨_, rfl, rfl, rfl⟩, _, rfl, rfl, rfl⟩

/-- A frame dropped at a full queue, and an RX.STATUS that clears `rx_lost`. -/
theorem witness_OnlyStatusAndResetClearTheLostFlag :
    (∃ t, step (((small.setAcc [0x11]).setRxq [frameB]).setPending [.rxByte 0x00]) = .next t ∧ t.rxLost = true) ∧
    ∃ t, step ((small.setLost true).setPending [statusCommand]) = .next t ∧ t.rxLost = false :=
  ⟨⟨_, rfl, rfl⟩, _, rfl, rfl⟩

theorem witness_QueueIsFirstInFirstOut :
    ((State.reset.setRxq [frameA, frameB]).setPending [popCommand, popCommand]).rxq = [frameA, frameB] ++ [] ∧
    ((State.reset.setRxq [frameA, frameB]).setPending [popCommand, popCommand]).pending =
      List.replicate [frameA, frameB].length popCommand := by decide

theorem witness_EmittedFrameIsReceivedWhole :
    1 ≤ (zeros 1).length ∧ (zeros 17).length ≤ small.cfg.maxPacket ∧ small.rxAcc = [] ∧ small.rxDiscard = false ∧
      small.rxq = [] ∧ 1 ≤ small.cfg.rxqDepth := by decide

/-- The four outcomes of the checks of TM.ASSEMBLE and TM.SEND: 27 bytes, a wide container in each header, one payload
byte too many for MAX_PACKET = 17, and the largest packet. -/
theorem witness_TmAssembleBuildsThePacket :
    (zeros 27).length < 28 ∧ ¬ (InRange (phWide ++ tmMax) 0 phBits ∧ InRange (phWide ++ tmMax) 14 tmBits) ∧
    ¬ (InRange (phMax ++ tmWide) 0 phBits ∧ InRange (phMax ++ tmWide) 14 tmBits) ∧
    (28 ≤ (phMax ++ tmMax ++ [0x01]).length ∧ InRange (phMax ++ tmMax ++ [0x01]) 0 phBits ∧
      InRange (phMax ++ tmMax ++ [0x01]) 14 tmBits ∧
      17 + ((phMax ++ tmMax ++ [0x01]).length - 28) > small.cfg.maxPacket) ∧
    28 ≤ (phMax ++ tmMax).length ∧ InRange (phMax ++ tmMax) 0 phBits ∧ InRange (phMax ++ tmMax) 14 tmBits ∧
      17 + ((phMax ++ tmMax).length - 28) ≤ small.cfg.maxPacket := by
  unfold InRange
  decide

theorem witness_TmSendEmitsOneFrame :
    (zeros 27).length < 28 ∧ ¬ (InRange (phWide ++ tmMax) 0 phBits ∧ InRange (phWide ++ tmMax) 14 tmBits) ∧
    (InRange (phMax ++ tmMax ++ [0x01]) 0 phBits ∧ InRange (phMax ++ tmMax ++ [0x01]) 14 tmBits ∧
      17 + ((phMax ++ tmMax ++ [0x01]).length - 28) > small.cfg.maxPacket) ∧
    28 ≤ (phMax ++ tmMax).length ∧ InRange (phMax ++ tmMax) 0 phBits ∧ InRange (phMax ++ tmMax) 14 tmBits ∧
      17 + ((phMax ++ tmMax).length - 28) ≤ small.cfg.maxPacket := witness_TmAssembleBuildsThePacket.imp id fun h =>
  ⟨h.1, ⟨h.2.2.1.2.1, h.2.2.1.2.2.1, h.2.2.1.2.2.2⟩, h.2.2.2⟩

/-- `D` is what a frame de-frames to, with its declared total length and its secondary header flag. -/
def Deframes (D : Bytes) (L sec : Nat) : Prop :=
  cobsDeframe (cobsFrame false D) = some D ∧ L = num16 D 4 + 7 ∧ sec = num D 0 / 8 % 2

/-- One packet for each clause, at the lengths where the clauses meet, on the small instance (MAX_PACKET = 17). -/
theorem witness_TcIngestFirstFailingCheckDecides :
    cobsDeframe [] = none ∧
    (Deframes [0x19, 0x23, 0xc0, 0x42, 0x00] 7 1 ∧ 5 < 6) ∧
    (Deframes (zeros 6) 7 0 ∧ (zeros 6).length < 7) ∧
    (Deframes (zeros 8) 7 0 ∧ (zeros 8).length > 7) ∧
    (Deframes ([0, 0, 0, 0, 0, 11] ++ zeros 12) 18 0 ∧ ([0, 0, 0, 0, 0, 11] ++ zeros 12).length = 18 ∧
      18 > small.cfg.maxPacket) ∧
    (Deframes (zeros 7) 7 0 ∧ (zeros 7).length = 7 ∧ 7 < 8) ∧
    (Deframes ([8, 0, 0, 0, 0, 5] ++ zeros 6) 12 1 ∧ ([8, 0, 0, 0, 0, 5] ++ zeros 6).length = 12 ∧ 12 < 13) ∧
    (Deframes [0, 0, 0, 0, 0, 1, 0, 0] 8 0 ∧ (crc16 [0, 0, 0, 0, 0, 1]).toNat ≠ num16 [0, 0, 0, 0, 0, 1, 0, 0] 6) ∧
    (Deframes tc1 13 1 ∧ tc1.length = 13 ∧ 13 ≤ small.cfg.maxPacket ∧ (crc16 (tc1.take 11)).toNat = num16 tc1 11) ∧
    Deframes (withTrailer [0, 0, 0, 0, 0, 1]) 8 0 ∧
      (crc16 ((withTrailer [0, 0, 0, 0, 0, 1]).take 6)).toNat = num16 (withTrailer [0, 0, 0, 0, 0, 1]) 6 := by
  unfold Deframes
  decide +kernel

/-- The largest telecommands of the small instance: 4 payload bytes with a secondary header, 9 without. -/
theorem witness_WellFormedTelecommandIsIngested :
    ((⟨0, 1, 1, 0x123, 3, 0, 10⟩ : PrimaryHeader).secHdrFlag = 1 ∧
      (⟨0, 1, 1, 0x123, 3, 0, 10⟩ : PrimaryHeader).dataLength.toNat = (zeros 4).length + 6 ∧
      (zeros 4).length + 13 ≤ small.cfg.maxPacket) ∧
    (⟨0, 1, 0, 0x123, 3, 0, 10⟩ : PrimaryHeader).secHdrFlag = 0 ∧
      (⟨0, 1, 0, 0x123, 3, 0, 10⟩ : PrimaryHeader).dataLength.toNat = (zeros 9).length + 1 ∧
      (zeros 9).length + 8 ≤ small.cfg.maxPacket := by decide

/-- TC1 is ingested; its last bit and its first bit can be inverted. -/
theorem witness_SingleBitErrorIsNeverIngested :
    (∃ t R, exec (.tcIngest (cobsFrame false tc1)) small = .next t ∧ t.responses = small.responses ++ [⟨.ok, R⟩]) ∧
    12 < tc1.length ∧ tc1.length - 2 ≤ 12 ∧ 0 < tc1.length ∧ 7 < 8 := by
  have h : tcIngest small.cfg (cobsFrame false tc1) =
      .ok ⟨phDecode (tc1.take 6), some (tcshDecode ((tc1.drop 6).take 5)), []⟩ := by decide +kernel
  refine ⟨⟨small.releaseCrc.respond ⟨.ok, ValidatedTc.bytes ⟨phDecode (tc1.take 6), some (tcshDecode ((tc1.drop 6).take 5)),
    []⟩⟩, _, ?_, rfl⟩, by decide⟩
  simp only [exec, execTcIngest, h]
  rfl

theorem witness_ResetPulseEmptiesTheSynchronizer :
    (((small.setAcc [0x05]).setLost true).setPending [.reset, statusCommand]).pending =
      .reset :: [statusCommand] ∧ [statusCommand] = statusCommand :: [] ∧
    (((small.setAcc [0x05]).setLost true).setPending [.reset]).pending = .reset :: [] := by decide

theorem witness_PowerOnStateIsInvariant : smallCfg.Legal ∧ Config.Legal ⟨65277, 255, true, .msb0⟩ := by decide

/-- A full accumulator, a frame in the queue, the byte that completes a frame to come. -/
def busy : State :=
  (((State.powerOn ⟨17, 2, false, .lsb0⟩).setAcc (List.replicate 18 0x11)).setRxq [frameB]).setPending [.rxByte 0x00]

theorem witness_StepKeepsTheInvariant : busy.Inv ∧ ∃ t, step busy = .next t :=
  ⟨{ legal := by decide
     accNoZero := by decide
     accBound := by decide
     discardEmpty := by decide
     queueBound := by decide
     queueEntries := by decide
     txFrames := ⟨[], rfl, nofun⟩
     responsesShaped := by decide }, _, rfl⟩

/-- RX.POP from that state, whose queued frame fits RLEN. -/
theorem witness_EveryCommandIsAnsweredOnce_fits : Instr.rxPop ∈ commands ∧ busy.Inv ∧ ([] : Bytes).length ≤ 65535 :=
  ⟨by simp [commands], witness_StepKeepsTheInvariant.1, by decide⟩

theorem witness_ParametersAreFixedAlongARun : ∃ t, step busy = .next t ∧ Reaches busy t :=
  ⟨_, rfl, .step .refl rfl⟩

theorem witness_TxHistoryGrowsByWholeFrames :
    (small.setPending [.command (portBytes 0x31 0x00 (zeros 28))]).pending =
      .command (portBytes 0x31 0x00 (zeros 28)) :: [] ∧
    ∃ t, step (small.setPending [.command (portBytes 0x31 0x00 (zeros 28))]) = .next t ∧
      Reaches (small.setPending [.command (portBytes 0x31 0x00 (zeros 28))]) t :=
  ⟨rfl, _, rfl, .step .refl rfl⟩

theorem witness_AckBitOrderNeverMatters : ∃ t, exec (.tcshDecode (zeros 5)) small = .next t := ⟨_, rfl⟩

/-- A link byte before and after a command. -/
theorem witness_InterleavingDoesNotMatterToStatelessCommands :
    SameStreams [.rxByte 0x05, .command (portBytes 0x01 0x00 [])] [.command (portBytes 0x01 0x00 []), .rxByte 0x05] ∧
    ∀ e ∈ [Event.rxByte 0x05, .command (portBytes 0x01 0x00 [])] ++ [.command (portBytes 0x01 0x00 []), .rxByte 0x05],
      (∃ b, e = .rxByte b) ∨ ∃ opc rsv op, e = .command (portBytes opc rsv op) ∧ op.length ≤ 65535 ∧
        ∀ i, decodeCommand (portBytes opc rsv op) = .ok i → Stateless i := by
  have hc : ∀ i, decodeCommand (portBytes 0x01 0x00 []) = .ok i → Stateless i := by
    intro i hi
    rw [show decodeCommand (portBytes 0x01 0x00 []) = .ok (.crcCompute []) by decide] at hi
    cases hi
    trivial
  refine ⟨⟨rfl, rfl⟩, fun e he => ?_⟩
  simp only [List.cons_append, List.nil_append, List.mem_cons, List.not_mem_nil, or_false] at he
  obtain rfl | rfl | rfl | rfl := he
  · exact .inl ⟨_, rfl⟩
  · exact .inr ⟨_, _, _, rfl, by decide, hc⟩
  · exact .inr ⟨_, _, _, rfl, by decide, hc⟩
  · exact .inl ⟨_, rfl⟩

theorem witness_RxReceiveIngestsTheOldestFrame : small.rxq = [] ∧ (small.setRxq [frameA]).rxq = frameA :: [] := by decide

theorem witness_AssemblerOrderDoesNotMatter :
    ([(['p', 'v'], 2), (['s', 't'], 17)] : List (AsmName × Nat)).Perm [(['s', 't'], 17), (['p', 'v'], 2)] ∧
    asmFv [['p', 'v'], ['s', 't']] [(['p', 'v'], 2), (['s', 't'], 17)] = .ok [0x00, 0x02, 0x00, 0x11] ∧
    ([['p', 'v'], ['s', 't']] : List AsmName)[1]? = some ['s', 't'] ∧
    ['s', 't'] ∈ [['p', 'v'], ['s', 't']] ∧ ['s', 't'] ∉ [((['p', 'v'] : AsmName), 2)].map Prod.fst :=
  ⟨List.Perm.swap _ _ _, by decide, by decide, by decide, by decide⟩

/-- The TCSH.ENCODE line of a ping with its operands in reverse order, one value the largest a container holds. -/
theorem witness_AssemblerOrderDoesNotMatter_line :
    ("TCSH.ENCODE", Instr.tcshEncode, ["pv", "ack", "st", "sst", "src"]) ∈ encodeLines ∧
    [2, 0, 17, 1, 65535].length = ["pv", "ack", "st", "sst", "src"].length ∧ (∀ v ∈ [2, 0, 17, 1, 65535], v < 65536) ∧
    ((["pv", "ack", "st", "sst", "src"].map String.toList).zip [2, 0, 17, 1, 65535]).reverse.Perm
      ((["pv", "ack", "st", "sst", "src"].map String.toList).zip [2, 0, 17, 1, 65535]) :=
  ⟨by simp [encodeLines], by decide, by decide, List.reverse_perm _⟩

end Sys2Proof.Tests
end

section
/-! The lengths a result can have (30_encoding.md R74): what each command returns fits RLEN. -/

namespace Sys2Proof

/-- Where the parameters are legal, `MAX_FRAME` fits the 16-bit RLEN (00_scope.md R6). -/
theorem Config.maxFrame_le {c : Config} (h : c.Legal) : c.maxFrame ≤ 65535 := by
  obtain ⟨-, hmax, -, -⟩ := h
  unfold Config.maxFrame
  omega

namespace Machine

/-- A block gives at most the bytes it holds and one 0x00, and its code byte pays for the 0x00 (42_framing.md R143). -/
theorem cobsDeframeBody_length {n : Nat} {body D : Bytes} (h : cobsDeframeBody n body = some D) :
    D.length ≤ body.length := by
  induction n generalizing body D with
  | zero => cases body <;> simp_all [cobsDeframeBody]
  | succ n ih =>
    cases body with
    | nil => simp_all [cobsDeframeBody]
    | cons code rest =>
      simp only [cobsDeframeBody] at h
      split at h
      · cases h
      · split at h
        · cases h
        · next out hout =>
          have htail := ih hout
          cases h
          simp only [List.length_append, List.length_take, List.length_drop, List.length_cons] at htail ⊢
          split <;> simp <;> omega

/-- The de-framed bytes are fewer than the frame's (R147). -/
theorem cobsDeframe_length {F D : Bytes} (h : cobsDeframe F = some D) : D.length ≤ F.length - 1 := by
  unfold cobsDeframe at h
  split at h
  · cases h
  · split at h
    · cases h
    · simp only at h
      split at h
      · cases h
      · simpa using cobsDeframeBody_length h

theorem tmPacket_length (op : Bytes) : (tmPacket op).length = 17 + (op.length - 28) := by
  simp [tmPacket, tmBody]
  omega

/-- The payload of an accepted packet is what MAX_PACKET leaves beside the primary header and the trailer
(43_packets.md R175). -/
theorem tcIngest_payload_length {cfg : Config} {F : Bytes} {v : ValidatedTc} (h : tcIngest cfg F = .ok v) :
    v.payload.length + 8 ≤ cfg.maxPacket := by
  unfold tcIngest at h
  split at h
  · cases h
  · simp only [tcIngestPacket] at h
    split_ifs at h <;> cases h <;> simp <;> omega

@[simp] theorem ValidatedTc.bytes_length (v : ValidatedTc) : v.bytes.length = 25 + v.payload.length := by
  cases hv : v.tc <;> simp [ValidatedTc.bytes, hv] <;> omega

@[simp] theorem rxStatusRegister_length (s : State) : (rxStatusRegister s).length = 4 := rfl

end Machine
end Sys2Proof
end

section
/-! What an instruction, an input and a step can change: one inversion for the commands, one for the inputs. -/

namespace Sys2Proof.Machine

/-- What the command `i` can do from `s` (10_state.md R23, R26, R27, R32, R33): the state `u` it leaves, but for the
response, and the response `r` it gives. Only RX.POP, RX.STATUS and TM.SEND write more than the CRC register. -/
inductive CommandEffect (s : State) : Instr → State → Response → Prop where
  /-- Nothing but the CRC register is written. -/
  | answer {i : Instr} {r : Response} (v : Half) (n : Nat) (hi : i ≠ .rxStatus [])
      (hfail : r.status ≠ .ok → r.result = [])
      (hfit : s.cfg.Legal → i.operand.length ≤ 65535 → r.result.length ≤ 65535) :
      CommandEffect s i { s with crc := v, crcTick := n } r
  /-- RX.POP takes the oldest frame. -/
  | pop {F : Bytes} {q : List Bytes} (hq : s.rxq = F :: q) : CommandEffect s (.rxPop []) (s.setRxq q) ⟨.ok, F⟩
  /-- RX.STATUS clears `rx_lost`. -/
  | status : CommandEffect s (.rxStatus []) (s.setLost false) ⟨.ok, rxStatusRegister s⟩
  /-- TM.SEND emits the frame of its packet. -/
  | send {op : Bytes} (hmax : 17 + (op.length - 28) ≤ s.cfg.maxPacket) :
      CommandEffect s (.tmSend op)
        (s.releaseCrc.emitTx (cobsFrame s.cfg.cobsFullBlockTrailer (tmPacket op))) ⟨.ok, []⟩

/-- The instruction answers a next state that is one of its effects with the response appended. -/
def HasEffect (i : Instr) (s : State) : Prop := ∃ u r, CommandEffect s i u r ∧ exec i s = .next (u.respond r)

section
variable {i : Instr} {s : State} {st : Status} {op R : Bytes}

theorem hasEffect_of_raise (hi : i ≠ .rxStatus []) (h : exec i s = raise s st) : HasEffect i s :=
  ⟨_, _, .answer s.crc s.crcTick hi (fun _ => rfl) (fun _ _ => Nat.zero_le _), h⟩

theorem hasEffect_of_raise_releaseCrc (hi : i ≠ .rxStatus []) (h : exec i s = raise s.releaseCrc st) : HasEffect i s :=
  ⟨_, _, .answer _ _ hi (fun _ => rfl) (fun _ _ => Nat.zero_le _), h⟩

theorem hasEffect_of_finish (hi : i ≠ .rxStatus []) (h : exec i s = finish s R)
    (hR : s.cfg.Legal → i.operand.length ≤ 65535 → R.length ≤ 65535) : HasEffect i s :=
  ⟨_, _, .answer s.crc s.crcTick hi (fun hst => absurd rfl hst) hR, h⟩

theorem hasEffect_of_finish_releaseCrc (hi : i ≠ .rxStatus []) (h : exec i s = finish s.releaseCrc R)
    (hR : s.cfg.Legal → i.operand.length ≤ 65535 → R.length ≤ 65535) : HasEffect i s :=
  ⟨_, _, .answer _ _ hi (fun hst => absurd rfl hst) hR, h⟩

/-- The header decoders: a fixed length, then a result. -/
theorem hasEffect_of_fixedLen {n : Nat} (hi : i ≠ .rxStatus []) (h : exec i s = withFixedLen n op s (finish s R))
    (hR : R.length ≤ 65535) : HasEffect i s := by
  obtain ⟨-, e⟩ | ⟨-, e⟩ | ⟨-, e⟩ := withFixedLen_cases n op s (finish s R)
  · exact hasEffect_of_raise hi (h.trans e)
  · exact hasEffect_of_raise hi (h.trans e)
  · exact hasEffect_of_finish hi (h.trans e) fun _ _ => hR

/-- The header encoders: a fixed length, a field vector in range, then a result. -/
theorem hasEffect_of_fixedLen_range {n : Nat} {ws : List Nat} (hi : i ≠ .rxStatus [])
    (h : exec i s = withFixedLen n op s (withRange op ws s (finish s R))) (hR : R.length ≤ 65535) : HasEffect i s := by
  obtain ⟨-, e⟩ | ⟨-, e⟩ | ⟨-, -, e⟩ | ⟨-, -, e⟩ := fixedLen_range_cases op s n ws R
  · exact hasEffect_of_raise hi (h.trans e)
  · exact hasEffect_of_raise hi (h.trans e)
  · exact hasEffect_of_raise hi (h.trans e)
  · exact hasEffect_of_finish hi (h.trans e) fun _ _ => hR

end

/-- Every command of the port has one of the effects of `CommandEffect`. -/
theorem exec_hasEffect {i : Instr} (s : State) (hi : ∀ b, i ≠ .rxByte b) : HasEffect i s := by
  cases i with
  | crcCompute op => exact hasEffect_of_finish_releaseCrc nofun (execCrcCompute_next op s) (by simp)
  | crcUpdate op =>
    obtain ⟨-, e⟩ | ⟨-, e⟩ := execCrcUpdate_cases op s
    · exact hasEffect_of_raise nofun e
    · exact hasEffect_of_finish_releaseCrc nofun e (by simp)
  | crcValidate op =>
    obtain ⟨-, e⟩ | ⟨-, -, e⟩ | ⟨-, -, e⟩ := execCrcValidate_cases op s
    · exact hasEffect_of_raise nofun e
    · exact hasEffect_of_raise_releaseCrc nofun e
    · exact hasEffect_of_finish_releaseCrc nofun e (by simp)
  | crcAppend op =>
    obtain ⟨-, e⟩ | ⟨hlen, e⟩ := execCrcAppend_cases op s
    · exact hasEffect_of_raise nofun e
    · exact hasEffect_of_finish_releaseCrc nofun e fun _ _ => by simp; omega
  | phEncode op => exact hasEffect_of_fixedLen_range nofun rfl (by simp)
  | phDecode op => exact hasEffect_of_fixedLen nofun rfl (by simp)
  | tcshEncode op => exact hasEffect_of_fixedLen_range nofun rfl (by simp)
  | tcshDecode op => exact hasEffect_of_fixedLen nofun rfl (by simp)
  | tmshEncode op => exact hasEffect_of_fixedLen_range nofun rfl (by simp)
  | tmshDecode op => exact hasEffect_of_fixedLen nofun rfl (by simp)
  | cobsFrame op =>
    obtain ⟨-, e⟩ | ⟨hlen, e⟩ := execCobsFrame_cases op s
    · exact hasEffect_of_raise nofun e
    · exact hasEffect_of_finish nofun e fun _ _ => hlen
  | cobsDeframe op =>
    obtain ⟨-, e⟩ | ⟨D, hD, e⟩ := execCobsDeframe_cases op s
    · exact hasEffect_of_raise nofun e
    · refine hasEffect_of_finish nofun e fun _ hop => ?_
      exact (cobsDeframe_length hD).trans ((Nat.sub_le _ _).trans hop)
  | rxPop op =>
    obtain ⟨-, e⟩ | ⟨-, -, e⟩ | ⟨F, q, rfl, hq, e⟩ := execRxPop_cases op s
    · exact hasEffect_of_raise nofun e
    · exact hasEffect_of_raise nofun e
    · exact ⟨_, _, .pop hq, e⟩
  | rxStatus op =>
    obtain ⟨hne, e⟩ | ⟨rfl, e⟩ := execRxStatus_cases op s
    · exact hasEffect_of_raise (fun h => hne (Instr.rxStatus.inj h)) e
    · exact ⟨_, _, .status, e⟩
  | tmAssemble op =>
    obtain ⟨_, -, e, -⟩ | ⟨hmax, e⟩ := execTmAssemble_cases op s
    · exact hasEffect_of_raise nofun e
    · refine hasEffect_of_finish_releaseCrc nofun e fun ⟨_, hlegal, _⟩ _ => ?_
      rw [tmPacket_length]
      omega
  | tmSend op =>
    obtain ⟨_, -, e, -⟩ | ⟨-, hmax, e⟩ := execTmSend_cases op s
    · exact hasEffect_of_raise nofun e
    · exact ⟨_, _, .send hmax, e⟩
  | tcIngest op =>
    obtain ⟨v, hv, e⟩ | ⟨-, e⟩ | ⟨_, -, -, e⟩ := execTcIngest_cases op s
    · refine hasEffect_of_finish_releaseCrc nofun e fun ⟨_, hlegal, _⟩ _ => ?_
      have hpayload := tcIngest_payload_length hv
      rw [ValidatedTc.bytes_length]
      omega
    · exact hasEffect_of_raise_releaseCrc nofun e
    · exact hasEffect_of_raise nofun e
  | rxByte b => exact absurd rfl (hi b)

/-- What the decoder reads as an instruction is that instruction's encoding, with an operand that fits LEN
(30_encoding.md R72, R75). -/
theorem decodeCommand_ok {port : Bytes} {i : Instr} (h : decodeCommand port = .ok i) :
    encode i = .command port ∧ i.operand.length ≤ 65535 := by
  cases hr : readCommand port with
  | error e => simp [decodeCommand, hr] at h
  | ok res =>
    obtain ⟨⟨opc, rsv, op⟩, rest⟩ := res
    obtain ⟨hport, hop⟩ := readCommand_inv hr
    simp only [decodeCommand, hr, decodeFields] at h
    split_ifs at h with hrest hrsv
    cases ho : decodeOpcode opc op with
    | none => simp [ho] at h
    | some j =>
      obtain ⟨hoperand, hencode⟩ := decodeOpcode_operand ho
      simp only [ho, Except.ok.injEq] at h
      subst h
      simp_all [commandBytes_eq]

/-- No command of the port is an RX.BYTE event (R75). -/
theorem decodeCommand_ne_rxByte {port : Bytes} {i : Instr} (h : decodeCommand port = .ok i) (b : Byte) :
    i ≠ .rxByte b := by
  rintro rfl
  cases (decodeCommand_ok h).1

/-- What one input can do from `s`, where the block goes on (20_memory.md R54, R58). -/
inductive EventEffect (s : State) : Event → State → Prop where
  | command {port : Bytes} {i : Instr} {u : State} {r : Response} (hd : decodeCommand port = .ok i)
      (he : CommandEffect s i u r) : EventEffect s (.command port) (u.respond r)
  | illegal {port : Bytes} (hd : ∀ i, decodeCommand port ≠ .ok i) :
      EventEffect s (.command port) (s.respond ⟨.illegalCommand, []⟩)
  | link {b : Byte} {t : State} (ht : execRxByte b s = .next t) : EventEffect s (.rxByte b) t
  | reset : EventEffect s .reset s.resetPulse

theorem runEvent_effect {e : Event} {s t : State} (h : runEvent e s = .next t) : EventEffect s e t := by
  obtain ⟨i, hd, hexec⟩ | ⟨port, rfl, hd, rfl⟩ | ⟨rfl, rfl⟩ := runEvent_next h
  · cases e with
    | command port =>
      obtain ⟨u, r, he, hnext⟩ := exec_hasEffect s (decodeCommand_ne_rxByte hd)
      cases hexec.symm.trans hnext
      exact .command hd he
    | rxByte b =>
      cases hd
      exact .link hexec
    | reset => cases hd
    | resetMidStep => cases hd
  · exact .illegal hd
  · exact .reset

/-- A step with an input pending has one of that input's effects on the state without it. -/
theorem step_effect {s t : State} {e : Event} {es : List Event} (hp : s.pending = e :: es) (h : step s = .next t) :
    EventEffect (s.setPending es) e t :=
  runEvent_effect ((step_cons hp).symm.trans h)

/-! ### The RX link -/

/-- A link byte is answered by no response and emits nothing (R34, R148). -/
theorem execRxByte_responses_txOut {s t : State} {b : Byte} (h : execRxByte b s = .next t) :
    t.responses = s.responses ∧ t.txOut = s.txOut := by
  obtain ⟨-, -, e⟩ | ⟨-, -, -, e⟩ | ⟨-, -, -, -, e⟩ | ⟨-, -, -, -, e⟩ | ⟨-, -, e⟩ | ⟨-, -, -, e⟩ | ⟨-, -, -, e⟩ :=
    execRxByte_cases b s <;> cases h.symm.trans e <;> exact ⟨rfl, rfl⟩

/-- A link byte leaves the queue or puts a frame at its end. -/
theorem execRxByte_rxq {s t : State} {b : Byte} (h : execRxByte b s = .next t) :
    t.rxq = s.rxq ∨ ∃ F, t.rxq = s.rxq ++ [F] := by
  obtain ⟨-, -, e⟩ | ⟨-, -, -, e⟩ | ⟨-, -, -, -, e⟩ | ⟨-, -, -, -, e⟩ | ⟨-, -, e⟩ | ⟨-, -, -, e⟩ | ⟨-, -, -, e⟩ :=
    execRxByte_cases b s <;> cases h.symm.trans e
  case inr.inr.inl => exact .inr ⟨_, rfl⟩
  all_goals exact .inl rfl

end Sys2Proof.Machine
end

section
/-! The invariant of 10_state.md R37 under each operation, each effect and each step. -/

namespace Sys2Proof.Machine

theorem Response.shaped_failure (st : Status) : Response.Shaped ⟨st, []⟩ := ⟨fun _ => rfl, Nat.zero_le _⟩

/-! ### The operations -/

namespace State.Inv

variable {s : State}

theorem powerOn {cfg : Config} (h : cfg.Legal) : (State.powerOn cfg).Inv where
  legal := h
  accNoZero := List.not_mem_nil
  accBound := Nat.zero_le _
  discardEmpty := nofun
  queueBound := Nat.zero_le _
  queueEntries := nofun
  txFrames := ⟨[], rfl, nofun⟩
  responsesShaped := nofun

theorem setPending (h : s.Inv) (es : List Event) : (s.setPending es).Inv := { h with }

theorem setLost (h : s.Inv) (v : Bool) : (s.setLost v).Inv := { h with }

theorem crcFields (h : s.Inv) (v : Half) (n : Nat) : State.Inv { s with crc := v, crcTick := n } := { h with }

theorem respond (h : s.Inv) {r : Response} (hr : r.Shaped) : (s.respond r).Inv :=
  { h with responsesShaped := List.forall_mem_append.mpr ⟨h.responsesShaped, List.forall_mem_singleton.mpr hr⟩ }

theorem setAcc_nil (h : s.Inv) : (s.setAcc []).Inv :=
  { h with accNoZero := List.not_mem_nil, accBound := Nat.zero_le _, discardEmpty := fun _ => rfl }

theorem setDiscard (h : s.Inv) (v : Bool) (hacc : v = true → s.rxAcc = []) : (s.setDiscard v).Inv :=
  { h with discardEmpty := hacc }

/-- A non-zero byte is accumulated where the accumulator is not full (42_framing.md R148). -/
theorem accumulate (h : s.Inv) {b : Byte} (hb : b ≠ 0x00) (hd : s.rxDiscard = false)
    (hlen : s.rxAcc.length ≠ s.cfg.maxFrame - 1) : (s.setAcc (s.rxAcc ++ [b])).Inv :=
  { h with
    accNoZero := by simpa using ⟨h.accNoZero, hb.symm⟩
    accBound := by
      have := h.accBound
      simp
      omega
    discardEmpty := by simp [hd] }

/-- The accumulator and the 0x00 that ends it are a frame as R27 asks. -/
theorem accFrame_shaped (h : s.Inv) (hne : s.rxAcc ≠ []) : FrameShaped s.cfg (s.rxAcc ++ [0x00]) := by
  have hpos := List.length_pos_iff.mpr hne
  have hbound := h.accBound
  have hmax : 2 ≤ s.cfg.maxFrame := Nat.le_add_left _ _
  refine ⟨?_, ?_, ?_, ?_⟩
  · simp; omega
  · simp; omega
  · simp
  · simpa using h.accNoZero

theorem pushFrame (h : s.Inv) {F : Bytes} (hF : FrameShaped s.cfg F) (hroom : s.rxq.length < s.cfg.rxqDepth) :
    (s.pushFrame F).Inv :=
  { h with
    queueBound := by
      simp
      omega
    queueEntries := List.forall_mem_append.mpr ⟨h.queueEntries, List.forall_mem_singleton.mpr hF⟩ }

theorem popFrame (h : s.Inv) {F : Bytes} {q : List Bytes} (hq : s.rxq = F :: q) : (s.setRxq q).Inv :=
  { h with
    queueBound := by
      have := h.queueBound
      rw [hq, List.length_cons] at this
      simp
      omega
    queueEntries := fun G hG => h.queueEntries G (hq ▸ List.mem_cons_of_mem F hG) }

theorem emitFrame (h : s.Inv) {p : Bytes} (hmin : 17 ≤ p.length) (hmax : p.length ≤ s.cfg.maxPacket) :
    (s.emitTx (cobsFrame s.cfg.cobsFullBlockTrailer p)).Inv :=
  { h with
    txFrames := by
      obtain ⟨pkts, htx, hpkts⟩ := h.txFrames
      exact ⟨pkts ++ [p], by simp [htx],
        List.forall_mem_append.mpr ⟨hpkts, List.forall_mem_singleton.mpr ⟨hmin, hmax⟩⟩⟩ }

theorem resetPulse (h : s.Inv) : s.resetPulse.Inv :=
  { h with
    accNoZero := List.not_mem_nil
    accBound := Nat.zero_le _
    discardEmpty := nofun
    queueBound := Nat.zero_le _
    queueEntries := nofun }

end State.Inv

/-! ### Effects and steps -/

variable {s t u : State} {i : Instr} {r : Response}

/-- From a state that meets the invariant a command with an operand that fits LEN answers as R74 says. -/
theorem CommandEffect.response_shaped (he : CommandEffect s i u r) (h : s.Inv) (hop : i.operand.length ≤ 65535) :
    r.Shaped := by
  cases he with
  | answer v n hi hfail hfit => exact ⟨hfail, hfit h.legal hop⟩
  | @pop F q hq =>
    obtain ⟨-, hF, -, -⟩ := h.queueEntries F (hq ▸ List.mem_cons_self)
    exact ⟨fun hst => absurd rfl hst, hF.trans (Config.maxFrame_le h.legal)⟩
  | status => exact ⟨fun hst => absurd rfl hst, by simp⟩
  | send hmax => exact Response.shaped_failure .ok

theorem CommandEffect.inv (he : CommandEffect s i u r) (h : s.Inv) : u.Inv := by
  cases he with
  | answer v n => exact h.crcFields v n
  | pop hq => exact h.popFrame hq
  | status => exact h.setLost false
  | send hmax => exact (h.crcFields _ _).emitFrame (by rw [tmPacket_length]; omega) (by rwa [tmPacket_length])

theorem execRxByte_inv {b : Byte} (h : s.Inv) (ht : execRxByte b s = .next t) : t.Inv := by
  obtain ⟨-, -, e⟩ | ⟨-, -, -, e⟩ | ⟨-, -, hne, hroom, e⟩ | ⟨-, -, -, -, e⟩ | ⟨-, -, e⟩ | ⟨-, -, -, e⟩ |
    ⟨hb, hd, hlen, e⟩ := execRxByte_cases b s <;> cases ht.symm.trans e
  · exact h.setDiscard false nofun
  · exact h
  · exact (h.pushFrame (h.accFrame_shaped hne) hroom).setAcc_nil
  · exact (h.setLost true).setAcc_nil
  · exact h
  · exact (h.setAcc_nil.setDiscard true fun _ => rfl).setLost true
  · exact h.accumulate hb hd hlen

theorem EventEffect.inv {e : Event} (he : EventEffect s e t) (h : s.Inv) : t.Inv := by
  cases he with
  | command hd he => exact (he.inv h).respond (he.response_shaped h (decodeCommand_ok hd).2)
  | illegal hd => exact h.respond (Response.shaped_failure .illegalCommand)
  | link ht => exact execRxByte_inv h ht
  | reset => exact h.resetPulse

/-- Settles O54: every effect of an input keeps the invariant. -/
theorem stepKeepsTheInvariant : Obligations.StepKeepsTheInvariant := by
  intro s t h hstep
  cases hp : s.pending with
  | nil =>
    cases (step_idle hp).symm.trans hstep
    exact h
  | cons e es => exact (step_effect hp hstep).inv (h.setPending es)

/-- Settles O53. -/
theorem powerOnStateIsInvariant : Obligations.PowerOnStateIsInvariant :=
  ⟨fun _ h => .powerOn h, .powerOn (by decide)⟩

theorem rxStatusRegister_powerOn (cfg : Config) : rxStatusRegister (State.powerOn cfg) = [0x00, 0x00, 0x00, 0x00] := by
  simp [rxStatusRegister, State.powerOn, rxFlagsByte, flagBit, be16Nat, be16]

/-- Settles O51. -/
theorem powerOnStateIsEmpty : Obligations.PowerOnStateIsEmpty :=
  ⟨fun cfg => ⟨rfl, rfl, rfl, rxStatusRegister_powerOn cfg⟩, Config.vectorInstance, by decide, rfl⟩

end Sys2Proof.Machine
end

section
/-! Whole-machine rules of 10_state.md read off the effects: which step changes which field. -/

namespace Sys2Proof.Machine

open Sys2Proof.Claims

/-! ### The parameters and the inputs (R30, R34, R58) -/

theorem EventEffect.cfg_pending {s t : State} {e : Event} (he : EventEffect s e t) :
    t.cfg = s.cfg ∧ t.pending = s.pending := by
  cases he with
  | command hd he => cases he <;> exact ⟨rfl, rfl⟩
  | illegal hd => exact ⟨rfl, rfl⟩
  | @link b t ht =>
    obtain ⟨u, hu, hcfg, hpending⟩ := exec_next s (.rxByte b)
    cases hu.symm.trans ht
    exact ⟨hcfg, hpending⟩
  | reset => exact ⟨rfl, rfl⟩

theorem step_cfg_pending {s t : State} (h : step s = .next t) : t.cfg = s.cfg ∧ t.pending = s.pending.tail := by
  cases hp : s.pending with
  | nil =>
    cases (step_idle hp).symm.trans h
    exact ⟨rfl, hp⟩
  | cons e es => exact (step_effect hp h).cfg_pending

/-- Settles O55: by the effects of a step, and induction over a run. -/
theorem parametersAreFixedAlongARun : Obligations.ParametersAreFixedAlongARun := by
  refine ⟨fun s t => step_cfg_pending, fun s t hreach => ?_⟩
  induction hreach with
  | refl => rfl
  | step _ hstep ih => exact (step_cfg_pending hstep).1.trans ih

/-! ### Inputs that keep the rules (R36) -/

theorem runEvent_next_of_keepsTheRules {e : Event} (he : KeepsTheRules e) (s : State) : ∃ t, runEvent e s = .next t := by
  cases e with
  | command port =>
    obtain ⟨opc, rsv, op, hop, rfl⟩ := he
    obtain ⟨i, -, hrun⟩ | ⟨-, hrun⟩ := runCommand_portBytes opc rsv hop s
    · obtain ⟨t, ht, -⟩ := exec_next s i
      exact ⟨t, hrun.trans ht⟩
    · exact ⟨_, hrun⟩
  | rxByte b => exact ⟨_, rfl⟩
  | reset => exact ⟨_, rfl⟩
  | resetMidStep => exact he.elim

theorem step_next_of_keepsTheRules {s : State} (h : ∀ e ∈ s.pending, KeepsTheRules e) : ∃ t, step s = .next t := by
  cases hp : s.pending with
  | nil => exact ⟨s, step_idle hp⟩
  | cons e es =>
    rw [step_cons hp]
    exact runEvent_next_of_keepsTheRules (h e (hp ▸ List.mem_cons_self)) _

/-- Settles O8: each input that keeps the rules is answered, and the step takes it off the pending inputs. -/
theorem ruleKeepingInputsNeverStopTheBlock : Obligations.RuleKeepingInputsNeverStopTheBlock := by
  intro s h
  obtain ⟨t, ht⟩ := step_next_of_keepsTheRules h
  refine ⟨t, ht, fun e he => h e (List.mem_of_mem_tail ?_)⟩
  rwa [← (step_cfg_pending ht).2]

/-! ### The response of a command (R32, 30_encoding.md R74) -/

/-- A command of the port is an instruction with its operand, and no RX.BYTE event. -/
theorem commands_spec {mk : Bytes → Instr} (hmk : mk ∈ commands) (op : Bytes) :
    (mk op).operand = op ∧ ∀ b, mk op ≠ .rxByte b := by
  simp only [commands, List.mem_cons, List.not_mem_nil, or_false] at hmk
  obtain rfl | rfl | rfl | rfl | rfl | rfl | rfl | rfl | rfl | rfl | rfl | rfl | rfl | rfl | rfl | rfl | rfl := hmk <;>
    exact ⟨rfl, nofun⟩

/-- RLEN reads back as the length of a result that fits 16 bits. -/
theorem be16Nat_num16 {n : Nat} (h : n ≤ 65535) : num16 (be16Nat n) 0 = n :=
  (u16be_toNat _ _).symm.trans (readLen h)

theorem response_laidOut (r : Response) : LaidOut r := by
  refine ⟨?_, be16Nat_num16, rfl, r.bytes_length⟩
  cases hst : r.status <;> simp [Response.bytes, num, codes, hst, Status.code]

/-- A command's effect writes no response of its own. -/
theorem CommandEffect.responses {s u : State} {i : Instr} {r : Response} (he : CommandEffect s i u r) :
    u.responses = s.responses := by
  cases he <;> rfl

theorem CommandEffect.failure_empty {s u : State} {i : Instr} {r : Response} (he : CommandEffect s i u r)
    (hst : r.status ≠ .ok) : r.result = [] := by
  cases he with
  | answer v n hi hfail => exact hfail hst
  | pop => exact absurd rfl hst
  | status => exact absurd rfl hst
  | send => rfl

/-- Settles O9: every effect of a command is followed by its one response. -/
theorem everyCommandIsAnsweredOnce : Obligations.EveryCommandIsAnsweredOnce := by
  refine ⟨fun mk hmk op s => ?_, response_laidOut _, fun b s => ⟨_, rfl, (execRxByte_responses_txOut rfl).1⟩⟩
  obtain ⟨hoperand, hne⟩ := commands_spec hmk op
  obtain ⟨u, r, he, hnext⟩ := exec_hasEffect s hne
  refine ⟨_, r, hnext, ?_, he.failure_empty, response_laidOut r, fun h hop => ?_⟩
  · rw [State.respond_responses, he.responses]
  · exact (he.response_shaped h (by rwa [hoperand])).2

/-! ### `rx_ready` (R35) -/

@[simp] theorem State.rxReady_eq_true (s : State) : s.rxReady = true ↔ s.rxq ≠ [] := by
  simp [State.rxReady, List.length_pos_iff]

@[simp] theorem State.rxReady_eq_false (s : State) : s.rxReady = false ↔ s.rxq = [] := by
  simp [State.rxReady]

/-- Who moves the queue: a link byte at its end, RX.POP at its front, and reset. -/
theorem EventEffect.rxq_cases {s t : State} {e : Event} (he : EventEffect s e t) :
    t.rxq = s.rxq ∨ (∃ b F, e = .rxByte b ∧ t.rxq = s.rxq ++ [F]) ∨
      (∃ port F, e = .command port ∧ decodeCommand port = .ok (.rxPop []) ∧ s.rxq = F :: t.rxq) ∨
      e = .reset ∧ t.rxq = [] := by
  cases he with
  | @command port i u r hd he =>
    cases he with
    | answer v n => exact .inl rfl
    | @pop F q hq => exact .inr (.inr (.inl ⟨port, F, rfl, hd, hq⟩))
    | status => exact .inl rfl
    | send hmax => exact .inl rfl
  | illegal hd => exact .inl rfl
  | @link b t ht =>
    obtain hq | ⟨F, hq⟩ := execRxByte_rxq ht
    · exact .inl hq
    · exact .inr (.inl ⟨b, F, rfl, hq⟩)
  | reset => exact .inr (.inr (.inr ⟨rfl, rfl⟩))

theorem EventEffect.rxReady {s t : State} {e : Event} (he : EventEffect s e t) :
    (s.rxReady = false → t.rxReady = true → ∃ b, e = .rxByte b) ∧
    (s.rxReady = true → t.rxReady = false →
      e = .reset ∨ ∃ port, e = .command port ∧ decodeCommand port = .ok (.rxPop [])) := by
  simp only [State.rxReady_eq_true, State.rxReady_eq_false]
  obtain hq | ⟨b, F, rfl, hq⟩ | ⟨port, F, rfl, hd, hq⟩ | ⟨rfl, hq⟩ := he.rxq_cases
  · simp +contextual [hq]
  · simp [hq]
  · simp [hq, hd]
  · simp [hq]

/-- Settles O42. -/
theorem rxReadyFollowsTheQueue : Obligations.RxReadyFollowsTheQueue :=
  ⟨fun _ => decide_eq_true_iff, fun _ _ _ _ hp h => (step_effect hp h).rxReady⟩

/-! ### `rx_lost` (R26) -/

/-- The input drops a frame: a non-zero byte at a full accumulator, or the 0x00 of a frame at a full queue. -/
abbrev DropsFrame (s : State) (e : Event) : Prop :=
  s.rxDiscard = false ∧
    ((∃ b, e = .rxByte b ∧ b ≠ 0x00 ∧ s.rxAcc.length = s.cfg.maxFrame - 1) ∨
      (e = .rxByte 0x00 ∧ s.rxAcc ≠ [] ∧ s.cfg.rxqDepth ≤ s.rxq.length))

/-- A link byte sets the flag where it drops a frame, and leaves it otherwise. -/
theorem execRxByte_rxLost {s t : State} {b : Byte} (h : execRxByte b s = .next t) :
    t.rxLost = true ↔ s.rxLost = true ∨ DropsFrame s (.rxByte b) := by
  obtain ⟨hb, hd, e⟩ | ⟨hb, hd, ha, e⟩ | ⟨hb, hd, ha, hq, e⟩ | ⟨hb, hd, ha, hq, e⟩ | ⟨hb, hd, e⟩ | ⟨hb, hd, hl, e⟩ |
    ⟨hb, hd, hl, e⟩ := execRxByte_cases b s <;> cases h.symm.trans e
  · simp [hd]
  · simp [hb, ha]
  · simp [hb, ha, hq]
  · exact iff_of_true rfl (.inr ⟨hd, .inr ⟨by rw [hb], ha, hq⟩⟩)
  · simp [hd]
  · exact iff_of_true rfl (.inr ⟨hd, .inl ⟨b, rfl, hb, hl⟩⟩)
  · exact (or_iff_left fun
      | ⟨_, .inl ⟨_, _, _, hfull⟩⟩ => hl hfull
      | ⟨_, .inr ⟨hz, _, _⟩⟩ => hb (Event.rxByte.inj hz)).symm

theorem EventEffect.rxLost_of_unset {s t : State} {e : Event} (he : EventEffect s e t) (hs : s.rxLost = false) :
    t.rxLost = true ↔ DropsFrame s e := by
  cases he with
  | command hd he => cases he <;> simp [hs]
  | illegal hd => simp [hs]
  | link ht => simp [execRxByte_rxLost ht, hs]
  | reset => simp

theorem EventEffect.rxLost_of_set {s t : State} {e : Event} (he : EventEffect s e t) (hs : s.rxLost = true) :
    t.rxLost = false ↔ e = .reset ∨ ∃ port, e = .command port ∧ decodeCommand port = .ok (.rxStatus []) := by
  cases he with
  | command hd he =>
    cases he with
    | answer v n hi => simp [hs, hd, hi]
    | pop hq => simp [hs, hd]
    | status => simp [hd]
    | send hmax => simp [hs, hd]
  | illegal hd => simp [hs, hd]
  | link ht => simp [Bool.eq_false_iff, execRxByte_rxLost ht, hs]
  | reset => simp

/-- Settles O43. -/
theorem onlyStatusAndResetClearTheLostFlag : Obligations.OnlyStatusAndResetClearTheLostFlag :=
  ⟨fun _ _ _ _ hp h => ⟨(step_effect hp h).rxLost_of_unset, (step_effect hp h).rxLost_of_set⟩, fun _ => rfl⟩

/-! ### `tx_out` (R33) -/

theorem EventEffect.txOut {s t : State} {e : Event} (he : EventEffect s e t) :
    t.txOut = s.txOut ∨ ∃ port op, e = .command port ∧ decodeCommand port = .ok (.tmSend op) ∧
      t.txOut = s.txOut ++ cobsFrame s.cfg.cobsFullBlockTrailer (tmPacket op) := by
  cases he with
  | @command port i u r hd he =>
    cases he with
    | answer v n => exact .inl rfl
    | pop hq => exact .inl rfl
    | status => exact .inl rfl
    | @send op hmax => exact .inr ⟨port, op, rfl, hd, rfl⟩
  | illegal hd => exact .inl rfl
  | link ht => exact .inl ((execRxByte_responses_txOut ht).2)
  | reset => exact .inl rfl

theorem step_txOut_prefix {s t : State} (h : step s = .next t) : s.txOut <+: t.txOut := by
  cases hp : s.pending with
  | nil =>
    cases (step_idle hp).symm.trans h
    exact List.prefix_rfl
  | cons e es =>
    obtain htx | ⟨_, _, -, -, htx⟩ := (step_effect hp h).txOut
    · exact htx ▸ List.prefix_rfl
    · exact htx ▸ List.prefix_append _ _

/-- Settles O56: by the effects of a step, and induction over a run. -/
theorem txHistoryGrowsByWholeFrames : Obligations.TxHistoryGrowsByWholeFrames := by
  refine ⟨fun s t e es hp h => (step_effect hp h).txOut, fun s t hreach => ?_⟩
  induction hreach with
  | refl => exact List.prefix_rfl
  | step _ hstep ih => exact ih.trans (step_txOut_prefix hstep)

end Sys2Proof.Machine
end

section
/-! Noninterference of the CRC register (10_state.md R23): no result depends on what it held. -/

namespace Sys2Proof.Machine

/-- Both results are next states, the same but for the CRC register and the model's own counter. -/
def SameButCrc (x y : Result) : Prop := ∃ t c n, x = .next t ∧ y = .next { t with crc := c, crcTick := n }

namespace SameButCrc

variable {x x' y y' : Result} {op fv : Bytes} {s : State} {c : Half} {n m : Nat} {ws : List Nat}

/-- A branch whose condition does not read the register. -/
theorem ite (p : Prop) [Decidable p] (hx : SameButCrc x y) (hx' : SameButCrc x' y') :
    SameButCrc (if p then x else x') (if p then y else y') := by
  by_cases hp : p
  · simpa only [if_pos hp] using hx
  · simpa only [if_neg hp] using hx'

theorem raise (st : Status) :
    SameButCrc (Machine.raise s st) (Machine.raise { s with crc := c, crcTick := n } st) :=
  ⟨_, c, n, rfl, rfl⟩

theorem minLen (h : SameButCrc x y) :
    SameButCrc (withMinLen m op s x) (withMinLen m op { s with crc := c, crcTick := n } y) :=
  .ite _ (.raise _) h

theorem fixedLen (h : SameButCrc x y) :
    SameButCrc (withFixedLen m op s x) (withFixedLen m op { s with crc := c, crcTick := n } y) :=
  .ite _ (.raise _) (.ite _ (.raise _) h)

theorem range (h : SameButCrc x y) :
    SameButCrc (withRange fv ws s x) (withRange fv ws { s with crc := c, crcTick := n } y) :=
  .ite _ h (.raise _)

theorem tmPacket {f g : Bytes → Result} (h : ∀ pkt, SameButCrc (f pkt) (g pkt)) :
    SameButCrc (withTmPacket op s f) (withTmPacket op { s with crc := c, crcTick := n } g) := by
  refine .minLen (.range (.range ?_))
  simp only
  cases tmAssemble s.cfg (phOfFv op) (tmshOfFv (op.drop 14)) (op.drop 28) with
  | error st => exact .raise st
  | ok pkt => exact h pkt

end SameButCrc

/-- No instruction's result depends on what the CRC register held. -/
theorem exec_sameButCrc (i : Instr) (s : State) (c : Half) (n : Nat) :
    SameButCrc (exec i s) (exec i { s with crc := c, crcTick := n }) := by
  cases i with
  | crcCompute op => exact ⟨_, _, _, rfl, rfl⟩
  | crcUpdate op => exact .minLen ⟨_, _, _, rfl, rfl⟩
  | crcValidate op => exact .minLen (.ite _ ⟨_, _, _, rfl, rfl⟩ ⟨_, _, _, rfl, rfl⟩)
  | crcAppend op => exact .ite _ (.raise _) ⟨_, _, _, rfl, rfl⟩
  | phEncode op => exact .fixedLen (.range ⟨_, _, _, rfl, rfl⟩)
  | phDecode op => exact .fixedLen ⟨_, _, _, rfl, rfl⟩
  | tcshEncode op => exact .fixedLen (.range ⟨_, _, _, rfl, rfl⟩)
  | tcshDecode op => exact .fixedLen ⟨_, _, _, rfl, rfl⟩
  | tmshEncode op => exact .fixedLen (.range ⟨_, _, _, rfl, rfl⟩)
  | tmshDecode op => exact .fixedLen ⟨_, _, _, rfl, rfl⟩
  | cobsFrame op => exact .ite _ (.raise _) ⟨_, _, _, rfl, rfl⟩
  | cobsDeframe op =>
    simp only [exec, execCobsDeframe]
    cases cobsDeframe op with
    | none => exact .raise _
    | some D => exact ⟨_, _, _, rfl, rfl⟩
  | rxPop op =>
    refine .ite _ (.raise _) ?_
    obtain ⟨_, _, _, rxq, _, _, _, _, _, _⟩ := s
    cases rxq with
    | nil => exact .raise _
    | cons F q => exact ⟨_, _, _, rfl, rfl⟩
  | rxStatus op => exact .ite _ (.raise _) ⟨_, _, _, rfl, rfl⟩
  | tmAssemble op => exact .tmPacket fun pkt => ⟨_, _, _, rfl, rfl⟩
  | tmSend op => exact .tmPacket fun pkt => ⟨_, _, _, rfl, rfl⟩
  | tcIngest op =>
    simp only [exec, execTcIngest]
    cases tcIngest s.cfg op with
    | ok v => exact ⟨_, _, _, rfl, rfl⟩
    | error st => cases st <;> exact ⟨_, _, _, rfl, rfl⟩
  | rxByte b =>
    simp only [exec, execRxByte, rxDelimiter, rxData]
    split_ifs <;> exact ⟨_, _, _, rfl, rfl⟩

/-- Settles O13. -/
theorem crcRegisterContentIsNeverRead : Obligations.CrcRegisterContentIsNeverRead := by
  intro i s t c n h
  obtain ⟨u, c', n', hu, hnext⟩ := exec_sameButCrc i s c n
  cases hu.symm.trans h
  exact ⟨c', n', hnext⟩

end Sys2Proof.Machine
end

section
/-! Every command but RX.POP, RX.STATUS and TM.SEND is a function of its operand and the parameters (20_memory.md R55); the
step is the meaning of the decoded instruction (R54, R58). -/

namespace Sys2Proof.Machine

open Sys2Proof.Claims

/-- Settles O1. -/
theorem stepRunsTheDecodedInstruction : Obligations.StepRunsTheDecodedInstruction :=
  ⟨fun _ _ _ _ hp hd => (step_cons hp).trans (runCommand_ok hd), fun _ _ _ hp => step_cons hp⟩

/-- The result is the state `s` with the response `r` appended, and nothing else changed but the CRC register;
`AnswersWithCrc i s r` says so of the result `exec i s`. -/
def AddsOnly (s : State) (r : Response) (x : Result) : Prop :=
  ∃ v n, x = .next { s with responses := s.responses ++ [r], crc := v, crcTick := n }

/-- The results, from `s` and from `s'`, add one and the same response and change nothing else but the CRC register. -/
def SameAnswer (s s' : State) (x y : Result) : Prop := ∃ r, AddsOnly s r x ∧ AddsOnly s' r y

namespace SameAnswer

variable {s s' : State} {x x' y y' : Result} {op fv : Bytes} {m : Nat} {ws : List Nat}

theorem raise (st : Status) : SameAnswer s s' (Machine.raise s st) (Machine.raise s' st) :=
  ⟨_, ⟨_, _, rfl⟩, _, _, rfl⟩

theorem raise_releaseCrc (st : Status) :
    SameAnswer s s' (Machine.raise s.releaseCrc st) (Machine.raise s'.releaseCrc st) :=
  ⟨_, ⟨_, _, rfl⟩, _, _, rfl⟩

theorem finish (R : Bytes) : SameAnswer s s' (Machine.finish s R) (Machine.finish s' R) :=
  ⟨_, ⟨_, _, rfl⟩, _, _, rfl⟩

theorem finish_releaseCrc (R : Bytes) :
    SameAnswer s s' (Machine.finish s.releaseCrc R) (Machine.finish s'.releaseCrc R) :=
  ⟨_, ⟨_, _, rfl⟩, _, _, rfl⟩

/-- A branch whose condition does not read the state. -/
theorem ite (p : Prop) [Decidable p] (hx : SameAnswer s s' x y) (hx' : SameAnswer s s' x' y') :
    SameAnswer s s' (if p then x else x') (if p then y else y') := by
  by_cases hp : p
  · simpa only [if_pos hp] using hx
  · simpa only [if_neg hp] using hx'

theorem minLen (h : SameAnswer s s' x y) : SameAnswer s s' (withMinLen m op s x) (withMinLen m op s' y) :=
  .ite _ (.raise _) h

theorem fixedLen (h : SameAnswer s s' x y) : SameAnswer s s' (withFixedLen m op s x) (withFixedLen m op s' y) :=
  .ite _ (.raise _) (.ite _ (.raise _) h)

theorem range (h : SameAnswer s s' x y) : SameAnswer s s' (withRange fv ws s x) (withRange fv ws s' y) :=
  .ite _ h (.raise _)

theorem tmPacket {f g : Bytes → Result} (hcfg : s'.cfg = s.cfg) (h : ∀ pkt, SameAnswer s s' (f pkt) (g pkt)) :
    SameAnswer s s' (withTmPacket op s f) (withTmPacket op s' g) := by
  refine .minLen (.range (.range ?_))
  rw [hcfg]
  cases tmAssemble s.cfg (phOfFv op) (tmshOfFv (op.drop 14)) (op.drop 28) with
  | error st => exact .raise st
  | ok pkt => exact h pkt

end SameAnswer

/-- A stateless command reads nothing of the state but the parameters. -/
theorem exec_sameAnswer {i : Instr} (hi : Stateless i) {s s' : State} (hcfg : s'.cfg = s.cfg) :
    SameAnswer s s' (exec i s) (exec i s') := by
  cases i with
  | crcCompute op => exact .finish_releaseCrc (be16 (crc16 op))
  | crcUpdate op => exact .minLen (.finish_releaseCrc (be16 (crcUpdate (u16beAt op 0) (op.drop 2))))
  | crcValidate op => exact .minLen (.ite _ (.raise_releaseCrc _) (.finish_releaseCrc _))
  | crcAppend op => exact .ite _ (.raise _) (.finish_releaseCrc (op ++ be16 (crc16 op)))
  | phEncode op => exact .fixedLen (.range (.finish _))
  | phDecode op => exact .fixedLen (.finish _)
  | tcshEncode op => exact .fixedLen (.range (.finish _))
  | tcshDecode op => exact .fixedLen (.finish _)
  | tmshEncode op => exact .fixedLen (.range (.finish _))
  | tmshDecode op => exact .fixedLen (.finish _)
  | cobsFrame op =>
    simp only [exec, execCobsFrame, hcfg]
    exact .ite _ (.raise _) (.finish _)
  | cobsDeframe op =>
    simp only [exec, execCobsDeframe]
    cases cobsDeframe op with
    | none => exact .raise _
    | some D => exact .finish D
  | rxPop op => exact hi.elim
  | rxStatus op => exact hi.elim
  | tmAssemble op => exact .tmPacket hcfg fun pkt => .finish_releaseCrc pkt
  | tmSend op => exact hi.elim
  | tcIngest op =>
    simp only [exec, execTcIngest, hcfg]
    cases tcIngest s.cfg op with
    | ok v => exact .finish_releaseCrc v.bytes
    | error st =>
      cases st with
      | checksumMismatch => exact .raise_releaseCrc _
      | _ => exact .raise _
  | rxByte b => exact hi.elim

/-- Settles O12. -/
theorem statelessCommandsAreFunctionsOfTheOperand : Obligations.StatelessCommandsAreFunctionsOfTheOperand :=
  fun _ hi _ _ hcfg => exec_sameAnswer hi hcfg

end Sys2Proof.Machine
end

section
/-! Runs over the pending inputs: RX.POP in a row, and interleavings of the two streams (20_memory.md R58, R59). -/

namespace Sys2Proof.Machine

open Sys2Proof.Claims

theorem run_succ {s t : State} (k : Nat) (h : step s = .next t) :
    Host.Core.run core (k + 1) s = Host.Core.run core k t := by
  have hcore : core.step s = .next t := h
  simp only [Host.Core.run, hcore]

/-! ### RX.POP in a row -/

theorem decodeCommand_pop : decodeCommand [0x22, 0x00, 0x00, 0x00] = .ok (.rxPop []) := by decide

/-- RX.POP with a frame queued answers the oldest frame (42_framing.md R152). -/
theorem execRxPop_queued {s : State} {F : Bytes} {q : List Bytes} (hq : s.rxq = F :: q) :
    execRxPop [] s = finish (s.setRxq q) F := by
  simp [execRxPop, hq]

theorem step_pop {s : State} {F : Bytes} {q : List Bytes} {es : List Event} (hq : s.rxq = F :: q)
    (hp : s.pending = popCommand :: es) :
    step s = .next { s with rxq := q, pending := es, responses := s.responses ++ [⟨.ok, F⟩] } :=
  calc step s
    _ = runEvent popCommand (s.setPending es) := step_cons hp
    _ = exec (.rxPop []) (s.setPending es) := runCommand_ok decodeCommand_pop
    _ = finish ((s.setPending es).setRxq q) F := execRxPop_queued hq

/-- Settles O44, by induction on the frames in front. -/
theorem queueIsFirstInFirstOut : Obligations.QueueIsFirstInFirstOut := by
  intro s fs q hq hp
  induction fs generalizing s with
  | nil =>
    obtain rfl : s.rxq = q := hq
    simp only [List.length_nil, List.replicate_zero] at hp
    simp [Host.Core.run, ← hp]
  | cons F fs ih =>
    rw [List.length_cons, run_succ _ (step_pop hq hp), ih _ rfl rfl]
    simp

/-! ### Interleavings of link bytes and stateless commands -/

/-- An RX link byte, or a command of the port that is stateless or illegal. -/
def StatelessInput (e : Event) : Prop :=
  (∃ b, e = .rxByte b) ∨ ∃ opc rsv op, e = .command (portBytes opc rsv op) ∧ op.length ≤ 65535 ∧
    ∀ i, decodeCommand (portBytes opc rsv op) = .ok i → Stateless i

/-- What a block with these parameters, just powered on, answers to a command. -/
def freshResponses (cfg : Config) (port : Bytes) : List Response :=
  match runCommand port (State.powerOn cfg) with
  | .next t => t.responses
  | .fault _ => []
  | .refused _ => []

theorem freshResponses_of_addsOnly {cfg : Config} {port : Bytes} {r : Response}
    (h : AddsOnly (State.powerOn cfg) r (runCommand port (State.powerOn cfg))) : freshResponses cfg port = [r] := by
  obtain ⟨v, n, h⟩ := h
  simp only [freshResponses, h]
  rfl

theorem runCommand_sameAnswer {opc rsv : Byte} {op : Bytes} (hop : op.length ≤ 65535)
    (hi : ∀ i, decodeCommand (portBytes opc rsv op) = .ok i → Stateless i) {s s' : State} (hcfg : s'.cfg = s.cfg) :
    SameAnswer s s' (runCommand (portBytes opc rsv op) s) (runCommand (portBytes opc rsv op) s') := by
  by_cases hd : ∃ i, decodeCommand (portBytes opc rsv op) = .ok i
  · obtain ⟨i, hd⟩ := hd
    rw [runCommand_ok hd, runCommand_ok hd]
    exact exec_sameAnswer (hi i hd) hcfg
  · have hillegal (u : State) : runCommand (portBytes opc rsv op) u = raise u .illegalCommand :=
      ((runCommand_portBytes opc rsv hop u).resolve_left fun ⟨i, hok, _⟩ => hd ⟨i, hok⟩).2
    rw [hillegal, hillegal]
    exact .raise _

/-- A stateless or illegal command answers in every state what it answers after power-on, and changes nothing else but the
CRC register (20_memory.md R55, 30_encoding.md R76). -/
theorem runCommand_addsFreshResponse {opc rsv : Byte} {op : Bytes} (hop : op.length ≤ 65535)
    (hi : ∀ i, decodeCommand (portBytes opc rsv op) = .ok i → Stateless i) (s : State) :
    ∃ r, freshResponses s.cfg (portBytes opc rsv op) = [r] ∧ AddsOnly s r (runCommand (portBytes opc rsv op) s) := by
  obtain ⟨r, hs, hfresh⟩ := runCommand_sameAnswer hop hi (s := s) (s' := State.powerOn s.cfg) rfl
  exact ⟨r, freshResponses_of_addsOnly hfresh, hs⟩

/-- What a link byte does to the architectural state depends on that state and the parameters alone. -/
theorem execRxByte_arch_congr {b : Byte} {s s' t t' : State} (harch : s'.arch = s.arch) (hcfg : s'.cfg = s.cfg)
    (h : execRxByte b s = .next t) (h' : execRxByte b s' = .next t') : t'.arch = t.arch := by
  obtain ⟨hacc, hdiscard, hlost, hq, htx⟩ := (State.arch_eq_iff s s').mp harch
  cases h
  cases h'
  simp only [rxDelimiter, rxData, hacc, hdiscard, hq, hcfg]
  split_ifs <;> simp [State.arch_eq_iff, hacc, hdiscard, hlost, hq, htx]

/-- A run over link bytes and stateless commands ends in the architectural state that the link bytes alone lead to, with
the responses that the commands alone give. -/
theorem run_statelessInputs (es : List Event) (hes : ∀ e ∈ es, StatelessInput e) {s q : State} (hp : s.pending = es)
    (harch : s.arch = q.arch) (hcfg : s.cfg = q.cfg) :
    ∃ t u, Host.Core.run core es.length s = .next t ∧ runFeed (linkStream es) q = .next u ∧ t.arch = u.arch ∧
      t.responses = s.responses ++ (hostStream es).flatMap (freshResponses q.cfg) := by
  induction es generalizing s q with
  | nil => exact ⟨s, q, rfl, rfl, harch, (List.append_nil _).symm⟩
  | cons e es ih =>
    have hrest := (List.forall_mem_cons.mp hes).2
    obtain ⟨b, rfl⟩ | ⟨opc, rsv, op, rfl, hop, hi⟩ := hes e List.mem_cons_self
    · obtain ⟨s', hs, hscfg, hspending⟩ := exec_next (s.setPending es) (.rxByte b)
      obtain ⟨q', hq, hqcfg, -⟩ := exec_next q (.rxByte b)
      have harch' : s'.arch = q'.arch := execRxByte_arch_congr (s' := s.setPending es) harch hcfg hq hs
      have hcfg' : s'.cfg = q'.cfg := hscfg.trans (hcfg.trans hqcfg.symm)
      obtain ⟨t, u, ht, hu, htu, hr⟩ := ih hrest hspending harch' hcfg'
      refine ⟨t, u, (run_succ _ ((step_cons hp).trans hs)).trans ht, (runFeed_append [b] _ hq).trans hu, htu, ?_⟩
      rw [hr, (execRxByte_responses_txOut hs).1, hqcfg]
      rfl
    · obtain ⟨r, hfresh, v, n, hrun⟩ := runCommand_addsFreshResponse hop hi (s.setPending es)
      obtain ⟨t, u, ht, hu, htu, hr⟩ := ih hrest
        (s := { s with pending := es, responses := s.responses ++ [r], crc := v, crcTick := n }) rfl harch hcfg
      refine ⟨t, u, (run_succ _ ((step_cons hp).trans hrun)).trans ht, hu, htu, ?_⟩
      have hfresh : freshResponses q.cfg _ = [r] := hcfg ▸ hfresh
      rw [hr]
      simp [hostStream, hfresh]

/-- Settles O58: each run ends where the two streams alone lead, and the streams are the same. -/
theorem interleavingDoesNotMatterToStatelessCommands : Obligations.InterleavingDoesNotMatterToStatelessCommands := by
  intro s es es' ⟨hhost, hlink⟩ hes
  obtain ⟨hall, hall'⟩ := List.forall_mem_append.mp hes
  obtain ⟨t, u, ht, hu, htu, hr⟩ := run_statelessInputs es hall (s := s.setPending es) (q := s) rfl rfl rfl
  obtain ⟨t', u', ht', hu', htu', hr'⟩ := run_statelessInputs es' hall' (s := s.setPending es') (q := s) rfl rfl rfl
  rw [← hlink, hu] at hu'
  cases hu'
  exact ⟨t, t', ht, ht', htu'.trans htu.symm, by rw [hr, hr', hhost]; rfl⟩

end Sys2Proof.Machine
end

section
/-! The command port (30_encoding.md R72 to R76): the encoder and the decoder undo each other, and what is no command. -/

namespace Sys2Proof.Machine

open Sys2Proof.Claims

/-- Every instruction has its row of the opcode map (R75). -/
theorem opcodeRow (i : Instr) : Laws.OpcodeRow.Statement i := by
  cases i with
  | crcCompute op => exact Laws.OpcodeRow.crcCompute op
  | crcUpdate op => exact Laws.OpcodeRow.crcUpdate op
  | crcValidate op => exact Laws.OpcodeRow.crcValidate op
  | crcAppend op => exact Laws.OpcodeRow.crcAppend op
  | phEncode op => exact Laws.OpcodeRow.phEncode op
  | phDecode op => exact Laws.OpcodeRow.phDecode op
  | tcshEncode op => exact Laws.OpcodeRow.tcshEncode op
  | tcshDecode op => exact Laws.OpcodeRow.tcshDecode op
  | tmshEncode op => exact Laws.OpcodeRow.tmshEncode op
  | tmshDecode op => exact Laws.OpcodeRow.tmshDecode op
  | cobsFrame op => exact Laws.OpcodeRow.cobsFrame op
  | cobsDeframe op => exact Laws.OpcodeRow.cobsDeframe op
  | rxPop op => exact Laws.OpcodeRow.rxPop op
  | rxStatus op => exact Laws.OpcodeRow.rxStatus op
  | tmAssemble op => exact Laws.OpcodeRow.tmAssemble op
  | tmSend op => exact Laws.OpcodeRow.tmSend op
  | tcIngest op => exact Laws.OpcodeRow.tcIngest op
  | rxByte b => exact Laws.OpcodeRow.rxByte b

/-- With RSV 0x00 an assigned opcode and its operand are read as the instruction of its row. -/
theorem decodeCommand_of_decodeOpcode {opc : Byte} {op : Bytes} {i : Instr} (hop : op.length ≤ 65535)
    (h : decodeOpcode opc op = some i) : decodeCommand (portBytes opc 0x00 op) = .ok i := by
  rw [decodeCommand_portBytes opc 0x00 op hop]
  simp [decodeFields, h]

/-- Settles O3: by the row of the instruction in the opcode map. -/
theorem decodeOfEncodeIsTheInstruction : Obligations.DecodeOfEncodeIsTheInstruction := by
  intro i hwf
  have hop : i.operand.length ≤ 65535 := of_decide_eq_true hwf
  obtain ⟨opc, henc, hdec⟩ | ⟨b, henc, rfl⟩ := opcodeRow i
  · rw [henc]
    exact decodeCommand_of_decodeOpcode hop hdec
  · rw [henc]
    rfl

/-- Settles O4. -/
theorem encodeOfDecodeIsTheCommand : Obligations.EncodeOfDecodeIsTheCommand := by
  intro port i h
  obtain ⟨henc, hop⟩ := decodeCommand_ok h
  exact ⟨henc, decide_eq_true hop⟩

/-- A command is its word of 4 bytes and its operand (R72). -/
theorem portBytes_length (opc rsv : Byte) (op : Bytes) : (portBytes opc rsv op).length = 4 + op.length := by
  simp [portBytes]
  omega

/-- Settles O5. -/
theorem streamDecoderFindsTheNextCommand : Obligations.StreamDecoderFindsTheNextCommand :=
  fun opc rsv op rest hop => ⟨readCommand_portBytes opc rsv op rest hop, portBytes_length opc rsv op⟩

/-- The opcodes the decoder knows are the 17 assigned ones (R75). -/
theorem decodeOpcode_isSome_iff (opc : Byte) (op : Bytes) : (decodeOpcode opc op).isSome ↔ opc ∈ assigned := by
  constructor
  · intro h
    unfold decodeOpcode at h
    split at h
    case h_18 => cases h
    all_goals
      rename_i hopc
      rw [← List.mem_map_of_injective BitVec.toNat_injective, hopc]
      decide
  · simp only [assigned, List.mem_cons, List.not_mem_nil, or_false]
    rintro (rfl | rfl | rfl | rfl | rfl | rfl | rfl | rfl | rfl | rfl | rfl | rfl | rfl | rfl | rfl | rfl | rfl) <;> rfl

theorem decodeOpcode_eq_none {opc : Byte} (op : Bytes) (h : opc ∉ assigned) : decodeOpcode opc op = none := by
  rwa [← decodeOpcode_isSome_iff opc op, Option.not_isSome_iff_eq_none] at h

/-- Settles O6. -/
theorem illegalCommandHasNoOtherEffect : Obligations.IllegalCommandHasNoOtherEffect := by
  refine ⟨fun s opc rsv op es hop hp hbad => ?_, fun opc op hop hassigned => ?_⟩
  · calc step s
      _ = runCommand (portBytes opc rsv op) (s.setPending es) := step_cons hp
      _ = raise (s.setPending es) .illegalCommand := runCommand_illegal hop (hbad.imp_right (decodeOpcode_eq_none op))
  · obtain ⟨i, hi⟩ := Option.isSome_iff_exists.mp ((decodeOpcode_isSome_iff opc op).mpr hassigned)
    exact ⟨i, decodeCommand_of_decodeOpcode hop hi, (decodeOpcode_operand hi).1⟩

/-- Settles O2. -/
theorem wordsOfTheOpcodeMapDecode : Obligations.WordsOfTheOpcodeMapDecode :=
  ⟨by decide, by decide, by decide, decodeCommand_pop, by decide, rfl⟩

end Sys2Proof.Machine
end

section
/-! The header codec read back: a header decoded from its encoding, and a record from its field vector (30_encoding.md R78,
R79, 41_headers.md R126). -/

namespace Sys2Proof.Machine

open Sys2Proof.Claims

/-! ### Containers -/

/-- Container `j` of consecutive containers is the `j`-th of them (R78). -/
theorem container_flatMap_be16 (vs : List Half) (j : Nat) : container (vs.flatMap be16) j = vs.getD j 0 := by
  induction vs generalizing j with
  | nil => simp [container, u16beAt, byteAt, u16be]
  | cons v vs ih =>
    cases j with
    | zero => exact u16be_be16 v
    | succ j => exact ih j

theorem container_eq_num16 (fv : Bytes) (j : Nat) : (container fv j).toNat = num16 fv (2 * j) := container_toNat fv j

/-- Containers that hold values below two to their fields' widths are in range. -/
theorem inRange_flatMap_be16 {vs : List Half} {ws : List Nat} (h : List.Forall₂ (fun v w => v.toNat < 2 ^ w) vs ws) :
    InRange (vs.flatMap be16) 0 ws := by
  intro j hj
  have hj' : j < vs.length := h.length_eq ▸ hj
  rw [Nat.zero_add, ← container_eq_num16, container_flatMap_be16, List.getD_eq_getElem _ _ hj',
    List.getD_eq_getElem _ _ hj]
  exact h.get hj' hj

/-- A field in its container is below two to its width. -/
theorem toNat_setWidth_lt {n : Nat} (m : Nat) (x : BitVec n) : (x.setWidth m).toNat < 2 ^ n := by
  rw [BitVec.toNat_setWidth]
  exact (Nat.mod_le _ _).trans_lt x.isLt

/-! ### Field vectors -/

theorem phToFv_inRange (h : PrimaryHeader) : InRange (phToFv h) 0 phBits :=
  inRange_flatMap_be16 (vs := [h.version.setWidth 16, h.packetType.setWidth 16, h.secHdrFlag.setWidth 16,
    h.apid.setWidth 16, h.seqFlags.setWidth 16, h.seqCount.setWidth 16, h.dataLength]) <| by
    simp only [phBits, List.forall₂_cons, List.Forall₂.nil, toNat_setWidth_lt, BitVec.isLt, and_self]

theorem tcshToFv_inRange (h : TcHeader) : InRange (tcshToFv h) 0 tcBits :=
  inRange_flatMap_be16 (vs := [h.pusVersion.setWidth 16, h.ackFlags.setWidth 16, h.serviceType.setWidth 16,
    h.subtype.setWidth 16, h.sourceId]) <| by
    simp only [tcBits, List.forall₂_cons, List.Forall₂.nil, toNat_setWidth_lt, BitVec.isLt, and_self]

theorem tmshToFv_inRange (h : TmHeader) : InRange (tmshToFv h) 0 tmBits :=
  inRange_flatMap_be16 (vs := [h.pusVersion.setWidth 16, h.timeRefStatus.setWidth 16, h.serviceType.setWidth 16,
    h.subtype.setWidth 16, h.msgTypeCounter, h.destinationId, h.coarseTime]) <| by
    simp only [tmBits, List.forall₂_cons, List.Forall₂.nil, toNat_setWidth_lt, BitVec.isLt, and_self]

theorem phOfFv_phToFv (h : PrimaryHeader) : phOfFv (phToFv h) = h := by
  simp [phOfFv, phToFv, container, u16beAt, byteAt, be16]

theorem tcshOfFv_tcshToFv (h : TcHeader) : tcshOfFv (tcshToFv h) = h := by
  simp [tcshOfFv, tcshToFv, container, u16beAt, byteAt, be16]

theorem tmshOfFv_tmshToFv (h : TmHeader) : tmshOfFv (tmshToFv h) = h := by
  simp [tmshOfFv, tmshToFv, container, u16beAt, byteAt, be16]

/-- Settles O29. -/
theorem returnedFieldVectorsAreInRange : Obligations.ReturnedFieldVectorsAreInRange :=
  ⟨fun h => ⟨phToFv_length h, phToFv_inRange h, phOfFv_phToFv h⟩,
    fun h => ⟨tcshToFv_length h, tcshToFv_inRange h, tcshOfFv_tcshToFv h⟩,
    fun h => ⟨tmshToFv_length h, tmshToFv_inRange h, tmshOfFv_tmshToFv h⟩⟩

/-! ### Headers -/

/-- Every field read back from the word of its fields one after the other (R121). -/
theorem phDecode_phEncode (h : PrimaryHeader) : phDecode (phEncode h) = h := by
  have hword : (byteAt (phEncode h) 0 ++ byteAt (phEncode h) 1 ++ byteAt (phEncode h) 2 ++ byteAt (phEncode h) 3 ++
      byteAt (phEncode h) 4 ++ byteAt (phEncode h) 5 : BitVec 48) =
      h.version ++ h.packetType ++ h.secHdrFlag ++ h.apid ++ h.seqFlags ++ h.seqCount ++ h.dataLength :=
    (bytes48 _).trans (phEncode_word h)
  simp only [phDecode, hword]
  obtain ⟨ver, type, sec, apid, sf, seq, dl⟩ := h
  have hver := ver.isLt
  have htype := type.isLt
  have hsec := sec.isLt
  have hapid := apid.isLt
  have hsf := sf.isLt
  have hseq := seq.isLt
  have hdl := dl.isLt
  simp only [PrimaryHeader.mk.injEq]
  refine ⟨?_, ?_, ?_, ?_, ?_, ?_, ?_⟩ <;>
  · apply BitVec.eq_of_toNat_eq
    simp only [BitVec.extractLsb'_toNat, toNat_append_eq, Nat.shiftRight_eq_div_pow]
    omega

/-- The two nibbles of a byte are the fields it was made of (R122). -/
theorem nibbles_split (x y : BitVec 4) :
    (x.setWidth 8 <<< 4 ||| y.setWidth 8 : Byte).extractLsb' 4 4 = x ∧
    (x.setWidth 8 <<< 4 ||| y.setWidth 8 : Byte).extractLsb' 0 4 = y := by
  have hx := x.isLt
  have hy := y.isLt
  rw [nibbles_byte]
  constructor <;>
  · apply BitVec.eq_of_toNat_eq
    simp only [BitVec.extractLsb'_toNat, BitVec.toNat_ofNat, Nat.shiftRight_eq_div_pow]
    omega

theorem tcshDecode_tcshEncode (t : TcHeader) : tcshDecode (tcshEncode t) = t := by
  obtain ⟨hver, hack⟩ := nibbles_split t.pusVersion t.ackFlags
  simp [tcshDecode, tcshEncode, byteAt, u16beAt, hver, hack]

end Sys2Proof.Machine
end

section
/-! De-framing undoes framing (42_framing.md R142), by the blocks that the framer writes. -/

namespace Sys2Proof.Machine

variable (T : Bool) {blk D rest : Bytes} {b : Byte}

/-- The loop of `cobs_frame` may stand with the pending block `blk` and the data `D` to come: a full block is pending only
at the end (R140). -/
abbrev PendingBlock (blk D : Bytes) : Prop := blk.length ≤ 253 ∨ blk.length = 254 ∧ D = []

theorem PendingBlock.nil : PendingBlock [] D := .inl (Nat.zero_le _)

theorem PendingBlock.length_le (h : PendingBlock blk D) : blk.length ≤ 254 := by omega

/-- What the loop does with the next byte: a 0x00 ends the block, a byte that fills it ends it where it must, and any other
byte joins it. -/
theorem cobsBody_cons_cases (h : PendingBlock blk (b :: D)) :
    (b = 0x00 ∧ blk.length < 254 ∧ cobsBody T blk (b :: D) = cobsBlock blk ++ cobsBody T [] D) ∨
    (b ≠ 0x00 ∧ (blk ++ [b]).length = 254 ∧ cobsBody T blk (b :: D) = cobsBlock (blk ++ [b]) ++ cobsBody T [] D) ∨
    (b ≠ 0x00 ∧ PendingBlock (blk ++ [b]) D ∧ cobsBody T blk (b :: D) = cobsBody T (blk ++ [b]) D) := by
  have hblk : blk.length ≤ 253 := h.resolve_right fun hfull => List.cons_ne_nil _ _ hfull.2
  by_cases hb : b = 0x00
  · exact .inl ⟨hb, by omega, by rw [cobsBody, if_pos hb]⟩
  · by_cases hfull : blk.length + 2 = 0xFF ∧ (T = true ∨ D ≠ [])
    · exact .inr (.inl ⟨hb, by simp; omega, by rw [cobsBody, if_neg hb, if_pos hfull]⟩)
    · refine .inr (.inr ⟨hb, ?_, by rw [cobsBody, if_neg hb, if_neg hfull]⟩)
      rw [PendingBlock, List.length_append, List.length_singleton]
      by_cases hD : D = []
      · exact (by omega : blk.length + 1 ≤ 253 ∨ blk.length + 1 = 254).imp_right fun hlen => ⟨hlen, hD⟩
      · have : blk.length + 2 ≠ 0xFF := fun hlen => hfull ⟨hlen, .inr hD⟩
        omega

theorem noZero_concat (hz : 0x00 ∉ blk) (hb : b ≠ 0x00) : 0x00 ∉ blk ++ [b] :=
  List.not_mem_append hz fun hm => hb (List.mem_singleton.mp hm).symm

/-- No byte of a frame before its terminator is 0x00 (R142). -/
theorem cobsBody_noZero (h : PendingBlock blk D) (hz : 0x00 ∉ blk) : 0x00 ∉ cobsBody T blk D := by
  induction D generalizing blk with
  | nil => exact cobsBlock_noZero h.length_le hz
  | cons b D ih =>
    have hrest : 0x00 ∉ cobsBody T [] D := ih .nil List.not_mem_nil
    obtain ⟨-, hlen, e⟩ | ⟨hb, hlen, e⟩ | ⟨hb, hnext, e⟩ := cobsBody_cons_cases T h <;> rw [e]
    · exact List.not_mem_append (cobsBlock_noZero hlen.le hz) hrest
    · exact List.not_mem_append (cobsBlock_noZero hlen.le (noZero_concat hz hb)) hrest
    · exact ih hnext (noZero_concat hz hb)

/-- A block in front of a body, read in the first round: the rounds left suffice for the rest. -/
theorem cobsDeframeBody_cobsBlock_append (hlen : blk.length ≤ 254) {n : Nat} (hn : (cobsBlock blk ++ rest).length ≤ n) :
    ∃ m, rest.length ≤ m ∧ cobsDeframeBody n (cobsBlock blk ++ rest) =
      (cobsDeframeBody m rest).map fun out => blk ++ (if blk.length < 254 ∧ rest ≠ [] then [0x00] else []) ++ out := by
  rw [List.length_append, cobsBlock_length] at hn
  obtain ⟨m, rfl⟩ : ∃ m, n = m + 1 := ⟨n - 1, by omega⟩
  exact ⟨m, by omega, cobsDeframeBody_block m hlen⟩

/-- The de-framer's loop gives back the pending block and the data to come. -/
theorem cobsDeframeBody_cobsBody (h : PendingBlock blk D) {n : Nat} (hn : (cobsBody T blk D).length ≤ n) :
    cobsDeframeBody n (cobsBody T blk D) = some (blk ++ D) := by
  induction D generalizing blk n with
  | nil =>
    rw [cobsBody, ← List.append_nil (cobsBlock blk)] at hn ⊢
    obtain ⟨m, -, e⟩ := cobsDeframeBody_cobsBlock_append h.length_le hn
    rw [e]
    simp [cobsDeframeBody]
  | cons b D ih =>
    obtain ⟨rfl, hlen, e⟩ | ⟨-, hlen, e⟩ | ⟨-, hnext, e⟩ := cobsBody_cons_cases T h <;> rw [e] at hn ⊢
    · obtain ⟨m, hm, e⟩ := cobsDeframeBody_cobsBlock_append hlen.le hn
      simp [e, ih .nil hm, hlen, cobsBody_ne_nil]
    · obtain ⟨m, hm, e⟩ := cobsDeframeBody_cobsBlock_append hlen.le hn
      rw [e, ih .nil hm]
      simp [hlen]
    · simp [ih hnext hn]

/-- De-framing a frame gives its packet, for both trailer settings (R142). -/
theorem cobsDeframe_cobsFrame (D : Bytes) : cobsDeframe (cobsFrame T D) = some D := by
  rw [cobsFrame_eq, cobsDeframe_terminated (cobsBody_ne_nil T [] D) (cobsBody_noZero T .nil List.not_mem_nil),
    cobsDeframeBody_cobsBody T .nil le_rfl, List.nil_append]

end Sys2Proof.Machine
end

section
/-! A telecommand built as 30_encoding.md R70 lays it out passes the checks of TC ingest (43_packets.md R175). -/

namespace Sys2Proof.Machine

open Sys2Proof.Claims

@[simp] theorem withTrailer_length (body : Bytes) : (withTrailer body).length = body.length + 2 := by
  simp [withTrailer]

@[simp] theorem withTrailer_take (body : Bytes) : (withTrailer body).take body.length = body := List.take_left' rfl

/-- The trailer read back is the CRC of what it follows (R70). -/
@[simp] theorem withTrailer_u16beAt (body : Bytes) : u16beAt (withTrailer body) body.length = crc16 body := by
  simp [u16beAt, byteAt, withTrailer, be16]

/-- A packet of a primary header and what follows it, with a consistent length that fits, passes every check. -/
theorem tcIngestPacket_withTrailer {cfg : Config} {ph : PrimaryHeader} {rest : Bytes}
    (hlen : ph.dataLength.toNat = rest.length + 1) (hmax : rest.length + 8 ≤ cfg.maxPacket)
    (hsec : ph.secHdrFlag = 1 → 5 ≤ rest.length) :
    tcIngestPacket cfg (withTrailer (phEncode ph ++ rest)) =
      .ok (if ph.secHdrFlag = 1 then ⟨ph, some (tcshDecode (rest.take 5)), rest.drop 5⟩ else ⟨ph, none, rest⟩) := by
  have hbody : (phEncode ph ++ rest).length = 6 + rest.length := by simp
  have hD : (withTrailer (phEncode ph ++ rest)).length = rest.length + 8 := by simp; omega
  have hsplit : withTrailer (phEncode ph ++ rest) = phEncode ph ++ (rest ++ be16 (crc16 (phEncode ph ++ rest))) :=
    List.append_assoc _ _ _
  have hph : (withTrailer (phEncode ph ++ rest)).take 6 = phEncode ph := by
    rw [hsplit, List.take_left' (phEncode_length ph)]
  have htc (h : ph.secHdrFlag = 1) : ((withTrailer (phEncode ph ++ rest)).drop 6).take 5 = rest.take 5 := by
    rw [hsplit, List.drop_left' (phEncode_length ph), List.take_append_of_le_length (hsec h)]
  have hL : ph.dataLength.toNat + 7 - 2 = (phEncode ph ++ rest).length := by omega
  simp only [tcIngestPacket, hph, phDecode_phEncode, hL, withTrailer_take, withTrailer_u16beAt]
  rw [if_neg (by omega), if_neg (by omega), if_neg (by omega), if_neg (by omega), if_neg (by omega),
    if_neg fun h => by have := hsec h.1; omega, if_neg (not_not.mpr rfl)]
  by_cases h : ph.secHdrFlag = 1
  · rw [if_pos h, if_pos h, htc h]
    rfl
  · rw [if_neg h, if_neg h]
    rfl

/-- TC.INGEST of a packet's frame, where the packet is accepted (R177). -/
theorem answers_tcIngest_cobsFrame {T : Bool} {D : Bytes} {s : State} {v : ValidatedTc}
    (h : tcIngestPacket s.cfg D = .ok v) : AnswersWithCrc (.tcIngest (cobsFrame T D)) s ⟨.ok, v.bytes⟩ := by
  have hv : tcIngest s.cfg (cobsFrame T D) = .ok v := by
    simp only [tcIngest, cobsDeframe_cobsFrame, h]
  refine ⟨Config.crcBetween s.crcTick, s.crcTick + 1, ?_⟩
  simp only [exec, execTcIngest, hv]
  rfl

/-- Settles O49: the frame gives the packet back, the packet passes the checks, and its headers decode to what was
encoded. -/
theorem wellFormedTelecommandIsIngested : Obligations.WellFormedTelecommandIsIngested := by
  refine ⟨fun T ph tc payload s hsec hlen hmax => ?_, fun T ph payload s hsec hlen hmax => ?_⟩
  · have hv := tcIngestPacket_withTrailer (cfg := s.cfg) (ph := ph) (rest := tcshEncode tc ++ payload)
      (by simp; omega) (by simp; omega) (by simp)
    rw [if_pos hsec, List.take_left' (tcshEncode_length tc), List.drop_left' (tcshEncode_length tc),
      tcshDecode_tcshEncode] at hv
    simpa [ValidatedTc.bytes] using answers_tcIngest_cobsFrame (T := T) hv
  · have hne : ph.secHdrFlag ≠ 1 := by simp [hsec]
    have hv := tcIngestPacket_withTrailer (cfg := s.cfg) hlen hmax fun h => absurd h hne
    rw [if_neg hne] at hv
    simpa [ValidatedTc.bytes] using answers_tcIngest_cobsFrame (T := T) hv

end Sys2Proof.Machine
end

section
/-! Noninterference of ACK_BIT_ORDER (00_scope.md R6, 30_encoding.md R67): every instruction does the same under the other
numbering. -/

namespace Sys2Proof.Machine

/-- The same state but for the ACK numbering. -/
def State.withAckOrder (o : AckBitOrder) (s : State) : State := { s with cfg := { s.cfg with ackBitOrder := o } }

/-- Both results are next states, the second with the ACK numbering `o`. -/
def SameButAckOrder (o : AckBitOrder) (x y : Result) : Prop := ∃ t, x = .next t ∧ y = .next (t.withAckOrder o)

namespace SameButAckOrder

variable {o : AckBitOrder} {x x' y y' : Result} {op fv : Bytes} {s : State} {m : Nat} {ws : List Nat}

theorem next (s : State) : SameButAckOrder o (.next s) (.next (s.withAckOrder o)) :=
  ⟨s, rfl, rfl⟩

/-- A branch whose condition does not read the numbering. -/
theorem ite (p : Prop) [Decidable p] (hx : SameButAckOrder o x y) (hx' : SameButAckOrder o x' y') :
    SameButAckOrder o (if p then x else x') (if p then y else y') := by
  by_cases hp : p
  · simpa only [if_pos hp] using hx
  · simpa only [if_neg hp] using hx'

theorem minLen (h : SameButAckOrder o x y) :
    SameButAckOrder o (withMinLen m op s x) (withMinLen m op (s.withAckOrder o) y) :=
  .ite _ (.next _) h

theorem fixedLen (h : SameButAckOrder o x y) :
    SameButAckOrder o (withFixedLen m op s x) (withFixedLen m op (s.withAckOrder o) y) :=
  .ite _ (.next _) (.ite _ (.next _) h)

theorem range (h : SameButAckOrder o x y) :
    SameButAckOrder o (withRange fv ws s x) (withRange fv ws (s.withAckOrder o) y) :=
  .ite _ h (.next _)

theorem tmPacket {f g : Bytes → Result} (h : ∀ pkt, SameButAckOrder o (f pkt) (g pkt)) :
    SameButAckOrder o (withTmPacket op s f) (withTmPacket op (s.withAckOrder o) g) := by
  refine .minLen (.range (.range ?_))
  rw [show tmAssemble (s.withAckOrder o).cfg = tmAssemble s.cfg from rfl]
  cases tmAssemble s.cfg (phOfFv op) (tmshOfFv (op.drop 14)) (op.drop 28) with
  | error st => exact .next _
  | ok pkt => exact h pkt

end SameButAckOrder

/-- Every instruction does the same under the numbering `o`. -/
theorem exec_sameButAckOrder (o : AckBitOrder) (i : Instr) (s : State) :
    SameButAckOrder o (exec i s) (exec i (s.withAckOrder o)) := by
  cases i with
  | crcCompute op => exact .next _
  | crcUpdate op => exact .minLen (.next _)
  | crcValidate op => exact .minLen (.ite _ (.next _) (.next _))
  | crcAppend op => exact .ite _ (.next _) (.next _)
  | phEncode op => exact .fixedLen (.range (.next _))
  | phDecode op => exact .fixedLen (.next _)
  | tcshEncode op => exact .fixedLen (.range (.next _))
  | tcshDecode op => exact .fixedLen (.next _)
  | tmshEncode op => exact .fixedLen (.range (.next _))
  | tmshDecode op => exact .fixedLen (.next _)
  | cobsFrame op => exact .ite _ (.next _) (.next _)
  | cobsDeframe op =>
    simp only [exec, execCobsDeframe]
    cases cobsDeframe op with
    | none => exact .next _
    | some D => exact .next _
  | rxPop op =>
    refine .ite _ (.next _) ?_
    rw [show (s.withAckOrder o).rxq = s.rxq from rfl]
    cases s.rxq with
    | nil => exact .next _
    | cons F q => exact .next _
  | rxStatus op => exact .ite _ (.next _) (.next _)
  | tmAssemble op => exact .tmPacket fun pkt => .next _
  | tmSend op => exact .tmPacket fun pkt => .next _
  | tcIngest op =>
    simp only [exec, execTcIngest]
    rw [show tcIngest (s.withAckOrder o).cfg = tcIngest s.cfg from rfl]
    cases tcIngest s.cfg op with
    | ok v => exact .next _
    | error st => cases st <;> exact .next _
  | rxByte b =>
    simp only [exec, execRxByte, rxDelimiter, rxData, apply_ite Host.Outcome.next, apply_ite (State.setAcc · [])]
    exact .ite _ (.ite _ (.next _) (.ite _ (.next _) (.ite _ (.next _) (.next _))))
      (.ite _ (.next _) (.ite _ (.next _) (.next _)))

/-- Settles O57. -/
theorem ackBitOrderNeverMatters : Obligations.AckBitOrderNeverMatters := by
  refine ⟨⟨rfl, rfl⟩, fun i s t o h => ?_⟩
  obtain ⟨u, hu, hnext⟩ := exec_sameButAckOrder o i s
  cases hu.symm.trans h
  exact hnext

end Sys2Proof.Machine
end

section
/-! The assembler (30_encoding.md R86 to R88): the order of the operands does not matter, and RX.RECEIVE. -/

namespace Sys2Proof.Machine

open Sys2Proof.Claims

variable {keys : List AsmName} {fields fields' : List (AsmName × Nat)} {fv : Bytes} {k : AsmName} {vs : List Nat}

/-! ### The order of the operands (R86, R87) -/

/-- A key's value does not depend on the order of the operands, where no key comes twice. -/
theorem lookup_perm (hperm : fields.Perm fields') (hnodup : (fields.map Prod.fst).Nodup) (k : AsmName) :
    fields.lookup k = fields'.lookup k := by
  have hnodup' : (fields'.map Prod.fst).Nodup := (hperm.map Prod.fst).nodup hnodup
  ext v
  rw [lookup_eq_some_iff hnodup, lookup_eq_some_iff hnodup', hperm.mem_iff]

/-- Reordered operands assemble to the same field vector. -/
theorem asmFv_perm (hperm : fields.Perm fields') (h : asmFv keys fields = .ok fv) : asmFv keys fields' = .ok fv := by
  obtain ⟨hkeys, hnodup, hvalues, rfl⟩ := (asmFv_eq_ok_iff keys fields fv).mp h
  have hnames := hperm.map Prod.fst
  refine (asmFv_eq_ok_iff keys fields' _).mpr
    ⟨fun k hk => hkeys k (hnames.mem_iff.mpr hk), hnames.nodup hnodup, fun k hk => ?_, ?_⟩
  · obtain ⟨v, hv, hlt⟩ := hvalues k hk
    exact ⟨v, hperm.mem_iff.mp hv, hlt⟩
  · simp only [lookup_perm hperm hnodup]

/-- An assembled field vector is one container a key, in FV order. -/
theorem asmFv_containers (h : asmFv keys fields = .ok fv) :
    fv = (keys.map fun k => BitVec.ofNat 16 ((fields.lookup k).getD 0)).flatMap be16 := by
  obtain ⟨-, -, -, rfl⟩ := (asmFv_eq_ok_iff keys fields fv).mp h
  rw [List.flatMap_map]
  rfl

theorem asmFv_length (h : asmFv keys fields = .ok fv) : fv.length = 2 * keys.length := by
  rw [asmFv_containers h]
  simp [List.length_flatMap, Function.comp_def, Nat.mul_comm]

/-- Container `j` holds the value assigned to key `j`. -/
theorem asmFv_num16 (h : asmFv keys fields = .ok fv) {j : Nat} (hk : keys[j]? = some k) :
    ∃ v, (k, v) ∈ fields ∧ num16 fv (2 * j) = v := by
  obtain ⟨-, hnodup, hvalues, -⟩ := (asmFv_eq_ok_iff keys fields fv).mp h
  obtain ⟨v, hv, hlt⟩ := hvalues k (List.mem_of_getElem? hk)
  refine ⟨v, hv, ?_⟩
  rw [← container_eq_num16, asmFv_containers h, container_flatMap_be16]
  simp [List.getD_eq_getElem?_getD, hk, (lookup_eq_some_iff hnodup k v).mpr hv, Nat.mod_eq_of_lt hlt]

theorem asmFv_missingKey (hk : k ∈ keys) (hmissing : k ∉ fields.map Prod.fst) (fv : Bytes) :
    asmFv keys fields ≠ .ok fv := by
  intro h
  obtain ⟨-, -, hvalues, -⟩ := (asmFv_eq_ok_iff keys fields fv).mp h
  obtain ⟨v, hv, -⟩ := hvalues k hk
  exact hmissing (List.mem_map_of_mem hv)

/-! ### The encode lines (R87) -/

/-- The two bytes of a container as the statements write them. -/
theorem be16Nat_eq (v : Nat) : be16Nat v = [byte (v / 256), byte v] := by
  rw [be16Nat, be16_bytes]
  simp only [List.cons.injEq, and_true]
  constructor <;>
  · apply BitVec.eq_of_toNat_eq
    simp only [byte, BitVec.toNat_ofNat]
    omega

theorem fieldVector_length (vs : List Nat) : (fieldVector vs).length = 2 * vs.length := by
  simp [fieldVector, List.length_flatMap, Nat.mul_comm]

/-- Keys looked up in their own assignment give the values in order. -/
theorem map_lookup_zip (hnodup : keys.Nodup) (hlen : vs.length = keys.length) :
    (keys.map fun k => ((keys.zip vs).lookup k).getD 0) = vs := by
  have hnames : ((keys.zip vs).map Prod.fst).Nodup := by rwa [List.map_fst_zip hlen.ge]
  refine List.ext_getElem (by simp [hlen]) fun i hi hi' => ?_
  have hzip : i < (keys.zip vs).length := by simpa [hlen] using hi'
  have hmem : (keys[i], vs[i]) ∈ keys.zip vs := List.getElem_zip (h := hzip) ▸ List.getElem_mem hzip
  rw [List.getElem_map, (lookup_eq_some_iff hnames _ _).mpr hmem, Option.getD_some]

/-- Values written in FV order assemble to their field vector. -/
theorem asmFv_zip (hnodup : keys.Nodup) (hlen : vs.length = keys.length) (hvs : ∀ v ∈ vs, v < 65536) :
    asmFv keys (keys.zip vs) = .ok (fieldVector vs) := by
  have hnames : (keys.zip vs).map Prod.fst = keys := List.map_fst_zip hlen.ge
  refine (asmFv_eq_ok_iff _ _ _).mpr ⟨by simp [hnames], by rwa [hnames], fun k hk => ?_, ?_⟩
  · rw [← hnames] at hk
    obtain ⟨⟨_, v⟩, hmem, rfl⟩ := List.mem_map.mp hk
    exact ⟨v, hmem, hvs v (List.of_mem_zip hmem).2⟩
  · calc fieldVector vs
      _ = vs.flatMap be16Nat := by rw [funext be16Nat_eq, fieldVector]
      _ = (keys.map fun k => ((keys.zip vs).lookup k).getD 0).flatMap be16Nat := by rw [map_lookup_zip hnodup hlen]
      _ = keys.flatMap fun k => be16Nat (((keys.zip vs).lookup k).getD 0) := List.flatMap_map ..

/-- An encode mnemonic assembles the field vector of its keys. -/
theorem assemble_encodeLine {line : String × (Bytes → Instr) × List String} (hline : line ∈ encodeLines)
    (os : List AsmOperand) :
    assemble line.1.toList os = asmInstr line.2.1 (asmKeys (line.2.2.map String.toList) (sortOperands os)) ∧
      (line.2.2.map String.toList).Nodup ∧ line.2.2.length ≤ 7 := by
  simp only [encodeLines, List.mem_cons, List.not_mem_nil, or_false] at hline
  obtain rfl | rfl | rfl := hline
  · exact ⟨rfl, by decide, by decide⟩
  · exact ⟨rfl, by decide, by decide⟩
  · exact ⟨rfl, by decide, by decide⟩

/-- Settles O60: what assembles is a reordering of the values written in FV order. -/
theorem assemblerOrderDoesNotMatter : Obligations.AssemblerOrderDoesNotMatter := by
  refine ⟨fun keys fields fields' fv hperm h => ⟨asmFv_perm hperm h, asmFv_length h, fun j k => asmFv_num16 h⟩,
    fun keys fields k fv hk hmissing => asmFv_missingKey hk hmissing fv, fun line hline vs fields hlen hvs hperm => ?_⟩
  obtain ⟨hassemble, hnodup, hkeys⟩ := assemble_encodeLine hline (fields.map fun p => .assign p.1 p.2)
  have hfv : asmFv (line.2.2.map String.toList) fields = .ok (fieldVector vs) :=
    asmFv_perm hperm.symm (asmFv_zip hnodup (by simp [hlen]) hvs)
  have hfits : ¬ (fieldVector vs).length > 65535 := by
    rw [fieldVector_length]
    omega
  rw [hassemble, sortOperands_assigns]
  simp only [asmKeys, hfv, asmInstr, if_neg hfits]

/-! ### RX.RECEIVE (R88) -/

/-- RX.POP on an empty queue (42_framing.md R152). -/
theorem execRxPop_empty {s : State} (hq : s.rxq = []) : execRxPop [] s = raise s .empty := by simp [execRxPop, hq]

/-- Settles O59: by the two outcomes of RX.POP. -/
theorem rxReceiveIngestsTheOldestFrame : Obligations.RxReceiveIngestsTheOldestFrame := by
  refine fun s => ⟨fun hq => ?_, fun F q hq => ?_⟩
  · simp only [runItem, runReceive, exec, execRxPop_empty hq, raise_eq, State.respond_responses, List.getLast?_concat,
      afterPop]
    rfl
  · simp only [runItem, runReceive, exec, execRxPop_queued hq, finish_eq, State.respond_responses, List.getLast?_concat,
      afterPop]
    rfl

end Sys2Proof.Machine
end

section
/-! The CRC kernel (40_crc.md R100 to R103, R108, R109): its byte-wise form, the residue of a byte sequence with its
trailer, and what one wrong byte does to it. -/

namespace Sys2Proof.Machine

open Sys2Proof.Claims

/-! ### The byte-wise form (R102) -/

/-- A shift of the byte-wise form on a register whose high byte carries data bits still to come. -/
theorem crcShift_highByte (c : Half) (b : Byte) :
    crcShift (c ^^^ (b.setWidth 16 <<< 8)) = crcBit c (b.getLsbD 7) ^^^ ((b <<< 1).setWidth 16 <<< 8) :=
  (crcShift_eq _).trans (crcBit_highByte c b)

/-- One byte (R102): each shift takes the data bit that stands in the register's top, and eight shifts use the byte up. -/
theorem crcByteWise_eq (c : Half) (b : Byte) : crcByteWise c b = crcByte c b := by
  have hused : b <<< 8 = 0 := BitVec.shiftLeft_eq_zero le_rfl
  simp only [crcByteWise, Nat.repeat, crcShift_highByte, ← BitVec.shiftLeft_add, BitVec.getLsbD_shiftLeft]
  simp [crcByte_eq, hused]

/-- Settles O18: byte by byte. -/
theorem byteWiseCrcEqualsBitSerialCrc : Obligations.ByteWiseCrcEqualsBitSerialCrc := by
  have hbyte : crcByteWise = crcByte := funext₂ crcByteWise_eq
  intro c D
  rw [hbyte]
  rfl

/-! ### The residue (R108) -/

/-- A register whose high byte is clear is shifted up without feedback. -/
theorem repeat_crcShift_lowByte (b : Byte) {n : Nat} (hn : n ≤ 8) :
    Nat.repeat crcShift n (b.setWidth 16) = b.setWidth 16 <<< n := by
  induction n with
  | zero => exact (BitVec.shiftLeft_zero _).symm
  | succ n ih =>
    have htop : (b.setWidth 16 <<< n : Half).getLsbD 15 = false := by
      have hbyte : b.getLsbD (15 - n) = false := BitVec.getLsbD_of_ge b _ (by omega)
      simp [hbyte]
    rw [Nat.repeat, ih (by omega), crcShift, htop, if_neg Bool.false_ne_true, ← BitVec.shiftLeft_add]

/-- Taking in the register's own high byte leaves its low byte, shifted up. -/
theorem crcByte_highByte (hi lo : Byte) : crcByte (u16be hi lo) hi = lo.setWidth 16 <<< 8 := by
  have hclear : u16be hi lo ^^^ (hi.setWidth 16 <<< 8) = lo.setWidth 16 := by
    unfold u16be
    ext i hi16
    simp only [BitVec.getElem_xor, BitVec.getElem_append, BitVec.getElem_shiftLeft, BitVec.getElem_setWidth]
    by_cases h8 : i < 8
    · simp [h8, BitVec.getLsbD_eq_getElem]
    · have hi8 : i - 8 < 8 := by omega
      have hlo : lo.getLsbD i = false := BitVec.getLsbD_of_ge lo i (by omega)
      simp [h8, hlo, BitVec.getLsbD_eq_getElem hi8]
  rw [← crcByteWise_eq, crcByteWise, hclear, repeat_crcShift_lowByte lo le_rfl]

/-- A register that takes in its own two bytes is left at zero (R108). -/
theorem crcUpdate_be16_self (c : Half) : crcUpdate c (be16 c) = 0 := by
  obtain ⟨hi, lo, rfl⟩ : ∃ hi lo, c = u16be hi lo := ⟨_, _, (u16be_be16 c).symm⟩
  rw [be16_u16be, crcUpdate_cons, crcUpdate_cons, crcUpdate_nil, crcByte_highByte, ← crcByteWise_eq, crcByteWise,
    BitVec.xor_self]
  rfl

/-- A sequence and two bytes behind it leave the residue zero exactly when the bytes are the sequence's CRC. -/
theorem crc16_append_be16_eq_zero_iff (body : Bytes) (received : Half) :
    crc16 (body ++ be16 received) = 0 ↔ crc16 body = received := by
  have hsplit : crc16 (body ++ be16 received) = crcUpdate (crc16 body) (be16 received) := crcUpdate_append _ _ _
  rw [hsplit, ← crcUpdate_be16_self received]
  exact ⟨crcUpdate_injective _, fun h => by rw [h]⟩

/-- The last two bytes of a sequence, read as a number and written again (20_memory.md R49, R50). -/
theorem take_append_be16_u16beAt {op : Bytes} (h : 2 ≤ op.length) :
    op.take (op.length - 2) ++ be16 (u16beAt op (op.length - 2)) = op := by
  have hdrop : op.drop (op.length - 2) = be16 (u16beAt op (op.length - 2)) := by
    rw [u16beAt, be16_u16be]
    have hlast : op.length - 2 + 1 < op.length := by omega
    have hend : op.drop (op.length - 2 + 1 + 1) = [] := List.drop_of_length_le (by omega)
    rw [List.drop_eq_getElem_cons (Nat.lt_of_succ_lt hlast), List.drop_eq_getElem_cons hlast, hend]
    simp [byteAt, hlast, Nat.lt_of_succ_lt hlast]
  rw [← hdrop, List.take_append_drop]

/-- A sequence ends in the CRC of what stands before exactly when its residue is zero. -/
theorem crc16_take_eq_u16beAt_iff {op : Bytes} (h : 2 ≤ op.length) :
    crc16 (op.take (op.length - 2)) = u16beAt op (op.length - 2) ↔ crc16 op = 0 := by
  rw [← crc16_append_be16_eq_zero_iff, take_append_be16_u16beAt h]

/-! ### One wrong byte (R109) -/

/-- Shifts of the byte-wise form lose nothing of the register. -/
theorem repeat_crcShift_injective (n : Nat) {c d : Half} (h : Nat.repeat crcShift n c = Nat.repeat crcShift n d) :
    c = d := by
  induction n with
  | zero => exact h
  | succ n ih =>
    rw [Nat.repeat, Nat.repeat, crcShift_eq, crcShift_eq] at h
    exact ih (crcBit_injective h)

/-- For a fixed register the kernel loses nothing of the byte. -/
theorem crcByte_byte_injective {c : Half} {a b : Byte} (h : crcByte c a = crcByte c b) : a = b := by
  rw [← crcByteWise_eq, ← crcByteWise_eq] at h
  have hhigh : a.setWidth 16 <<< 8 = (b.setWidth 16 <<< 8 : Half) :=
    (BitVec.xor_right_inj c).mp (repeat_crcShift_injective 8 h)
  apply BitVec.eq_of_getLsbD_eq
  intro i hi
  have hbit := congrArg (·.getLsbD (i + 8)) hhigh
  simpa [hi, show i + 8 < 16 by omega] using hbit

/-- Another byte in one place gives another CRC. -/
theorem crc16_ne_of_byte_ne (A C : Bytes) {a b : Byte} (h : a ≠ b) : crc16 (A ++ a :: C) ≠ crc16 (A ++ b :: C) := by
  intro hcrc
  simp only [crc16, crcUpdate_append, crcUpdate_cons] at hcrc
  exact h (crcByte_byte_injective (crcUpdate_injective C hcrc))

theorem xor_bit_ne (b : Byte) {j : Nat} (hj : j < 8) : b ^^^ BitVec.ofNat 8 (2 ^ j) ≠ b := by
  have hbit : BitVec.ofNat 8 (2 ^ j) ≠ 0 := by interval_cases j <;> decide
  simpa using hbit

@[simp] theorem flipBit_length (B : Bytes) (k j : Nat) : (flipBit B k j).length = B.length := List.length_modify ..

/-- Any one bit inverted changes the CRC. -/
theorem crc16_flipBit_ne {B : Bytes} {k j : Nat} (hk : k < B.length) (hj : j < 8) :
    crc16 (flipBit B k j) ≠ crc16 B := by
  obtain ⟨A, b, C, hB, -, hflip⟩ := List.exists_of_modify (fun b => b ^^^ BitVec.ofNat 8 (2 ^ j)) hk
  rw [flipBit, hflip, hB]
  exact crc16_ne_of_byte_ne A C (xor_bit_ne b hj)

end Sys2Proof.Machine
end

section
/-! The CRC commands (40_crc.md R104 to R109). -/

namespace Sys2Proof.Machine

open Sys2Proof.Claims

variable {i : Instr} {s : State} {st : Status} {op R : Bytes}

/-- A row of the opcode map, from the decoder's table. -/
theorem encodedAs_of_decodeOpcode {opc : Byte} {mk : Bytes → Instr} (h : ∀ op, decodeOpcode opc op = some (mk op)) :
    EncodedAs opc mk := by
  refine fun op hop => ⟨decodeCommand_of_decodeOpcode hop (h op), fun rsv hrsv => ?_⟩
  rw [decodeCommand_portBytes opc rsv op hop]
  exact if_pos hrsv

theorem answers_of_raise (h : exec i s = raise s st) : Answers i s ⟨st, []⟩ := h

theorem answersWithCrc_of_raise (h : exec i s = raise s st) : AnswersWithCrc i s ⟨st, []⟩ := ⟨s.crc, s.crcTick, h⟩

theorem answersWithCrc_of_raise_releaseCrc (h : exec i s = raise s.releaseCrc st) : AnswersWithCrc i s ⟨st, []⟩ :=
  ⟨_, _, h⟩

theorem answersWithCrc_of_finish_releaseCrc (h : exec i s = finish s.releaseCrc R) : AnswersWithCrc i s ⟨.ok, R⟩ :=
  ⟨_, _, h⟩

/-- Settles O14. -/
theorem crcComputeAnswersTheCrc : Obligations.CrcComputeAnswersTheCrc :=
  ⟨encodedAs_of_decodeOpcode fun _ => rfl,
    fun op s => answersWithCrc_of_finish_releaseCrc (execCrcCompute_next op s)⟩

/-- An operand that carries a seed is long enough for CRC.UPDATE. -/
theorem two_le_length_be16_append (v : Half) (D : Bytes) : 2 ≤ (be16 v ++ D).length := by simp

/-- The seed of CRC.UPDATE is read back from its two bytes (R105). -/
theorem u16beAt_be16_append (v : Half) (D : Bytes) : u16beAt (be16 v ++ D) 0 = v := u16be_be16 v

/-- Settles O15: the seed and the data are read back from the operand, and the CRC of a concatenation goes on from the
first part's. -/
theorem crcUpdateContinuesTheCrc : Obligations.CrcUpdateContinuesTheCrc := by
  refine ⟨encodedAs_of_decodeOpcode fun _ => rfl, fun op s hlen => ?_, fun seed D s => ?_,
    fun A B => (crcUpdate_append _ A B).symm⟩
  · obtain ⟨-, e⟩ | ⟨henough, -⟩ := execCrcUpdate_cases op s
    · exact answers_of_raise e
    · omega
  · obtain ⟨hshort, -⟩ | ⟨-, e⟩ := execCrcUpdate_cases (be16 seed ++ D) s
    · exact absurd (two_le_length_be16_append seed D) (Nat.not_le.mpr hshort)
    · rw [u16beAt_be16_append, List.drop_left' (be16_length seed)] at e
      exact answersWithCrc_of_finish_releaseCrc e

/-- CRC.VALIDATE accepts an operand whose residue is zero (R106, R108). -/
theorem crcValidate_accepts (hlen : 2 ≤ op.length) (h : crc16 op = 0) :
    AnswersWithCrc (.crcValidate op) s ⟨.ok, []⟩ := by
  obtain ⟨hshort, -⟩ | ⟨-, hne, -⟩ | ⟨-, -, e⟩ := execCrcValidate_cases op s
  · omega
  · exact absurd ((crc16_take_eq_u16beAt_iff hlen).mpr h) hne
  · exact answersWithCrc_of_finish_releaseCrc e

/-- CRC.VALIDATE rejects an operand whose residue is not zero (R106, R108). -/
theorem crcValidate_rejects (hlen : 2 ≤ op.length) (h : crc16 op ≠ 0) :
    AnswersWithCrc (.crcValidate op) s ⟨.checksumMismatch, []⟩ := by
  obtain ⟨hshort, -⟩ | ⟨-, -, e⟩ | ⟨-, heq, -⟩ := execCrcValidate_cases op s
  · omega
  · exact answersWithCrc_of_raise_releaseCrc e
  · exact absurd ((crc16_take_eq_u16beAt_iff hlen).mp heq) h

/-- An operand that carries a trailer is long enough for CRC.VALIDATE. -/
theorem two_le_length_append_be16 (body : Bytes) (v : Half) : 2 ≤ (body ++ be16 v).length := by simp

/-- CRC.VALIDATE accepts a sequence with its own CRC behind it, of any length (R108). -/
theorem crcValidate_appended (D : Bytes) (s : State) :
    AnswersWithCrc (.crcValidate (D ++ be16 (crc16 D))) s ⟨.ok, []⟩ :=
  crcValidate_accepts (two_le_length_append_be16 _ _) ((crc16_append_be16_eq_zero_iff D _).mpr rfl)

/-- Settles O16: the trailer is the CRC of the rest exactly when the residue is zero. -/
theorem crcValidateComparesTheTrailer : Obligations.CrcValidateComparesTheTrailer := by
  refine ⟨encodedAs_of_decodeOpcode fun _ => rfl, fun op s hlen => ?_, fun body received s hne => ?_,
    fun body received s heq => ?_⟩
  · obtain ⟨-, e⟩ | ⟨henough, -⟩ | ⟨henough, -⟩ := execCrcValidate_cases op s
    · exact answers_of_raise e
    · omega
    · omega
  · exact crcValidate_rejects (two_le_length_append_be16 _ _) ((crc16_append_be16_eq_zero_iff body received).not.mpr hne)
  · subst heq
    exact crcValidate_appended body s

/-- Settles O17. -/
theorem crcAppendAddsTheTrailer : Obligations.CrcAppendAddsTheTrailer := by
  refine ⟨encodedAs_of_decodeOpcode fun _ => rfl, fun op s hlong => ?_,
    fun op s hfits => ⟨?_, crcValidate_appended op s⟩⟩
  · obtain ⟨-, e⟩ | ⟨hfits, -⟩ := execCrcAppend_cases op s
    · exact answers_of_raise e
    · omega
  · obtain ⟨hlong, -⟩ | ⟨-, e⟩ := execCrcAppend_cases op s
    · omega
    · exact answersWithCrc_of_finish_releaseCrc e

/-- Settles O19. -/
theorem appendedCrcLeavesZeroResidue : Obligations.AppendedCrcLeavesZeroResidue :=
  fun D s _ => ⟨crcValidate_appended D s, crcUpdate_be16_self (crc16 D)⟩

/-- Settles O20: the residue was zero, and an inverted bit changes it. -/
theorem singleBitErrorIsDetected : Obligations.SingleBitErrorIsDetected := by
  intro D k j s hk hj
  have hzero : crc16 (D ++ be16 (crc16 D)) = 0 := (crc16_append_be16_eq_zero_iff D _).mpr rfl
  have hflip : crc16 (flipBit (D ++ be16 (crc16 D)) k j) ≠ 0 := hzero ▸ crc16_flipBit_ne (by simpa using hk) hj
  exact crcValidate_rejects (by simp) hflip

end Sys2Proof.Machine
end

section
/-! TC ingest rejects every single-bit error (40_crc.md R109, 43_packets.md R175, R178). -/

namespace Sys2Proof.Machine

open Sys2Proof.Claims

variable {cfg : Config} {D D' : Bytes} {v : ValidatedTc}

/-- The checks of TC ingest before its CRC check pass: steps (2) to (8), all on lengths and the primary header (R175). -/
structure PassesLengthChecks (cfg : Config) (D : Bytes) : Prop where
  length_eq : D.length = (phDecode (D.take 6)).dataLength.toNat + 7
  le_max : D.length ≤ cfg.maxPacket
  eight_le : 8 ≤ D.length
  secHdr_fits : (phDecode (D.take 6)).secHdrFlag = 1 → 13 ≤ D.length

/-- What TC ingest accepts passed every check, the CRC check with a zero residue (R108, R175). -/
theorem tcIngestPacket_ok (h : tcIngestPacket cfg D = .ok v) : PassesLengthChecks cfg D ∧ crc16 D = 0 := by
  simp only [tcIngestPacket] at h
  split_ifs at h with h6 hshort hlong hmax hmin hsec hcrc hflag
  all_goals
    have hL : D.length = (phDecode (D.take 6)).dataLength.toNat + 7 := by omega
    rw [← hL] at hmax hmin hsec hcrc
    exact ⟨⟨hL, Nat.not_lt.mp hmax, Nat.not_lt.mp hmin, fun hone => Nat.not_lt.mp fun hlt => hsec ⟨hone, hlt⟩⟩,
      (crc16_take_eq_u16beAt_iff (by omega)).mp (not_not.mp hcrc)⟩

/-- A packet that passes the length checks with another residue fails the CRC check (R175). -/
theorem tcIngestPacket_checksumMismatch (h : PassesLengthChecks cfg D) (hcrc : crc16 D ≠ 0) :
    tcIngestPacket cfg D = .error .checksumMismatch := by
  obtain ⟨hL, hmax, hmin, hsec⟩ := h
  have hne : crc16 (D.take (D.length - 2)) ≠ u16beAt D (D.length - 2) :=
    (crc16_take_eq_u16beAt_iff (by omega)).not.mpr hcrc
  simp only [tcIngestPacket, ← hL]
  rw [if_neg (by omega), if_neg (by omega), if_neg (by omega), if_neg (by omega), if_neg (by omega),
    if_neg fun h => by have := hsec h.1; omega, if_pos hne]

/-- The length checks look at the length and the primary header only (R135). -/
theorem PassesLengthChecks.congr (h : PassesLengthChecks cfg D) (hlen : D'.length = D.length)
    (hhead : D'.take 6 = D.take 6) : PassesLengthChecks cfg D' where
  length_eq := by rw [hlen, hhead, h.length_eq]
  le_max := hlen ▸ h.le_max
  eight_le := hlen ▸ h.eight_le
  secHdr_fits := by rw [hlen, hhead]; exact h.secHdr_fits

/-- A bit behind the primary header is none of its bits. -/
theorem flipBit_take_six {k : Nat} (hk : 6 ≤ k) (j : Nat) : (flipBit D k j).take 6 = D.take 6 := by
  rw [flipBit, List.take_modify, List.modify_eq_self]
  exact (List.length_take_le 6 D).trans hk

/-- Step (1) of TC ingest takes the frame of a packet off (R175). -/
theorem tcIngest_cobsFrame (T : Bool) (cfg : Config) (D : Bytes) :
    tcIngest cfg (cobsFrame T D) = tcIngestPacket cfg D := by
  rw [tcIngest, cobsDeframe_cobsFrame]

/-- TC.INGEST answers OK only where TC ingest accepts (R177). -/
theorem tcIngest_ok_of_responses {op R : Bytes} {s t : State} (h : exec (.tcIngest op) s = .next t)
    (ht : t.responses = s.responses ++ [⟨.ok, R⟩]) : ∃ v, tcIngest s.cfg op = .ok v := by
  have hexec : execTcIngest op s = .next t := h
  obtain ⟨v, hv, -⟩ | ⟨-, e⟩ | ⟨st, -, hst, e⟩ := execTcIngest_cases op s
  · exact ⟨v, hv⟩
  · cases hexec.symm.trans e
    simp at ht
  · cases hexec.symm.trans e
    obtain ⟨hok, -⟩ : st = .ok ∧ R = [] := by simpa using ht
    simp [hok] at hst

/-- TC.INGEST where TC ingest fails (R177, R178). -/
theorem answersWithCrc_tcIngest_error {op : Bytes} {s : State} {st : Status} (h : tcIngest s.cfg op = .error st) :
    AnswersWithCrc (.tcIngest op) s ⟨st, []⟩ := by
  obtain ⟨v, hv, -⟩ | ⟨hst, e⟩ | ⟨st', hst, -, e⟩ := execTcIngest_cases op s
  · cases h.symm.trans hv
  · cases h.symm.trans hst
    exact answersWithCrc_of_raise_releaseCrc e
  · cases h.symm.trans hst
    exact answersWithCrc_of_raise e

/-- Settles O50: an accepted packet has residue zero, an inverted bit changes the residue, and a bit of the trailer leaves
the checks before the CRC check as they were. -/
theorem singleBitErrorIsNeverIngested : Obligations.SingleBitErrorIsNeverIngested := by
  intro T D k j s t R hexec ht hk hj
  obtain ⟨v, hv⟩ := tcIngest_ok_of_responses hexec ht
  rw [tcIngest_cobsFrame] at hv
  obtain ⟨hchecks, hcrc⟩ := tcIngestPacket_ok hv
  have hflip : crc16 (flipBit D k j) ≠ 0 := hcrc ▸ crc16_flipBit_ne hk hj
  cases hres : tcIngestPacket s.cfg (flipBit D k j) with
  | ok v' => exact absurd (tcIngestPacket_ok hres).2 hflip
  | error st =>
    have hst : tcIngest s.cfg (cobsFrame T (flipBit D k j)) = .error st := (tcIngest_cobsFrame T _ _).trans hres
    refine ⟨st, ?_, answersWithCrc_tcIngest_error hst, fun htrailer => ?_⟩
    · obtain rfl | rfl | rfl | rfl := tcIngest_error hst <;> decide
    · have hmin := hchecks.eight_le
      have hchecks' := hchecks.congr (flipBit_length D k j) (flipBit_take_six (by omega) j)
      cases hres.symm.trans (tcIngestPacket_checksumMismatch hchecks' hflip)
      rfl

end Sys2Proof.Machine
end

section
/-! The header codec and its commands (41_headers.md R126 to R133). -/

namespace Sys2Proof.Machine

open Sys2Proof.Claims

/-! ### Decode and encode are inverse to each other (R126, R127) -/

theorem tmshDecode_tmshEncode (m : TmHeader) : tmshDecode (tmshEncode m) = m := by
  obtain ⟨hver, htrs⟩ := nibbles_split m.pusVersion m.timeRefStatus
  simp [tmshDecode, tmshEncode, byteAt, u16beAt, be16, hver, htrs]

/-- Settles O21. -/
theorem headerDecodeInvertsEncode : Obligations.HeaderDecodeInvertsEncode :=
  ⟨phDecode_phEncode, tcshDecode_tcshEncode, tmshDecode_tmshEncode⟩

/-- The bytes of the fields' numbers are the bytes the fields were read from. -/
theorem phEncode_phDecode {B : Bytes} (hlen : B.length = 6) : phEncode (phDecode B) = B := by
  obtain ⟨hver, htype, hsec, hapid, hsf, hseq, hdl⟩ := phDecode_fields B
  match B, hlen with
  | [b0, b1, b2, b3, b4, b5], _ =>
    have h0 := b0.isLt
    have h1 := b1.isLt
    have h2 := b2.isLt
    have h3 := b3.isLt
    have h4 := b4.isLt
    have h5 := b5.isLt
    simp only [byteAt, List.getD_cons_zero, List.getD_cons_succ] at hver htype hsec hapid hsf hseq hdl
    rw [phEncode_bytes, hver, htype, hsec, hapid, hsf, hseq, hdl]
    simp only [List.cons.injEq, and_true]
    refine ⟨?_, ?_, ?_, ?_, ?_, ?_⟩ <;>
    · apply BitVec.eq_of_toNat_eq
      rw [BitVec.toNat_ofNat]
      omega

theorem tcshEncode_eq (t : TcHeader) : tcshEncode t =
    [(t.pusVersion.setWidth 8 <<< 4) ||| t.ackFlags.setWidth 8, t.serviceType, t.subtype] ++ be16 t.sourceId := rfl

theorem tcshEncode_tcshDecode {B : Bytes} (hlen : B.length = 5) : tcshEncode (tcshDecode B) = B := by
  match B, hlen with
  | [b0, b1, b2, b3, b4], _ =>
    rw [tcshEncode_eq]
    simp only [tcshDecode, nibbles_join, u16beAt, be16_u16be]
    rfl

theorem tmshEncode_tmshDecode {B : Bytes} (hlen : B.length = 9) : tmshEncode (tmshDecode B) = B := by
  match B, hlen with
  | [b0, b1, b2, b3, b4, b5, b6, b7, b8], _ =>
    simp only [tmshEncode, tmshDecode, nibbles_join, u16beAt, be16_u16be]
    rfl

/-- Settles O22: an encode function with a left inverse is injective. -/
theorem headerEncodeInvertsDecode : Obligations.HeaderEncodeInvertsDecode :=
  ⟨fun _ => phEncode_phDecode, fun _ => tcshEncode_tcshDecode, fun _ => tmshEncode_tmshDecode,
    fun _ _ h => Function.LeftInverse.injective phDecode_phEncode h,
    fun _ _ h => Function.LeftInverse.injective tcshDecode_tcshEncode h,
    fun _ _ h => Function.LeftInverse.injective tmshDecode_tmshEncode h⟩

/-! ### The record of a field vector in range (30_encoding.md R79 to R82) -/

section Containers

variable {fv : Bytes}

theorem fvInRange_iff_inRange {ws : List Nat} : fvInRange fv 0 ws = true ↔ InRange fv 0 ws := by
  simp only [fvInRange_iff, InRange, Nat.zero_add, container_eq_num16]

/-- A field takes the whole value of a container that is in range. -/
theorem toNat_setWidth_container {j n : Nat} (h : num16 fv (2 * j) < 2 ^ n) :
    ((container fv j).setWidth n).toNat = num16 fv (2 * j) := by
  rw [BitVec.toNat_setWidth, container_eq_num16, Nat.mod_eq_of_lt h]

theorem phOfFv_fields (h : InRange fv 0 phBits) :
    (phOfFv fv).version.toNat = num16 fv 0 ∧ (phOfFv fv).packetType.toNat = num16 fv 2 ∧
    (phOfFv fv).secHdrFlag.toNat = num16 fv 4 ∧ (phOfFv fv).apid.toNat = num16 fv 6 ∧
    (phOfFv fv).seqFlags.toNat = num16 fv 8 ∧ (phOfFv fv).seqCount.toNat = num16 fv 10 ∧
    (phOfFv fv).dataLength.toNat = num16 fv 12 :=
  ⟨toNat_setWidth_container (h 0 (by decide)), toNat_setWidth_container (h 1 (by decide)),
    toNat_setWidth_container (h 2 (by decide)), toNat_setWidth_container (h 3 (by decide)),
    toNat_setWidth_container (h 4 (by decide)), toNat_setWidth_container (h 5 (by decide)), container_eq_num16 fv 6⟩

theorem tcshOfFv_fields (h : InRange fv 0 tcBits) :
    (tcshOfFv fv).pusVersion.toNat = num16 fv 0 ∧ (tcshOfFv fv).ackFlags.toNat = num16 fv 2 ∧
    (tcshOfFv fv).serviceType.toNat = num16 fv 4 ∧ (tcshOfFv fv).subtype.toNat = num16 fv 6 ∧
    (tcshOfFv fv).sourceId.toNat = num16 fv 8 :=
  ⟨toNat_setWidth_container (h 0 (by decide)), toNat_setWidth_container (h 1 (by decide)),
    toNat_setWidth_container (h 2 (by decide)), toNat_setWidth_container (h 3 (by decide)), container_eq_num16 fv 4⟩

theorem tmshOfFv_fields (h : InRange fv 0 tmBits) :
    (tmshOfFv fv).pusVersion.toNat = num16 fv 0 ∧ (tmshOfFv fv).timeRefStatus.toNat = num16 fv 2 ∧
    (tmshOfFv fv).serviceType.toNat = num16 fv 4 ∧ (tmshOfFv fv).subtype.toNat = num16 fv 6 ∧
    (tmshOfFv fv).msgTypeCounter.toNat = num16 fv 8 ∧ (tmshOfFv fv).destinationId.toNat = num16 fv 10 ∧
    (tmshOfFv fv).coarseTime.toNat = num16 fv 12 :=
  ⟨toNat_setWidth_container (h 0 (by decide)), toNat_setWidth_container (h 1 (by decide)),
    toNat_setWidth_container (h 2 (by decide)), toNat_setWidth_container (h 3 (by decide)),
    container_eq_num16 fv 4, container_eq_num16 fv 5, container_eq_num16 fv 6⟩

/-! ### The bytes encoded from a field vector in range (41_headers.md R120, R122, R124) -/

theorem byte_toNat (b : Byte) : byte b.toNat = b := by rw [byte, BitVec.ofNat_toNat, BitVec.setWidth_eq]

theorem tcshEncode_bytes (t : TcHeader) : tcshEncode t =
    [byte (t.pusVersion.toNat * 16 + t.ackFlags.toNat), byte t.serviceType.toNat, byte t.subtype.toNat,
      byte (t.sourceId.toNat / 256), byte (t.sourceId.toNat % 256)] := by
  rw [tcshEncode_eq, nibbles_byte, be16_bytes, byte_toNat, byte_toNat]
  rfl

theorem tmshEncode_bytes (m : TmHeader) : tmshEncode m =
    [byte (m.pusVersion.toNat * 16 + m.timeRefStatus.toNat), byte m.serviceType.toNat, byte m.subtype.toNat,
      byte (m.msgTypeCounter.toNat / 256), byte (m.msgTypeCounter.toNat % 256),
      byte (m.destinationId.toNat / 256), byte (m.destinationId.toNat % 256),
      byte (m.coarseTime.toNat / 256), byte (m.coarseTime.toNat % 256)] := by
  simp only [tmshEncode, nibbles_byte, be16_bytes, byte_toNat]
  rfl

theorem phEncode_phOfFv (h : InRange fv 0 phBits) : phEncode (phOfFv fv) =
    [byte (num16 fv 0 * 32 + num16 fv 2 * 16 + num16 fv 4 * 8 + num16 fv 6 / 256), byte (num16 fv 6 % 256),
      byte (num16 fv 8 * 64 + num16 fv 10 / 256), byte (num16 fv 10 % 256),
      byte (num16 fv 12 / 256), byte (num16 fv 12 % 256)] := by
  obtain ⟨hver, htype, hsec, hapid, hsf, hseq, hdl⟩ := phOfFv_fields h
  rw [phEncode_bytes, hver, htype, hsec, hapid, hsf, hseq, hdl]
  rfl

theorem tcshEncode_tcshOfFv (h : InRange fv 0 tcBits) : tcshEncode (tcshOfFv fv) =
    [byte (num16 fv 0 * 16 + num16 fv 2), byte (num16 fv 4), byte (num16 fv 6),
      byte (num16 fv 8 / 256), byte (num16 fv 8 % 256)] := by
  obtain ⟨hver, hack, hst, hsst, hsrc⟩ := tcshOfFv_fields h
  rw [tcshEncode_bytes, hver, hack, hst, hsst, hsrc]

theorem tmshEncode_tmshOfFv (h : InRange fv 0 tmBits) : tmshEncode (tmshOfFv fv) =
    [byte (num16 fv 0 * 16 + num16 fv 2), byte (num16 fv 4), byte (num16 fv 6),
      byte (num16 fv 8 / 256), byte (num16 fv 8 % 256), byte (num16 fv 10 / 256), byte (num16 fv 10 % 256),
      byte (num16 fv 12 / 256), byte (num16 fv 12 % 256)] := by
  obtain ⟨hver, htrs, hst, hsst, hcnt, hdst, htime⟩ := tmshOfFv_fields h
  rw [tmshEncode_bytes, hver, htrs, hst, hsst, hcnt, hdst, htime]

end Containers

/-! ### The field vector of a decoded header (30_encoding.md R78, 41_headers.md R121, R123, R125) -/

theorem be16_eq_fieldVector (v : Half) : be16 v = fieldVector [v.toNat] :=
  calc be16 v
    _ = be16Nat v.toNat := by rw [be16Nat, BitVec.ofNat_toNat, BitVec.setWidth_eq]
    _ = fieldVector [v.toNat] := be16Nat_eq v.toNat

theorem phToFv_eq_fieldVector (h : PrimaryHeader) : phToFv h = fieldVector
    [h.version.toNat, h.packetType.toNat, h.secHdrFlag.toNat, h.apid.toNat, h.seqFlags.toNat, h.seqCount.toNat,
      h.dataLength.toNat] := by
  simp only [phToFv, be16_eq_fieldVector]
  rfl

theorem tcshToFv_eq_fieldVector (t : TcHeader) : tcshToFv t = fieldVector
    [t.pusVersion.toNat, t.ackFlags.toNat, t.serviceType.toNat, t.subtype.toNat, t.sourceId.toNat] := by
  simp only [tcshToFv, be16_eq_fieldVector]
  rfl

theorem tmshToFv_eq_fieldVector (m : TmHeader) : tmshToFv m = fieldVector
    [m.pusVersion.toNat, m.timeRefStatus.toNat, m.serviceType.toNat, m.subtype.toNat, m.msgTypeCounter.toNat,
      m.destinationId.toNat, m.coarseTime.toNat] := by
  simp only [tmshToFv, be16_eq_fieldVector]
  rfl

theorem phToFv_phDecode (B : Bytes) : phToFv (phDecode B) = fieldVector
    [num B 0 / 32, num B 0 / 16 % 2, num B 0 / 8 % 2, num B 0 % 8 * 256 + num B 1,
      num B 2 / 64, num B 2 % 64 * 256 + num B 3, num B 4 * 256 + num B 5] := by
  obtain ⟨hver, htype, hsec, hapid, hsf, hseq, hdl⟩ := phDecode_fields B
  rw [phToFv_eq_fieldVector, hver, htype, hsec, hapid, hsf, hseq, hdl]
  rfl

/-- A 16-bit field as the number of its two bytes. -/
theorem u16beAt_toNat (B : Bytes) (i : Nat) : (u16beAt B i).toNat = num B i * 256 + num B (i + 1) := u16be_toNat _ _

theorem tcshToFv_tcshDecode (B : Bytes) : tcshToFv (tcshDecode B) = fieldVector
    [num B 0 / 16, num B 0 % 16, num B 1, num B 2, num B 3 * 256 + num B 4] := by
  rw [tcshToFv_eq_fieldVector]
  simp only [tcshDecode, nibbles_toNat, u16beAt_toNat]
  rfl

theorem tmshToFv_tmshDecode (B : Bytes) : tmshToFv (tmshDecode B) = fieldVector
    [num B 0 / 16, num B 0 % 16, num B 1, num B 2, num B 3 * 256 + num B 4, num B 5 * 256 + num B 6,
      num B 7 * 256 + num B 8] := by
  rw [tmshToFv_eq_fieldVector]
  simp only [tmshDecode, nibbles_toNat, u16beAt_toNat]
  rfl

/-! ### The commands -/

section Commands

variable {i : Instr} {s : State} {n : Nat} {ws : List Nat} {op R R' : Bytes}

theorem answers_of_finish (h : exec i s = finish s R) : Answers i s ⟨.ok, R⟩ := h

/-- The answers of a header decode command: a fixed length, then a result (R77). -/
theorem answers_of_fixedLen (h : exec i s = withFixedLen n op s (finish s R)) (hR : R = R') :
    (op.length < n → Answers i s ⟨.truncated, []⟩) ∧ (op.length > n → Answers i s ⟨.malformed, []⟩) ∧
    (op.length = n → Answers i s ⟨.ok, R'⟩) := by
  subst hR
  exact ⟨fun hshort => answers_of_raise (h.trans (withFixedLen_short hshort)),
    fun hlong => answers_of_raise (h.trans (withFixedLen_long hlong)),
    fun hlen => answers_of_finish (h.trans (withFixedLen_exact hlen))⟩

/-- The answers of a header encode command: a fixed length, a field vector in range, then a result (R77, R79). -/
theorem answers_of_fixedLen_range (h : exec i s = withFixedLen n op s (withRange op ws s (finish s R)))
    (hR : InRange op 0 ws → R = R') :
    (op.length < n → Answers i s ⟨.truncated, []⟩) ∧ (op.length > n → Answers i s ⟨.malformed, []⟩) ∧
    (op.length = n → ¬ InRange op 0 ws → Answers i s ⟨.malformed, []⟩) ∧
    (op.length = n → InRange op 0 ws → Answers i s ⟨.ok, R'⟩) := by
  refine ⟨fun hshort => answers_of_raise (h.trans (withFixedLen_short hshort)),
    fun hlong => answers_of_raise (h.trans (withFixedLen_long hlong)), fun hlen hbad => ?_, fun hlen hgood => ?_⟩
  · rw [withFixedLen_exact hlen, withRange_bad (fvInRange_iff_inRange.not.mpr hbad)] at h
    exact answers_of_raise h
  · rw [withFixedLen_exact hlen, withRange_good (fvInRange_iff_inRange.mpr hgood), hR hgood] at h
    exact answers_of_finish h

end Commands

/-- Settles O23. -/
theorem phEncodePacksSixBytes : Obligations.PhEncodePacksSixBytes :=
  ⟨encodedAs_of_decodeOpcode fun _ => rfl, fun _ _ => answers_of_fixedLen_range rfl phEncode_phOfFv⟩

/-- Settles O24. -/
theorem phDecodeUnpacksSixBytes : Obligations.PhDecodeUnpacksSixBytes :=
  ⟨encodedAs_of_decodeOpcode fun _ => rfl, fun op _ => answers_of_fixedLen rfl (phToFv_phDecode op)⟩

/-- Settles O25. -/
theorem tcshEncodePacksFiveBytes : Obligations.TcshEncodePacksFiveBytes :=
  ⟨encodedAs_of_decodeOpcode fun _ => rfl, fun _ _ => answers_of_fixedLen_range rfl tcshEncode_tcshOfFv⟩

/-- Settles O26. -/
theorem tcshDecodeUnpacksFiveBytes : Obligations.TcshDecodeUnpacksFiveBytes :=
  ⟨encodedAs_of_decodeOpcode fun _ => rfl, fun op _ => answers_of_fixedLen rfl (tcshToFv_tcshDecode op)⟩

/-- Settles O27. -/
theorem tmshEncodePacksNineBytes : Obligations.TmshEncodePacksNineBytes :=
  ⟨encodedAs_of_decodeOpcode fun _ => rfl, fun _ _ => answers_of_fixedLen_range rfl tmshEncode_tmshOfFv⟩

/-- Settles O28. -/
theorem tmshDecodeUnpacksNineBytes : Obligations.TmshDecodeUnpacksNineBytes :=
  ⟨encodedAs_of_decodeOpcode fun _ => rfl, fun op _ => answers_of_fixedLen rfl (tmshToFv_tmshDecode op)⟩

end Sys2Proof.Machine
end

section
/-! The framer in its declarative form (42_framing.md R141), and the length of a frame (R142): what a block of the loop is
to the segment it stands in. -/

namespace Sys2Proof.Machine

variable {T : Bool} {blk D S : Bytes} {Ss : List Bytes}

/-- Settles O31. -/
theorem deframeInvertsFrame : Obligations.DeframeInvertsFrame := cobsDeframe_cobsFrame

/-! ### The segments of a byte sequence -/

theorem cobsSegments_ne_nil (D : Bytes) : cobsSegments D ≠ [] := by
  induction D with
  | nil => exact List.cons_ne_nil _ _
  | cons b D ih =>
    unfold cobsSegments
    split_ifs
    · exact List.cons_ne_nil _ _
    · split <;> exact List.cons_ne_nil _ _

/-- Only the empty sequence is one empty segment. -/
theorem eq_nil_of_cobsSegments (h : cobsSegments D = [[]]) : D = [] := by
  cases D with
  | nil => rfl
  | cons b D =>
    unfold cobsSegments at h
    split_ifs at h
    · exact absurd (List.cons.inj h).2 (cobsSegments_ne_nil D)
    · split at h <;> cases h

/-- Bytes that are not 0x00 join the first segment of what follows. -/
theorem cobsSegments_append (hz : 0x00 ∉ blk) (h : cobsSegments D = S :: Ss) :
    cobsSegments (blk ++ D) = (blk ++ S) :: Ss := by
  induction blk with
  | nil => exact h
  | cons b blk ih =>
    have hb : b ≠ 0x00 := fun h0 => hz (h0 ▸ List.mem_cons_self)
    rw [List.cons_append, cobsSegments, if_neg hb, ih fun hm => hz (List.mem_cons_of_mem _ hm)]
    rfl

/-- A sequence without 0x00 is one segment. -/
theorem cobsSegments_noZero (hz : 0x00 ∉ blk) : cobsSegments blk = [blk] := by
  simpa using cobsSegments_append (D := []) hz rfl

/-- A 0x00 ends the segment in front of it. -/
theorem cobsSegments_append_zero (hz : 0x00 ∉ blk) (D : Bytes) :
    cobsSegments (blk ++ 0x00 :: D) = blk :: cobsSegments D := by
  simpa using cobsSegments_append (D := 0x00 :: D) hz rfl

/-! ### The blocks of a segment -/

/-- A segment that fills no block has none but its final one. -/
theorem cobsBlocks_short (h : S.length ≤ 253) : cobsFullBlocks S = [] ∧ cobsFinalBlock S = cobsBlock S := by
  have hq : S.length / 254 = 0 := by omega
  have hr : S.length % 254 = S.length := by omega
  exact ⟨by simp [cobsFullBlocks, hq], by simp [cobsFinalBlock, cobsBlock, hq, hr]⟩

theorem cobsBlock_full (h : blk.length = 254) : cobsBlock blk = 0xFF :: blk := by
  rw [cobsBlock, h]
  rfl

section FullBlock

variable (h : blk.length = 254) (S : Bytes)

include h

theorem length_div_append : (blk ++ S).length / 254 = S.length / 254 + 1 := by
  rw [List.length_append]
  omega

theorem length_mod_append : (blk ++ S).length % 254 = S.length % 254 := by
  rw [List.length_append]
  omega

theorem drop_blocks_append (j : Nat) : (blk ++ S).drop (254 * (j + 1)) = S.drop (254 * j) := by
  rw [Nat.mul_succ, Nat.add_comm, ← List.drop_drop, List.drop_left' h]

/-- The first 254 bytes of a segment are its first full block. -/
theorem cobsFullBlocks_append : cobsFullBlocks (blk ++ S) = cobsBlock blk ++ cobsFullBlocks S := by
  simp only [cobsFullBlocks, length_div_append h, List.range_succ_eq_map, List.flatMap_cons, List.flatMap_map,
    drop_blocks_append h, Nat.mul_zero, List.drop_zero, List.take_left' h, cobsBlock_full h]

theorem cobsFinalBlock_append : cobsFinalBlock (blk ++ S) = cobsFinalBlock S := by
  rw [cobsFinalBlock, length_div_append h, length_mod_append h, drop_blocks_append h, cobsFinalBlock]

end FullBlock

/-! ### The loop and the declarative form (R141) -/

theorem cobsBlocksOf_cons (hSs : Ss ≠ []) :
    cobsBlocksOf T (S :: Ss) = cobsFullBlocks S ++ cobsFinalBlock S ++ cobsBlocksOf T Ss := by
  cases Ss with
  | nil => contradiction
  | cons => rfl

/-- A block that a 0x00 ends is the final block of its segment. -/
theorem cobsBlocksOf_append_zero (hlen : blk.length ≤ 253) (hz : 0x00 ∉ blk) :
    cobsBlocksOf T (cobsSegments (blk ++ 0x00 :: D)) = cobsBlock blk ++ cobsBlocksOf T (cobsSegments D) := by
  obtain ⟨hfull, hfinal⟩ := cobsBlocks_short hlen
  rw [cobsSegments_append_zero hz, cobsBlocksOf_cons (cobsSegments_ne_nil D), hfull, hfinal, List.nil_append]

/-- A block of 254 bytes is the first full block of its segment. Only the last segment's end, with T false, does not go on
behind it. -/
theorem cobsBlocksOf_append_full (hlen : blk.length = 254) (hz : 0x00 ∉ blk) (hmore : T = true ∨ D ≠ []) :
    cobsBlocksOf T (cobsSegments (blk ++ D)) = cobsBlock blk ++ cobsBlocksOf T (cobsSegments D) := by
  obtain ⟨S, Ss, hD⟩ := List.exists_cons_of_ne_nil (cobsSegments_ne_nil D)
  rw [cobsSegments_append hz hD, hD]
  by_cases hSs : Ss = []
  · subst hSs
    have hlast : T = false → S ≠ [] := fun hT hS =>
      hmore.elim (by simp [hT]) fun hne => hne (eq_nil_of_cobsSegments (hS ▸ hD))
    have hiff : (T = false ∧ 1 ≤ S.length / 254 + 1 ∧ S.length % 254 = 0) ↔
        (T = false ∧ 1 ≤ S.length / 254 ∧ S.length % 254 = 0) := by
      refine and_congr_right fun hT => ?_
      have := List.length_pos_iff.mpr (hlast hT)
      omega
    simp only [cobsBlocksOf, length_div_append hlen, length_mod_append hlen, hiff, cobsFullBlocks_append hlen,
      cobsFinalBlock_append hlen]
    split_ifs <;> simp
  · rw [cobsBlocksOf_cons hSs, cobsBlocksOf_cons hSs, cobsFullBlocks_append hlen, cobsFinalBlock_append hlen]
    simp

/-- The block at the end of the data is the last segment's last. -/
theorem cobsBlocksOf_last (hz : 0x00 ∉ blk) (hlen : blk.length ≤ 253 ∨ T = false ∧ blk.length = 254) :
    cobsBlocksOf T (cobsSegments blk) = cobsBlock blk := by
  rw [cobsSegments_noZero hz, cobsBlocksOf]
  obtain hlen | ⟨hT, hlen⟩ := hlen
  · obtain ⟨hfull, hfinal⟩ := cobsBlocks_short hlen
    rw [if_neg (by omega), hfull, hfinal, List.nil_append]
  · rw [if_pos ⟨hT, by omega⟩]
    simpa [cobsFullBlocks] using cobsFullBlocks_append hlen []

/-- The loop writes the blocks of the segments, whatever block is pending: a full one is pending only at the end, with T
false. -/
theorem cobsBlocksOf_eq_cobsBody (hz : 0x00 ∉ blk)
    (hlen : blk.length ≤ 253 ∨ T = false ∧ blk.length = 254 ∧ D = []) :
    cobsBlocksOf T (cobsSegments (blk ++ D)) = cobsBody T blk D := by
  induction D generalizing blk with
  | nil =>
    rw [List.append_nil, cobsBody, cobsBlocksOf_last hz (hlen.imp_right fun ⟨hT, h, _⟩ => ⟨hT, h⟩)]
  | cons b D ih =>
    have hlen : blk.length ≤ 253 := hlen.resolve_right (by simp)
    have hrest : cobsBlocksOf T (cobsSegments D) = cobsBody T [] D := ih List.not_mem_nil (.inl (Nat.zero_le _))
    have hnext : (blk ++ [b]).length = blk.length + 1 := List.length_append
    rw [cobsBody]
    split_ifs with hb hfull
    · rw [hb, cobsBlocksOf_append_zero hlen hz, hrest]
    · rw [List.append_cons, cobsBlocksOf_append_full (by omega) (noZero_concat hz hb) hfull.2, hrest]
    · rw [List.append_cons, ih (noZero_concat hz hb)]
      by_cases hmore : T = true ∨ D ≠ []
      · have : blk.length + 2 ≠ 0xFF := fun h => hfull ⟨h, hmore⟩
        omega
      · have : T = false ∧ D = [] := by simpa using hmore
        simp only [this, and_true, true_and]
        omega

/-- Settles O32: the loop starts with the empty block pending. -/
theorem declarativeFrameEqualsTheLoop : Obligations.DeclarativeFrameEqualsTheLoop := fun T D => by
  rw [cobsFrameDecl, cobsFrame_eq]
  exact congrArg (· ++ [0x00]) (cobsBlocksOf_eq_cobsBody List.not_mem_nil (.inl (Nat.zero_le _)))

/-! ### The length of a frame (R142) -/

/-- Each block costs its code byte: the loop writes at least one block. -/
theorem length_lt_cobsBody_length (T : Bool) (blk D : Bytes) :
    blk.length + D.length < (cobsBody T blk D).length := by
  induction D generalizing blk with
  | nil => simp [cobsBody]
  | cons b D ih =>
    have hrest : D.length < (cobsBody T [] D).length := by simpa using ih []
    have hnext : blk.length + 1 + D.length < (cobsBody T (blk ++ [b]) D).length := by simpa using ih (blk ++ [b])
    rw [cobsBody]
    split_ifs <;> simp only [List.length_append, cobsBlock_length, List.length_cons] <;> omega

/-- A block that no 0x00 ends has 254 bytes, and with T false it is written out only where a byte follows. -/
theorem cobsBody_length_le (T : Bool) (blk D : Bytes) :
    (cobsBody T blk D).length ≤ blk.length + D.length + 1 + (blk.length + D.length - (!T).toNat) / 254 := by
  induction D generalizing blk with
  | nil => simp [cobsBody]
  | cons b D ih =>
    have hrest : (cobsBody T [] D).length ≤ D.length + 1 + (D.length - (!T).toNat) / 254 := by simpa using ih []
    have hnext : (blk ++ [b]).length = blk.length + 1 := List.length_append
    rw [cobsBody, List.length_cons]
    split_ifs with hb hfull
    · rw [List.length_append, cobsBlock_length]
      omega
    · have hT : (!T).toNat ≤ 1 := Bool.toNat_le _
      have hmore : (!T).toNat ≤ D.length :=
        hfull.2.elim (fun hT => by simp [hT]) fun hD => hT.trans (List.length_pos_iff.mpr hD)
      rw [List.length_append, cobsBlock_length, hnext]
      omega
    · have := ih (blk ++ [b])
      rw [hnext] at this
      omega

theorem cobsFrame_length (T : Bool) (D : Bytes) : (cobsFrame T D).length = (cobsBody T [] D).length + 1 := by
  rw [cobsFrame_eq, List.length_append, List.length_singleton]

theorem cobsFrame_length_le (T : Bool) (D : Bytes) :
    (cobsFrame T D).length ≤ D.length + (D.length - (!T).toNat) / 254 + 2 := by
  have : (cobsBody T [] D).length ≤ D.length + 1 + (D.length - (!T).toNat) / 254 := by
    simpa using cobsBody_length_le T [] D
  rw [cobsFrame_length]
  omega

/-- The bound that gives MAX_FRAME (00_scope.md R6). -/
theorem cobsFrame_length_le_div (T : Bool) (D : Bytes) : (cobsFrame T D).length ≤ D.length + D.length / 254 + 2 := by
  have := cobsFrame_length_le T D
  omega

/-- Settles O30: the bounds count the blocks that the loop writes. -/
theorem frameHasOneZeroAndBoundedLength : Obligations.FrameHasOneZeroAndBoundedLength := by
  intro T D
  refine ⟨?_, ?_, ?_, cobsFrame_length_le_div T D, fun hD => ?_⟩
  · rw [cobsFrame_eq, List.getLast?_concat]
  · rw [cobsFrame_eq, List.dropLast_concat]
    exact cobsBody_noZero T .nil List.not_mem_nil
  · have : D.length < (cobsBody T [] D).length := by simpa using length_lt_cobsBody_length T [] D
    rw [cobsFrame_length]
    omega
  · have : (cobsFrame false D).length ≤ D.length + (D.length - 1) / 254 + 2 := cobsFrame_length_le false D
    omega

end Sys2Proof.Machine
end

section
/-! Where de-framing fails (42_framing.md R144), and the commands COBS.FRAME and COBS.DEFRAME (R146, R147). -/

namespace Sys2Proof.Machine

open Sys2Proof.Claims

variable {body D F op : Bytes} {s : State}

/-! ### The code bytes of a body (R143) -/

/-- A code byte of the body announces more bytes than remain. -/
abbrev Overruns (body : Bytes) : Prop := ∃ i, CodeAt body i ∧ body.length < i + num body i

theorem codeAt_ne_nil {i : Nat} (h : CodeAt body i) : body ≠ [] := by
  induction h with
  | first h => exact h
  | next _ _ ih => exact ih

theorem num_drop (body : Bytes) (c i : Nat) : num (body.drop c) i = num body (c + i) := by
  rw [num, num, List.getD_eq_getElem?_getD, List.getElem?_drop, ← List.getD_eq_getElem?_getD]

/-- Behind the first block the de-framer reads as it does a body of its own. -/
theorem codeAt_of_drop {i : Nat} (h : CodeAt (body.drop (num body 0)) i) : CodeAt body (num body 0 + i) := by
  induction h with
  | first hne =>
    have hlt : num body 0 < body.length := by simpa using hne
    simpa using (CodeAt.first (List.ne_nil_of_length_pos (by omega))).next (by omega : 0 + num body 0 < body.length)
  | @next i _ hlt ih =>
    rw [num_drop, List.length_drop] at hlt
    rw [num_drop, ← Nat.add_assoc]
    exact ih.next (by omega)

/-- A code byte is the first byte or one behind the first block. -/
theorem codeAt_cases {j : Nat} (h : CodeAt body j) :
    j = 0 ∨ ∃ i, j = num body 0 + i ∧ CodeAt (body.drop (num body 0)) i := by
  induction h with
  | first => exact .inl rfl
  | next _ hlt ih =>
    right
    obtain rfl | ⟨i, rfl, hi⟩ := ih
    · exact ⟨0, by simp, .first (by simpa using hlt)⟩
    · refine ⟨i + num (body.drop (num body 0)) i, by rw [num_drop, Nat.add_assoc], hi.next ?_⟩
      rw [num_drop, List.length_drop]
      omega

theorem not_overruns_nil : ¬ Overruns [] := fun ⟨_, h, _⟩ => codeAt_ne_nil h rfl

/-- A body overruns in its first block or behind it. -/
theorem overruns_iff (hne : body ≠ []) :
    Overruns body ↔ body.length < num body 0 ∨ Overruns (body.drop (num body 0)) := by
  constructor
  · rintro ⟨j, hj, hlong⟩
    obtain rfl | ⟨i, rfl, hi⟩ := codeAt_cases hj
    · exact .inl (by simpa using hlong)
    · refine (Nat.lt_or_ge body.length (num body 0)).imp_right fun hle => ⟨i, hi, ?_⟩
      rw [num_drop, List.length_drop]
      omega
  · rintro (hlong | ⟨i, hi, hlong⟩)
    · exact ⟨0, .first hne, by simpa using hlong⟩
    · refine ⟨num body 0 + i, codeAt_of_drop hi, ?_⟩
      rw [num_drop, List.length_drop] at hlong
      omega

/-! ### The failures of de-framing (R144) -/

/-- A round of the loop fails where its block runs past the end, or where the rounds behind it fail. -/
theorem cobsDeframeBody_cons_eq_none_iff (n : Nat) (code : Byte) (rest : Bytes) :
    cobsDeframeBody (n + 1) (code :: rest) = none ↔
      rest.length + 1 < code.toNat ∨ cobsDeframeBody n (rest.drop (code.toNat - 1)) = none := by
  rw [cobsDeframeBody]
  split_ifs with hlong
  · exact iff_of_true rfl (.inl hlong)
  · rw [or_iff_right hlong]
    cases h : cobsDeframeBody n (rest.drop (code.toNat - 1)) <;> simp [h]

/-- The loop over a body without 0x00 fails exactly where a block runs past the end. -/
theorem cobsDeframeBody_eq_none_iff {n : Nat} (hz : 0x00 ∉ body) (hn : body.length ≤ n) :
    cobsDeframeBody n body = none ↔ Overruns body := by
  induction n generalizing body with
  | zero =>
    obtain rfl : body = [] := List.length_eq_zero_iff.mp (by omega)
    exact iff_of_false nofun not_overruns_nil
  | succ n ih =>
    cases body with
    | nil => exact iff_of_false nofun not_overruns_nil
    | cons code rest =>
      have hcode : code ≠ 0x00 := fun h0 => hz (h0 ▸ List.mem_cons_self)
      have hpos : 1 ≤ code.toNat := Nat.one_le_iff_ne_zero.mpr fun h0 => hcode (BitVec.eq_of_toNat_eq h0)
      have htail : (code :: rest).drop code.toNat = rest.drop (code.toNat - 1) := by
        rw [← Nat.sub_add_cancel hpos, List.drop_succ_cons, Nat.add_sub_cancel]
      have hz' : 0x00 ∉ rest.drop (code.toNat - 1) := fun hm =>
        hz (List.mem_cons_of_mem _ (List.mem_of_mem_drop hm))
      have hn' : (rest.drop (code.toNat - 1)).length ≤ n := by
        rw [List.length_cons] at hn
        rw [List.length_drop]
        omega
      calc cobsDeframeBody (n + 1) (code :: rest) = none
        _ ↔ rest.length + 1 < code.toNat ∨ cobsDeframeBody n (rest.drop (code.toNat - 1)) = none :=
          cobsDeframeBody_cons_eq_none_iff n code rest
        _ ↔ rest.length + 1 < code.toNat ∨ Overruns ((code :: rest).drop code.toNat) := by rw [ih hz' hn', htail]
        _ ↔ Overruns (code :: rest) := (overruns_iff (List.cons_ne_nil _ _)).symm

/-- The failures that show before the loop: fewer than 2 bytes, no terminator, or another 0x00. -/
theorem cobsDeframe_concat_eq_none {b : Byte} (h : body = [] ∨ b ≠ 0x00 ∨ 0x00 ∈ body) :
    cobsDeframe (body ++ [b]) = none := by
  have hzero : body ≠ [] → b = 0x00 → 0x00 ∈ body := fun hne hb => (h.resolve_left hne).resolve_left (not_not.mpr hb)
  simpa [cobsDeframe, byteAt] using fun hne hb hz => absurd (hzero hne hb) hz

theorem cobsDeframe_eq_none_iff (F : Bytes) : cobsDeframe F = none ↔
    F.length < 2 ∨ F.getLast? ≠ some 0x00 ∨ 0x00 ∈ F.dropLast ∨ Overruns F.dropLast := by
  obtain rfl | ⟨body, b, rfl⟩ := List.eq_nil_or_concat' F
  · exact iff_of_true rfl (.inl Nat.zero_lt_two)
  · have hshort : (body ++ [b]).length < 2 ↔ body = [] := by simp
    rw [List.getLast?_concat, List.dropLast_concat, hshort]
    by_cases h : body = [] ∨ b ≠ 0x00 ∨ 0x00 ∈ body
    · refine iff_of_true (cobsDeframe_concat_eq_none h) ?_
      obtain h | h | h := h
      · exact .inl h
      · exact .inr (.inl (by simpa using h))
      · exact .inr (.inr (.inl h))
    · obtain ⟨hne, hb, hz⟩ : body ≠ [] ∧ b = 0x00 ∧ 0x00 ∉ body := by simpa using h
      subst hb
      rw [cobsDeframe_terminated hne hz, cobsDeframeBody_eq_none_iff hz le_rfl]
      rw [or_iff_right hne, or_iff_right (not_not.mpr rfl), or_iff_right hz]

theorem answers_cobsDeframe_malformed (h : cobsDeframe op = none) : Answers (.cobsDeframe op) s ⟨.malformed, []⟩ := by
  obtain ⟨-, e⟩ | ⟨D, hD, -⟩ := execCobsDeframe_cases op s
  · exact answers_of_raise e
  · cases h.symm.trans hD

theorem answers_cobsDeframe_ok (h : cobsDeframe op = some D) : Answers (.cobsDeframe op) s ⟨.ok, D⟩ := by
  obtain ⟨hnone, -⟩ | ⟨D', hD, e⟩ := execCobsDeframe_cases op s
  · cases h.symm.trans hnone
  · cases h.symm.trans hD
    exact answers_of_finish e

/-- Step (1) of TC ingest fails where de-framing does, before the CRC register is used (43_packets.md R175). -/
theorem answers_tcIngest_malformed (h : cobsDeframe op = none) : Answers (.tcIngest op) s ⟨.malformed, []⟩ := by
  have herror : tcIngest s.cfg op = .error .malformed := by rw [tcIngest, h]
  obtain ⟨v, hv, -⟩ | ⟨hst, -⟩ | ⟨st, hst, -, e⟩ := execTcIngest_cases op s
  · cases herror.symm.trans hv
  · cases herror.symm.trans hst
  · cases herror.symm.trans hst
    exact answers_of_raise e

/-- The frame of one full block, with and without the lone 0x01 (R144, R145). -/
theorem cobsFrame_fullBlock (hlen : D.length = 254) (hz : 0x00 ∉ D) :
    cobsFrame false D = 0xFF :: (D ++ [0x00]) ∧ cobsFrame true D = 0xFF :: (D ++ [0x01, 0x00]) := by
  rw [← declarativeFrameEqualsTheLoop, ← declarativeFrameEqualsTheLoop, cobsFrameDecl, cobsFrameDecl]
  constructor
  · rw [cobsBlocksOf_last hz (.inr ⟨rfl, hlen⟩), cobsBlock_full hlen]
    rfl
  · have := cobsBlocksOf_append_full (T := true) (D := []) hlen hz (.inl rfl)
    rw [List.append_nil] at this
    rw [this, cobsBlock_full hlen, List.append_assoc]
    rfl

/-- Settles O33: the loop's check fails at a code byte that overruns the body; the two frames of a full block are those of
the two trailer settings. -/
theorem deframeFailsInExactlyFourCases : Obligations.DeframeFailsInExactlyFourCases := by
  refine ⟨cobsDeframe_eq_none_iff, fun F s h => ⟨answers_cobsDeframe_malformed h, answers_tcIngest_malformed h⟩,
    fun D hlen hz => ?_⟩
  obtain ⟨hfalse, htrue⟩ := cobsFrame_fullBlock hlen hz
  rw [← hfalse, ← htrue]
  exact ⟨cobsDeframe_cobsFrame _ D, cobsDeframe_cobsFrame _ D⟩

/-! ### The commands (R146, R147) -/

theorem answers_cobsFrame_ok (h : (cobsFrame s.cfg.cobsFullBlockTrailer op).length ≤ 65535) :
    Answers (.cobsFrame op) s ⟨.ok, cobsFrame s.cfg.cobsFullBlockTrailer op⟩ := by
  obtain ⟨hlong, -⟩ | ⟨-, e⟩ := execCobsFrame_cases op s
  · omega
  · exact answers_of_finish e

theorem answers_cobsFrame_tooLong (h : (cobsFrame s.cfg.cobsFullBlockTrailer op).length > 65535) :
    Answers (.cobsFrame op) s ⟨.tooLong, []⟩ := by
  obtain ⟨-, e⟩ | ⟨hfits, -⟩ := execCobsFrame_cases op s
  · exact answers_of_raise e
  · omega

/-- Settles O34: the length bound for an operand below 65278 bytes, the exact length for 0x00 bytes. -/
theorem cobsFrameCommandAnswersTheFrame : Obligations.CobsFrameCommandAnswersTheFrame := by
  refine ⟨encodedAs_of_decodeOpcode fun _ => rfl, fun op s => ⟨answers_cobsFrame_tooLong, answers_cobsFrame_ok,
    fun hop => answers_cobsFrame_ok ?_, fun hop => ?_⟩⟩
  · have := cobsFrame_length_le_div s.cfg.cobsFullBlockTrailer op
    omega
  · have hlen : (cobsFrame s.cfg.cobsFullBlockTrailer op).length = 65535 := hop ▸ cobsFrame_zeros_length _ 65533
    exact ⟨answers_cobsFrame_ok hlen.le, hlen⟩

/-- Settles O35. -/
theorem cobsDeframeCommandAnswersTheBytes : Obligations.CobsDeframeCommandAnswersTheBytes :=
  ⟨encodedAs_of_decodeOpcode fun _ => rfl,
    fun _ _ => ⟨answers_cobsDeframe_malformed, fun _ h => ⟨answers_cobsDeframe_ok h, cobsDeframe_length h⟩⟩⟩

end Sys2Proof.Machine
end

section
/-! The frame synchronizer (42_framing.md R148 to R155): one link byte, a feed of link bytes, RX.POP and RX.STATUS. -/

namespace Sys2Proof.Machine

open Sys2Proof.Claims

variable {s t : State} {b : Byte} {bs : Bytes}

/-! ### One link byte (R148 to R151) -/

theorem execRxByte_zero (s : State) : execRxByte 0x00 s = .next (rxDelimiter s) := rfl

theorem execRxByte_data (hb : b ≠ 0x00) (s : State) : execRxByte b s = .next (rxData b s) := by
  rw [execRxByte, if_neg hb]

theorem rxDelimiter_discarding (hd : s.rxDiscard = true) : rxDelimiter s = s.setDiscard false := if_pos hd

section InStep

variable (hd : s.rxDiscard = false)

include hd

theorem rxDelimiter_empty (ha : s.rxAcc = []) : rxDelimiter s = s := by simp [rxDelimiter, hd, ha]

theorem rxDelimiter_room (ha : s.rxAcc ≠ []) (hq : s.rxq.length < s.cfg.rxqDepth) :
    rxDelimiter s = (s.pushFrame (s.rxAcc ++ [0x00])).setAcc [] := by simp [rxDelimiter, hd, ha, hq]

theorem rxDelimiter_noRoom (ha : s.rxAcc ≠ []) (hq : s.cfg.rxqDepth ≤ s.rxq.length) :
    rxDelimiter s = (s.setLost true).setAcc [] := by simp [rxDelimiter, hd, ha, Nat.not_lt.mpr hq]

theorem rxData_overlong (hl : s.rxAcc.length = s.cfg.maxFrame - 1) :
    rxData b s = ((s.setAcc []).setDiscard true).setLost true := by simp [rxData, hd, hl]

theorem rxData_fits (hl : s.rxAcc.length ≠ s.cfg.maxFrame - 1) : rxData b s = s.setAcc (s.rxAcc ++ [b]) := by
  simp [rxData, hd, hl]

end InStep

theorem rxData_discarding (hd : s.rxDiscard = true) : rxData b s = s := if_pos hd

/-- Settles O36: an equation per branch of the two halves of R148. -/
theorem rxByteAccumulatesAndQueues : Obligations.RxByteAccumulatesAndQueues := by
  intro s b
  have hzero (hb : b = 0x00) : exec (.rxByte b) s = .next (rxDelimiter s) := hb ▸ execRxByte_zero s
  have hdata (hb : b ≠ 0x00) : exec (.rxByte b) s = .next (rxData b s) := execRxByte_data hb s
  refine ⟨fun hb hd => ?_, fun hb hd ha => ?_, fun hb hd ha hq => ?_, fun hb hd ha hq => ?_, fun hb hd => ?_,
    fun hb hd hl => ?_, fun hb hd hl => ?_⟩
  · rw [hzero hb, rxDelimiter_discarding hd, State.setDiscard]
  · rw [hzero hb, rxDelimiter_empty hd ha]
  · rw [hzero hb, rxDelimiter_room hd ha hq, State.pushFrame, State.setRxq, State.setAcc]
  · rw [hzero hb, rxDelimiter_noRoom hd ha hq, State.setLost, State.setAcc]
  · rw [hdata hb, rxData_discarding hd]
  · rw [hdata hb, rxData_overlong hd hl, State.setAcc, State.setDiscard, State.setLost]
  · rw [hdata hb, rxData_fits hd hl, State.setAcc]

/-! ### A feed of link bytes -/

theorem runFeed_cons (h : execRxByte b s = .next t) : runFeed (b :: bs) s = runFeed bs t := runFeed_append [b] bs h

/-- A feed up to a delimiter. -/
theorem runFeed_zero (h : runFeed bs s = .next t) : runFeed (bs ++ [0x00]) s = .next (rxDelimiter t) :=
  runFeed_append bs [0x00] h

/-- Settles O37: the first byte makes the frame over-long, and what follows it is discarded. -/
theorem overlongFrameIsDroppedToItsDelimiter : Obligations.OverlongFrameIsDroppedToItsDelimiter := by
  intro s b bs hd hl hb hz
  have hfirst : execRxByte b s = .next { s with rxAcc := [], rxDiscard := true, rxLost := true } :=
    (execRxByte_data hb s).trans (congrArg _ (rxData_overlong hd hl))
  have hfeed := (runFeed_cons (bs := bs) hfirst).trans (runFeed_discard bs rfl hz)
  exact ⟨hfeed, runFeed_zero hfeed⟩

/-- Settles O38: the bytes are accumulated, and the 0x00 finds room or none. -/
theorem frameBecomesAvailableAtItsDelimiter : Obligations.FrameBecomesAvailableAtItsDelimiter := by
  intro s bs hd ha hne hz hl
  have hfeed : runFeed bs s = .next (s.setAcc bs) := by
    simpa [ha] using runFeed_accumulate bs hd hz (by simpa [ha] using hl)
  refine ⟨hfeed, fun hq => ?_, fun hq => ?_⟩
  · rw [runFeed_zero hfeed, rxDelimiter_room (s := s.setAcc bs) hd hne hq, State.pushFrame, State.setRxq]
    simp [State.setAcc, ← ha]
  · rw [runFeed_zero hfeed, rxDelimiter_noRoom (s := s.setAcc bs) hd hne hq]
    simp [State.setAcc, State.setLost, ← ha]

/-! ### Back in step (R155) -/

/-- The synchronizer discards with an empty accumulator (10_state.md R37 (b)). -/
def DiscardsEmpty (s : State) : Prop := s.rxDiscard = true → s.rxAcc = []

/-- What link bytes leave unchanged: no response, nothing on the TX port, and the frames that are queued. -/
structure LinkKeeps (s t : State) : Prop where
  responses : t.responses = s.responses
  txOut : t.txOut = s.txOut
  queue : s.rxq <+: t.rxq

theorem LinkKeeps.refl (s : State) : LinkKeeps s s := ⟨rfl, rfl, List.prefix_rfl⟩

theorem LinkKeeps.trans {u : State} (h : LinkKeeps s t) (h' : LinkKeeps t u) : LinkKeeps s u :=
  ⟨h'.responses.trans h.responses, h'.txOut.trans h.txOut, h.queue.trans h'.queue⟩

theorem execRxByte_linkKeeps (h : execRxByte b s = .next t) : LinkKeeps s t := by
  obtain ⟨hr, htx⟩ := execRxByte_responses_txOut h
  refine ⟨hr, htx, ?_⟩
  obtain hq | ⟨F, hq⟩ := execRxByte_rxq h <;> rw [hq]
  exact List.prefix_append _ _

theorem execRxByte_discardsEmpty (hs : DiscardsEmpty s) (h : execRxByte b s = .next t) : DiscardsEmpty t := by
  obtain ⟨-, -, e⟩ | ⟨-, -, -, e⟩ | ⟨-, hd, -, -, e⟩ | ⟨-, hd, -, -, e⟩ | ⟨-, -, e⟩ | ⟨-, -, -, e⟩ | ⟨-, hd, -, e⟩ :=
    execRxByte_cases b s <;> cases h.symm.trans e
  · exact nofun
  · exact hs
  · exact fun _ => rfl
  · exact fun _ => rfl
  · exact hs
  · exact fun _ => rfl
  · exact fun hd' => absurd (hd.symm.trans hd') nofun

/-- Any link bytes keep both. -/
theorem runFeed_keeps (bs : Bytes) (hs : DiscardsEmpty s) :
    ∃ t, runFeed bs s = .next t ∧ DiscardsEmpty t ∧ LinkKeeps s t := by
  induction bs generalizing s with
  | nil => exact ⟨s, rfl, hs, .refl s⟩
  | cons b bs ih =>
    obtain ⟨u, hu, -⟩ := exec_next s (.rxByte b)
    obtain ⟨t, ht, hempty, hkeeps⟩ := ih (execRxByte_discardsEmpty hs hu)
    exact ⟨t, (runFeed_cons hu).trans ht, hempty, (execRxByte_linkKeeps hu).trans hkeeps⟩

/-- After a 0x00 nothing is pending of the frame before it. -/
theorem rxDelimiter_inStep (hs : DiscardsEmpty s) : (rxDelimiter s).rxAcc = [] ∧ (rxDelimiter s).rxDiscard = false := by
  cases hd : s.rxDiscard with
  | true => simp [rxDelimiter_discarding hd, hs hd]
  | false =>
    by_cases ha : s.rxAcc = []
    · simp [rxDelimiter_empty hd ha, ha, hd]
    · obtain hq | hq := Nat.lt_or_ge s.rxq.length s.cfg.rxqDepth
      · simp [rxDelimiter_room hd ha hq, hd]
      · simp [rxDelimiter_noRoom hd ha hq, hd]

/-- Settles O39: the bytes keep the premise, and the 0x00 ends whatever they began. -/
theorem synchronizerIsBackInStepAfterADelimiter : Obligations.SynchronizerIsBackInStepAfterADelimiter := by
  intro s bs hs
  obtain ⟨t, ht, hempty, hkeeps⟩ := runFeed_keeps bs hs
  obtain ⟨hr, htx, q, hq⟩ := hkeeps.trans (execRxByte_linkKeeps (execRxByte_zero t))
  obtain ⟨ha, hd⟩ := rxDelimiter_inStep hempty
  exact ⟨rxDelimiter t, runFeed_zero ht, ha, hd, hr, htx, q, hq.symm⟩

/-! ### RX.POP and RX.STATUS (R152, R153) -/

theorem execRxPop_operand {op : Bytes} (hop : op ≠ []) : execRxPop op s = raise s .malformed :=
  if_pos (List.length_pos_iff.mpr hop)

theorem execRxStatus_operand {op : Bytes} (hop : op ≠ []) : execRxStatus op s = raise s .malformed :=
  if_pos (List.length_pos_iff.mpr hop)

/-- Settles O40. -/
theorem rxPopTakesTheOldestFrame : Obligations.RxPopTakesTheOldestFrame :=
  ⟨encodedAs_of_decodeOpcode fun _ => rfl, fun _ => ⟨fun _ hop => answers_of_raise (execRxPop_operand hop),
    fun hq => answers_of_raise (execRxPop_empty hq), fun _ _ hq => execRxPop_queued hq⟩⟩

theorem rxFlagsByte_eq (s : State) :
    rxFlagsByte s = byte ((if s.rxLost then 2 else 0) + (if s.rxDiscard then 1 else 0)) := by
  unfold rxFlagsByte
  cases s.rxLost <;> cases s.rxDiscard <;> rfl

/-- The four bytes of the RX status register (10_state.md R28). -/
theorem rxStatusRegister_eq (s : State) : rxStatusRegister s =
    [byte s.rxq.length, byte ((if s.rxLost then 2 else 0) + (if s.rxDiscard then 1 else 0)),
      byte (s.rxAcc.length / 256), byte s.rxAcc.length] := by
  rw [rxStatusRegister, rxFlagsByte_eq, be16Nat_eq]
  rfl

/-- Settles O41. -/
theorem rxStatusReadsAndClears : Obligations.RxStatusReadsAndClears := by
  refine ⟨encodedAs_of_decodeOpcode fun _ => rfl, fun s => ⟨fun op hop => answers_of_raise (execRxStatus_operand hop), ?_⟩⟩
  have hexec : exec (.rxStatus []) s = finish (s.setLost false) (rxStatusRegister s) := rfl
  rw [hexec, rxStatusRegister_eq]
  rfl

/-! ### A frame of the block's own (R142, R148, R152) -/

/-- Settles O45: the frame of a packet fits the accumulator, its delimiter queues it, RX.POP takes it out again, and
de-framing undoes framing. -/
theorem emittedFrameIsReceivedWhole : Obligations.EmittedFrameIsReceivedWhole := by
  intro s pkt _ hmax ha hd hq hdepth
  generalize s.cfg.cobsFullBlockTrailer = T
  have hfits : (cobsBody T [] pkt).length ≤ s.cfg.maxFrame - 1 := by
    have hlen := cobsFrame_length_le_div T pkt
    have hdiv : pkt.length / 254 ≤ s.cfg.maxPacket / 254 := Nat.div_le_div_right hmax
    rw [cobsFrame_length] at hlen
    rw [Config.maxFrame]
    omega
  have hroom : s.rxq.length < s.cfg.rxqDepth := by
    rw [hq]
    exact hdepth
  obtain ⟨-, hqueued, -⟩ := frameBecomesAvailableAtItsDelimiter s (cobsBody T [] pkt) hd ha (cobsBody_ne_nil T [] pkt)
    (cobsBody_noZero T .nil List.not_mem_nil) hfits
  have hfeed := hqueued hroom
  rw [← cobsFrame_eq, hq, List.nil_append] at hfeed
  refine ⟨_, _, hfeed, execRxPop_queued rfl, ?_, rfl, answers_cobsDeframe_ok (cobsDeframe_cobsFrame T pkt)⟩
  simp [State.arch, hq]

end Sys2Proof.Machine
end

section
/-! TM assembly and send (43_packets.md R172 to R174): the outcomes of the checks that the two commands share. -/

namespace Sys2Proof.Machine

open Sys2Proof.Claims

variable {i : Instr} {s : State} {op : Bytes} {body : Bytes → Result}

/-! ### The checks of a TM operand (R173) -/

theorem num16_drop (B : Bytes) (n k : Nat) : num16 (B.drop n) k = num16 B (n + k) := by
  rw [num16, num_drop, num_drop, num16, Nat.add_assoc]

/-- The containers of the second header are those of the operand from byte 14 on (30_encoding.md R84). -/
theorem inRange_drop (n : Nat) (ws : List Nat) : InRange (op.drop n) 0 ws ↔ InRange op n ws := by
  simp only [InRange, Nat.zero_add, num16_drop]

theorem fvInRange_ph_iff : fvInRange op 0 phWidths = true ↔ InRange op 0 phBits := fvInRange_iff_inRange

theorem fvInRange_tm_iff : fvInRange (op.drop 14) 0 tmshWidths = true ↔ InRange op 14 tmBits :=
  fvInRange_iff_inRange.trans (inRange_drop 14 tmBits)

theorem withTmPacket_short (h : op.length < 28) : withTmPacket op s body = raise s .truncated := withMinLen_short h

theorem withTmPacket_outOfRange (hlen : 28 ≤ op.length) (h : ¬ (InRange op 0 phBits ∧ InRange op 14 tmBits)) :
    withTmPacket op s body = raise s .malformed := by
  rw [← fvInRange_ph_iff, ← fvInRange_tm_iff] at h
  obtain ⟨hshort, -⟩ | ⟨-, -, e⟩ | ⟨-, hph, htm, -⟩ | ⟨-, hph, htm, -⟩ := withTmPacket_cases op s body
  · omega
  · exact e
  · exact absurd ⟨hph, htm⟩ h
  · exact absurd ⟨hph, htm⟩ h

section InRange

variable (hlen : 28 ≤ op.length) (hph : InRange op 0 phBits) (htm : InRange op 14 tmBits)
include hlen hph htm

theorem withTmPacket_tooLong (hlong : 17 + (op.length - 28) > s.cfg.maxPacket) :
    withTmPacket op s body = raise s .tooLong := by
  rw [← fvInRange_ph_iff] at hph
  rw [← fvInRange_tm_iff] at htm
  obtain ⟨hshort, -⟩ | ⟨-, hbad, -⟩ | ⟨-, -, -, -, e⟩ | ⟨-, -, -, hfits, -⟩ := withTmPacket_cases op s body
  · omega
  · exact absurd ⟨hph, htm⟩ hbad
  · exact e
  · omega

theorem withTmPacket_fits (hfits : 17 + (op.length - 28) ≤ s.cfg.maxPacket) :
    withTmPacket op s body = body (tmPacket op) := by
  rw [← fvInRange_ph_iff] at hph
  rw [← fvInRange_tm_iff] at htm
  obtain ⟨hshort, -⟩ | ⟨-, hbad, -⟩ | ⟨-, -, -, hlong, -⟩ | ⟨-, -, -, -, e⟩ := withTmPacket_cases op s body
  · omega
  · exact absurd ⟨hph, htm⟩ hbad
  · omega
  · exact e

end InRange

/-! ### The commands -/

/-- What TM.ASSEMBLE and TM.SEND share: three failures, and else what the command does with the packet. -/
theorem answers_of_withTmPacket (h : exec i s = withTmPacket op s body) :
    (op.length < 28 → Answers i s ⟨.truncated, []⟩) ∧
    (28 ≤ op.length → ¬ (InRange op 0 phBits ∧ InRange op 14 tmBits) → Answers i s ⟨.malformed, []⟩) ∧
    (28 ≤ op.length → InRange op 0 phBits → InRange op 14 tmBits → 17 + (op.length - 28) > s.cfg.maxPacket →
      Answers i s ⟨.tooLong, []⟩) ∧
    (28 ≤ op.length → InRange op 0 phBits → InRange op 14 tmBits → 17 + (op.length - 28) ≤ s.cfg.maxPacket →
      exec i s = body (tmPacket op)) :=
  ⟨fun hshort => answers_of_raise (h.trans (withTmPacket_short hshort)),
    fun hlen hbad => answers_of_raise (h.trans (withTmPacket_outOfRange hlen hbad)),
    fun hlen hph htm hlong => answers_of_raise (h.trans (withTmPacket_tooLong hlen hph htm hlong)),
    fun hlen hph htm hfits => h.trans (withTmPacket_fits hlen hph htm hfits)⟩

/-- Settles O46: the packet that the checks let through is the result. -/
theorem tmAssembleBuildsThePacket : Obligations.TmAssembleBuildsThePacket := by
  refine ⟨encodedAs_of_decodeOpcode fun _ => rfl, fun op s => ?_⟩
  obtain ⟨hshort, hbad, hlong, hok⟩ := answers_of_withTmPacket (i := .tmAssemble op) (s := s) rfl
  exact ⟨hshort, hbad, hlong, fun hlen hph htm hfits =>
    ⟨answersWithCrc_of_finish_releaseCrc (hok hlen hph htm hfits), tmPacket_length op⟩⟩

/-- The frame of a packet that fits MAX_PACKET fits MAX_FRAME (00_scope.md R6). -/
theorem cobsFrame_length_le_maxFrame {cfg : Config} {pkt : Bytes} (T : Bool) (h : pkt.length ≤ cfg.maxPacket) :
    (cobsFrame T pkt).length ≤ cfg.maxFrame := by
  have hframe : (cobsFrame T pkt).length ≤ pkt.length + pkt.length / 254 + 2 := cobsFrame_length_le_div T pkt
  have hdiv : pkt.length / 254 ≤ cfg.maxPacket / 254 := Nat.div_le_div_right h
  rw [Config.maxFrame]
  omega

/-- Settles O47: the packet that the checks let through goes out as one frame. -/
theorem tmSendEmitsOneFrame : Obligations.TmSendEmitsOneFrame := by
  refine ⟨encodedAs_of_decodeOpcode fun _ => rfl, fun op s => ?_⟩
  obtain ⟨hshort, hbad, hlong, hok⟩ := answers_of_withTmPacket (i := .tmSend op) (s := s) rfl
  obtain ⟨hlast, hzero, -⟩ := frameHasOneZeroAndBoundedLength s.cfg.cobsFullBlockTrailer (tmPacket op)
  refine ⟨hshort, hbad, hlong, fun hlen hph htm hfits =>
    ⟨⟨_, _, hok hlen hph htm hfits⟩, cobsFrame_length_le_maxFrame _ ?_, hlast, hzero⟩⟩
  rwa [tmPacket_length]

end Sys2Proof.Machine
end

section
/-! TC ingest (43_packets.md R175 to R177): the outcome of each check, and the layout of a ValidatedTc. -/

namespace Sys2Proof.Machine

open Sys2Proof.Claims

variable {cfg : Config} {s : State} {op D : Bytes} {st : Status} {v : ValidatedTc} {L : Nat}

/-! ### The fields that the checks read (R175) -/

theorem byteAt_take {n k : Nat} (hk : k < n) (B : Bytes) : byteAt (B.take n) k = byteAt B k := by
  simp [byteAt, List.getD_eq_getElem?_getD, List.getElem?_take_of_lt hk]

/-- `data_length` of a packet's primary header, from the packet's bytes. -/
theorem phDecode_take_dataLength (D : Bytes) : (phDecode (D.take 6)).dataLength.toNat = num16 D 4 := by
  obtain ⟨-, -, -, -, -, -, hdl⟩ := phDecode_fields (D.take 6)
  rw [hdl, byteAt_take (by decide), byteAt_take (by decide)]
  rfl

/-- The secondary header flag of a packet's primary header, from the packet's bytes. -/
theorem phDecode_take_secHdrFlag (D : Bytes) : (phDecode (D.take 6)).secHdrFlag.toNat = num D 0 / 8 % 2 := by
  obtain ⟨-, -, hsec, -⟩ := phDecode_fields (D.take 6)
  rw [hsec, byteAt_take (by decide)]
  rfl

theorem phDecode_take_secHdrFlag_eq_one_iff (D : Bytes) :
    (phDecode (D.take 6)).secHdrFlag = 1 ↔ num D 0 / 8 % 2 = 1 := by
  rw [← phDecode_take_secHdrFlag, ← BitVec.toNat_inj]
  rfl

/-! ### The length checks that fail (steps 2 to 8 of R175) -/

theorem tcIngestPacket_noHeader (h : D.length < 6) : tcIngestPacket cfg D = .error .truncated := if_pos h

section DeclaredLength

variable (hL : L = num16 D 4 + 7)
include hL

theorem tcIngestPacket_short (h6 : 6 ≤ D.length) (h : D.length < L) : tcIngestPacket cfg D = .error .truncated := by
  simp only [tcIngestPacket, phDecode_take_dataLength, ← hL]
  rw [if_neg (by omega), if_pos h]

theorem tcIngestPacket_long (h6 : 6 ≤ D.length) (h : D.length > L) : tcIngestPacket cfg D = .error .malformed := by
  simp only [tcIngestPacket, phDecode_take_dataLength, ← hL]
  rw [if_neg (by omega), if_neg (by omega), if_pos h]

theorem tcIngestPacket_tooLong (hlen : D.length = L) (h : L > cfg.maxPacket) :
    tcIngestPacket cfg D = .error .tooLong := by
  simp only [tcIngestPacket, phDecode_take_dataLength, ← hL]
  rw [if_neg (by omega), if_neg (by omega), if_neg (by omega), if_pos h]

theorem tcIngestPacket_noTrailer (hlen : D.length = L) (hmax : L ≤ cfg.maxPacket) (h : L < 8) :
    tcIngestPacket cfg D = .error .malformed := by
  simp only [tcIngestPacket, phDecode_take_dataLength, ← hL]
  rw [if_neg (by omega), if_neg (by omega), if_neg (by omega), if_neg (by omega), if_pos h]

theorem tcIngestPacket_noSecHdr (hlen : D.length = L) (hmax : L ≤ cfg.maxPacket) (hmin : 8 ≤ L)
    (hsec : num D 0 / 8 % 2 = 1) (h : L < 13) : tcIngestPacket cfg D = .error .malformed := by
  simp only [tcIngestPacket, phDecode_take_dataLength, phDecode_take_secHdrFlag_eq_one_iff, ← hL]
  rw [if_neg (by omega), if_neg (by omega), if_neg (by omega), if_neg (by omega), if_neg (by omega), if_pos ⟨hsec, h⟩]

/-! ### The packets that pass them (steps 9 and 10 of R175) -/

theorem passesLengthChecks_of_declared (hlen : D.length = L) (hmax : L ≤ cfg.maxPacket) (hmin : 8 ≤ L)
    (hsec : num D 0 / 8 % 2 = 1 → 13 ≤ L) : PassesLengthChecks cfg D where
  length_eq := by rw [phDecode_take_dataLength, hlen, hL]
  le_max := hlen ▸ hmax
  eight_le := hlen ▸ hmin
  secHdr_fits h := hlen ▸ hsec ((phDecode_take_secHdrFlag_eq_one_iff D).mp h)

end DeclaredLength

/-- Step 9 compares two numbers, which are equal exactly when the residue is zero (40_crc.md R108). -/
theorem crc16_take_toNat_eq_iff (hlen : D.length = L) (h : 2 ≤ L) :
    (crc16 (D.take (L - 2))).toNat = num16 D (L - 2) ↔ crc16 D = 0 := by
  subst hlen
  rw [← crc16_take_eq_u16beAt_iff h, ← BitVec.toNat_inj, u16beAt_toNat]
  rfl

/-- A packet that passes the length checks with residue zero is accepted (step 10 of R175, R176). -/
theorem tcIngestPacket_accepts (h : PassesLengthChecks cfg D) (hcrc : crc16 D = 0) :
    tcIngestPacket cfg D = .ok (if (phDecode (D.take 6)).secHdrFlag = 1
      then ⟨phDecode (D.take 6), some (tcshDecode ((D.drop 6).take 5)), (D.drop 11).take (D.length - 13)⟩
      else ⟨phDecode (D.take 6), none, (D.drop 6).take (D.length - 8)⟩) := by
  obtain ⟨hL, hmax, hmin, hsec⟩ := h
  have heq : crc16 (D.take (D.length - 2)) = u16beAt D (D.length - 2) :=
    (crc16_take_eq_u16beAt_iff (by omega)).mpr hcrc
  simp only [tcIngestPacket, ← hL, List.drop_take, Nat.sub_sub]
  rw [if_neg (by omega), if_neg (by omega), if_neg (by omega), if_neg (by omega), if_neg (by omega),
    if_neg fun h => by have := hsec h.1; omega, if_neg (not_not.mpr heq)]
  split <;> rfl

theorem tcIngestPacket_accepts_secHdr (h : PassesLengthChecks cfg D) (hcrc : crc16 D = 0)
    (hsec : num D 0 / 8 % 2 = 1) : tcIngestPacket cfg D =
      .ok ⟨phDecode (D.take 6), some (tcshDecode ((D.drop 6).take 5)), (D.drop 11).take (D.length - 13)⟩ := by
  rw [tcIngestPacket_accepts h hcrc, if_pos ((phDecode_take_secHdrFlag_eq_one_iff D).mpr hsec)]

theorem tcIngestPacket_accepts_noSecHdr (h : PassesLengthChecks cfg D) (hcrc : crc16 D = 0)
    (hsec : num D 0 / 8 % 2 ≠ 1) :
    tcIngestPacket cfg D = .ok ⟨phDecode (D.take 6), none, (D.drop 6).take (D.length - 8)⟩ := by
  rw [tcIngestPacket_accepts h hcrc, if_neg ((phDecode_take_secHdrFlag_eq_one_iff D).not.mpr hsec)]

/-! ### The command (R177) -/

theorem tcIngest_of_deframed (h : cobsDeframe op = some D) : tcIngest cfg op = tcIngestPacket cfg D := by
  rw [tcIngest, h]

/-- A failure before step 9 changes nothing (R178). -/
theorem answers_tcIngest_error (h : tcIngest s.cfg op = .error st) (hst : st ≠ .checksumMismatch) :
    Answers (.tcIngest op) s ⟨st, []⟩ := by
  obtain ⟨v, hv, -⟩ | ⟨hmismatch, -⟩ | ⟨st', hst', -, e⟩ := execTcIngest_cases op s
  · cases h.symm.trans hv
  · cases h.symm.trans hmismatch
    exact absurd rfl hst
  · cases h.symm.trans hst'
    exact answers_of_raise e

theorem answersWithCrc_tcIngest_ok (h : tcIngest s.cfg op = .ok v) :
    AnswersWithCrc (.tcIngest op) s ⟨.ok, v.bytes⟩ := by
  obtain ⟨v', hv, e⟩ | ⟨hmismatch, -⟩ | ⟨st, hst, -⟩ := execTcIngest_cases op s
  · cases h.symm.trans hv
    exact answersWithCrc_of_finish_releaseCrc e
  · cases h.symm.trans hmismatch
  · cases h.symm.trans hst

/-- Settles O48: the checks in their order over the de-framed bytes; the CRC check by the residue. -/
theorem tcIngestFirstFailingCheckDecides : Obligations.TcIngestFirstFailingCheckDecides := by
  refine ⟨encodedAs_of_decodeOpcode fun _ => rfl, fun op s => ⟨answers_tcIngest_malformed, ?_⟩⟩
  intro D L sec hD hL rfl
  have hfails {st} (h : tcIngestPacket s.cfg D = .error st) (hst : st ≠ .checksumMismatch) :
      Answers (.tcIngest op) s ⟨st, []⟩ := answers_tcIngest_error ((tcIngest_of_deframed hD).trans h) hst
  refine ⟨fun h => hfails (tcIngestPacket_noHeader h) nofun, fun h6 h => hfails (tcIngestPacket_short hL h6 h) nofun,
    fun h6 h => hfails (tcIngestPacket_long hL h6 h) nofun,
    fun hlen h => hfails (tcIngestPacket_tooLong hL hlen h) nofun,
    fun hlen hmax h => hfails (tcIngestPacket_noTrailer hL hlen hmax h) nofun,
    fun hlen hmax hmin hsec h => hfails (tcIngestPacket_noSecHdr hL hlen hmax hmin hsec h) nofun,
    fun hlen hmax hmin hsec hcrc => ?_, fun hlen hmax hmin hsec hcrc => ?_, fun hlen hmax hmin hsec hcrc => ?_⟩
  · have hchecks := passesLengthChecks_of_declared hL hlen hmax hmin hsec
    have hres : crc16 D ≠ 0 := (crc16_take_toNat_eq_iff hlen (by omega)).not.mp hcrc
    exact answersWithCrc_tcIngest_error
      ((tcIngest_of_deframed hD).trans (tcIngestPacket_checksumMismatch hchecks hres))
  · have hchecks := passesLengthChecks_of_declared hL hlen hmax (by omega) fun _ => hmin
    have hv := tcIngestPacket_accepts_secHdr hchecks ((crc16_take_toNat_eq_iff hlen (by omega)).mp hcrc) hsec
    rw [hlen, ← tcIngest_of_deframed hD] at hv
    simpa [ValidatedTc.bytes] using answersWithCrc_tcIngest_ok hv
  · have hchecks := passesLengthChecks_of_declared hL hlen hmax hmin (by omega)
    have hv := tcIngestPacket_accepts_noSecHdr hchecks ((crc16_take_toNat_eq_iff hlen (by omega)).mp hcrc) (by omega)
    rw [hlen, ← tcIngest_of_deframed hD] at hv
    simpa [ValidatedTc.bytes] using answersWithCrc_tcIngest_ok hv

end Sys2Proof.Machine
end

section
/-! A command that fails leaves no trace (60_exceptions.md R195): it writes nothing but the CRC register and its response,
and no later command reads either. -/

namespace Sys2Proof.Machine

variable {s s' t u : State} {i : Instr} {port : Bytes} {r : Response}

/-! ### What a failed command leaves -/

/-- Only a command that succeeds has an effect on the architectural state. -/
theorem CommandEffect.failure_arch (he : CommandEffect s i u r) (hst : r.status ≠ .ok) : u.arch = s.arch := by
  cases he with
  | answer => rfl
  | pop => exact absurd rfl hst
  | status => exact absurd rfl hst
  | send => exact absurd rfl hst

/-- A command of the port that fails, ILLEGAL_COMMAND included, writes no architectural state and returns no bytes. -/
theorem EventEffect.failure (he : EventEffect s (.command port) t) (hr : t.responses = s.responses ++ [r])
    (hst : r.status ≠ .ok) : t.arch = s.arch ∧ r.result = [] := by
  cases he with
  | command hd he =>
    rw [State.respond_responses, he.responses, List.append_right_inj, List.singleton_inj] at hr
    subst hr
    exact ⟨he.failure_arch hst, he.failure_empty hst⟩
  | illegal hd =>
    rw [State.respond_responses, List.append_right_inj, List.singleton_inj] at hr
    subst hr
    exact ⟨rfl, rfl⟩

/-! ### What a later command reads -/

/-- The results, from `s` and from `s'`, add one and the same response and end in one architectural state. -/
def SameOutcome (s s' : State) (x x' : Result) : Prop :=
  ∃ u u' r, x = .next u ∧ x' = .next u' ∧ u'.arch = u.arch ∧
    u.responses = s.responses ++ [r] ∧ u'.responses = s'.responses ++ [r]

theorem SameAnswer.sameOutcome {x x' : Result} (h : SameAnswer s s' x x') (harch : s'.arch = s.arch) :
    SameOutcome s s' x x' := by
  obtain ⟨r, ⟨_, _, hx⟩, _, _, hx'⟩ := h
  exact ⟨_, _, r, hx, hx', harch, rfl, rfl⟩

/-- The checks of TM.ASSEMBLE and TM.SEND read the operand and the parameters alone (43_packets.md R173). -/
theorem withTmPacket_congr (op : Bytes) (hcfg : s'.cfg = s.cfg) (body body' : Bytes → Result) :
    (∃ st, withTmPacket op s body = raise s st ∧ withTmPacket op s' body' = raise s' st) ∨
    withTmPacket op s body = body (tmPacket op) ∧ withTmPacket op s' body' = body' (tmPacket op) := by
  obtain hshort | hlen := Nat.lt_or_ge op.length 28
  · exact .inl ⟨_, withTmPacket_short hshort, withTmPacket_short hshort⟩
  by_cases hrange : Claims.InRange op 0 Claims.phBits ∧ Claims.InRange op 14 Claims.tmBits
  · obtain ⟨hph, htm⟩ := hrange
    obtain hlong | hfits := Nat.lt_or_ge s.cfg.maxPacket (17 + (op.length - 28))
    · exact .inl ⟨_, withTmPacket_tooLong hlen hph htm hlong, withTmPacket_tooLong hlen hph htm (hcfg ▸ hlong)⟩
    · exact .inr ⟨withTmPacket_fits hlen hph htm hfits, withTmPacket_fits hlen hph htm (hcfg ▸ hfits)⟩
  · exact .inl ⟨_, withTmPacket_outOfRange hlen hrange, withTmPacket_outOfRange hlen hrange⟩

/-- The RX status register is read off the architectural state (10_state.md R28). -/
theorem rxStatusRegister_congr (harch : s'.arch = s.arch) : rxStatusRegister s' = rxStatusRegister s := by
  obtain ⟨hacc, hdiscard, hlost, hq, -⟩ := (State.arch_eq_iff s s').mp harch
  simp only [rxStatusRegister, rxFlagsByte, hacc, hdiscard, hlost, hq]

/-- A command reads nothing but its operand, the architectural state and the parameters. -/
theorem exec_sameOutcome (hi : ∀ b, i ≠ .rxByte b) (harch : s'.arch = s.arch) (hcfg : s'.cfg = s.cfg) :
    SameOutcome s s' (exec i s) (exec i s') := by
  obtain ⟨hacc, hdiscard, hlost, hq, htx⟩ := (State.arch_eq_iff s s').mp harch
  cases i with
  | rxPop op =>
    obtain ⟨hop, e⟩ | ⟨rfl, hnil, e⟩ | ⟨F, q, rfl, hcons, e⟩ := execRxPop_cases op s
    · exact ⟨_, _, _, e, execRxPop_operand hop, harch, rfl, rfl⟩
    · exact ⟨_, _, _, e, execRxPop_empty (hq.trans hnil), harch, rfl, rfl⟩
    · exact ⟨_, _, _, e, execRxPop_queued (hq.trans hcons), by simp [hacc, hdiscard, hlost, htx], rfl, rfl⟩
  | rxStatus op =>
    obtain ⟨hop, e⟩ | ⟨rfl, e⟩ := execRxStatus_cases op s
    · exact ⟨_, _, _, e, execRxStatus_operand hop, harch, rfl, rfl⟩
    · refine ⟨_, _, _, e, rfl, by simp [hacc, hdiscard, hq, htx], rfl, ?_⟩
      rw [← rxStatusRegister_congr harch]
      rfl
  | tmSend op =>
    obtain ⟨st, e, e'⟩ | ⟨e, e'⟩ := withTmPacket_congr op hcfg
      (fun pkt => finish (s.releaseCrc.emitTx (cobsFrame s.cfg.cobsFullBlockTrailer pkt)) [])
      (fun pkt => finish (s'.releaseCrc.emitTx (cobsFrame s'.cfg.cobsFullBlockTrailer pkt)) [])
    · exact ⟨_, _, _, e, e', harch, rfl, rfl⟩
    · exact ⟨_, _, _, e, e', by simp [hacc, hdiscard, hlost, hq, htx, hcfg], rfl, rfl⟩
  | rxByte b => exact absurd rfl (hi b)
  | _ op => exact (exec_sameAnswer (by trivial) hcfg).sameOutcome harch

/-- What the command port makes of its bytes depends on the bytes alone: an instruction, an illegal command or a refusal
(30_encoding.md R76, 70_reset_and_hazards.md R226). -/
theorem runCommand_cases (port : Bytes) :
    (∃ i, decodeCommand port = .ok i) ∨ (∀ s, runCommand port s = raise s .illegalCommand) ∨
    ∃ why, ∀ s, runCommand port s = .refused why := by
  cases hd : decodeCommand port with
  | ok i => exact .inl ⟨i, rfl⟩
  | error e =>
    cases e with
    | reservedNotZero _ | unassignedOpcode _ => exact .inr (.inl fun s => by simp only [runCommand, hd])
    | _ => exact .inr (.inr ⟨_, fun s => by simp only [runCommand, hd]; rfl⟩)

/-- A command of the port reads nothing but its bytes, the architectural state and the parameters. -/
theorem runCommand_sameOutcome (harch : s'.arch = s.arch) (hcfg : s'.cfg = s.cfg) (h : runCommand port s = .next u) :
    SameOutcome s s' (runCommand port s) (runCommand port s') := by
  obtain ⟨i, hd⟩ | hillegal | ⟨why, hrefused⟩ := runCommand_cases port
  · rw [runCommand_ok hd, runCommand_ok hd]
    exact exec_sameOutcome (decodeCommand_ne_rxByte hd) harch hcfg
  · rw [hillegal, hillegal]
    exact (SameAnswer.raise _).sameOutcome harch
  · cases h.symm.trans (hrefused s)

/-- Settles O10: a failed command leaves the architectural state and the parameters, and a later command reads nothing
else. -/
theorem failedCommandChangesNothing : Obligations.FailedCommandChangesNothing := by
  intro s t port es r hp hstep hr hst
  have he : EventEffect (s.setPending es) (.command port) t := step_effect hp hstep
  obtain ⟨hcfg, hpending⟩ := he.cfg_pending
  obtain ⟨harch, hresult⟩ := he.failure hr hst
  refine ⟨harch, hcfg, hpending, hresult, fun port' u r' hu hr' => ?_⟩
  obtain ⟨v, u', r'', hv, hu', harch', hv', hr''⟩ := runCommand_sameOutcome harch hcfg hu
  cases hv.symm.trans hu
  obtain rfl : r'' = r' := List.singleton_inj.mp (List.append_cancel_left (hv'.symm.trans hr'))
  exact ⟨u', hu', harch', hr''⟩

end Sys2Proof.Machine
end

section
/-! The status table of 60_exceptions.md R192: what a command can return, and an operand and a state for each entry. -/

namespace Sys2Proof.Machine

open Sys2Proof.Claims

/-! ### No other status -/

/-- The result adds one response, with a status out of the list. -/
def RespondsWithin (s : State) (sts : List Status) (x : Result) : Prop :=
  ∃ (u : State) (r : Response), x = .next (u.respond r) ∧ u.responses = s.responses ∧ r.status ∈ sts

theorem exec_respondsWithin {i : Instr} (hi : ∀ b, i ≠ .rxByte b) (s : State) :
    RespondsWithin s (canReturn i) (exec i s) := by
  cases i with
  | crcCompute op => exact ⟨_, _, execCrcCompute_next op s, rfl, by simp [canReturn]⟩
  | crcUpdate op =>
    obtain ⟨-, e⟩ | ⟨-, e⟩ := execCrcUpdate_cases op s <;> exact ⟨_, _, e, rfl, by simp [canReturn]⟩
  | crcValidate op =>
    obtain ⟨-, e⟩ | ⟨-, -, e⟩ | ⟨-, -, e⟩ := execCrcValidate_cases op s <;> exact ⟨_, _, e, rfl, by simp [canReturn]⟩
  | crcAppend op =>
    obtain ⟨-, e⟩ | ⟨-, e⟩ := execCrcAppend_cases op s <;> exact ⟨_, _, e, rfl, by simp [canReturn]⟩
  | phEncode op =>
    obtain ⟨-, e⟩ | ⟨-, e⟩ | ⟨-, -, e⟩ | ⟨-, -, e⟩ := execPhEncode_cases op s <;>
      exact ⟨_, _, e, rfl, by simp [canReturn]⟩
  | phDecode op =>
    obtain ⟨-, e⟩ | ⟨-, e⟩ | ⟨-, e⟩ := execPhDecode_cases op s <;> exact ⟨_, _, e, rfl, by simp [canReturn]⟩
  | tcshEncode op =>
    obtain ⟨-, e⟩ | ⟨-, e⟩ | ⟨-, -, e⟩ | ⟨-, -, e⟩ := execTcshEncode_cases op s <;>
      exact ⟨_, _, e, rfl, by simp [canReturn]⟩
  | tcshDecode op =>
    obtain ⟨-, e⟩ | ⟨-, e⟩ | ⟨-, e⟩ := execTcshDecode_cases op s <;> exact ⟨_, _, e, rfl, by simp [canReturn]⟩
  | tmshEncode op =>
    obtain ⟨-, e⟩ | ⟨-, e⟩ | ⟨-, -, e⟩ | ⟨-, -, e⟩ := execTmshEncode_cases op s <;>
      exact ⟨_, _, e, rfl, by simp [canReturn]⟩
  | tmshDecode op =>
    obtain ⟨-, e⟩ | ⟨-, e⟩ | ⟨-, e⟩ := execTmshDecode_cases op s <;> exact ⟨_, _, e, rfl, by simp [canReturn]⟩
  | cobsFrame op =>
    obtain ⟨-, e⟩ | ⟨-, e⟩ := execCobsFrame_cases op s <;> exact ⟨_, _, e, rfl, by simp [canReturn]⟩
  | cobsDeframe op =>
    obtain ⟨-, e⟩ | ⟨_, -, e⟩ := execCobsDeframe_cases op s <;> exact ⟨_, _, e, rfl, by simp [canReturn]⟩
  | rxPop op =>
    obtain ⟨-, e⟩ | ⟨-, -, e⟩ | ⟨_, _, -, -, e⟩ := execRxPop_cases op s <;> exact ⟨_, _, e, rfl, by simp [canReturn]⟩
  | rxStatus op =>
    obtain ⟨-, e⟩ | ⟨-, e⟩ := execRxStatus_cases op s <;> exact ⟨_, _, e, rfl, by simp [canReturn]⟩
  | tmAssemble op =>
    obtain ⟨_, -, e, rfl | rfl | rfl⟩ | ⟨-, e⟩ := execTmAssemble_cases op s <;>
      exact ⟨_, _, e, rfl, by simp [canReturn]⟩
  | tmSend op =>
    obtain ⟨_, -, e, rfl | rfl | rfl⟩ | ⟨-, -, e⟩ := execTmSend_cases op s <;>
      exact ⟨_, _, e, rfl, by simp [canReturn]⟩
  | tcIngest op =>
    obtain ⟨_, -, e⟩ | ⟨-, e⟩ | ⟨_, -, rfl | rfl | rfl, e⟩ := execTcIngest_cases op s <;>
      exact ⟨_, _, e, rfl, by simp [canReturn]⟩
  | rxByte b => exact absurd rfl (hi b)

/-- The status of the one response a command adds is in its row of the table. -/
theorem exec_status_mem {i : Instr} {s t : State} {r : Response} (hi : ∀ b, i ≠ .rxByte b) (h : exec i s = .next t)
    (hr : t.responses = s.responses ++ [r]) : r.status ∈ canReturn i := by
  obtain ⟨u, r', hnext, hu, hmem⟩ := exec_respondsWithin hi s
  cases hnext.symm.trans h
  rw [State.respond_responses, hu, List.append_right_inj, List.singleton_inj] at hr
  exact hr ▸ hmem

/-! ### Every status of the row -/

/-- The command returns the status for some operand that fits LEN, in some state with legal parameters (R6). -/
def Returns (mk : Bytes → Instr) (st : Status) : Prop :=
  ∃ (op : Bytes) (s t : State) (R : Bytes), s.cfg.Legal ∧ op.length ≤ 65535 ∧ exec (mk op) s = .next t ∧
    t.responses = s.responses ++ [⟨st, R⟩]

/-- `n` bytes of 0x00. -/
def zeroBytes (n : Nat) : Bytes := List.replicate n 0x00

@[simp] theorem zeroBytes_length (n : Nat) : (zeroBytes n).length = n := List.length_replicate

section
variable {mk : Bytes → Instr} {op R : Bytes} {st : Status}

/-- The states of the witnesses below have the parameters of the spec's vectors, MAX_PACKET 256 among them. -/
theorem reset_legal : State.reset.cfg.Legal := by decide

theorem returns_of_next {s t : State} (hs : s.cfg.Legal) (hop : op.length ≤ 65535) (h : exec (mk op) s = .next t)
    (hr : t.responses = s.responses ++ [⟨st, R⟩]) : Returns mk st :=
  ⟨op, s, t, R, hs, hop, h, hr⟩

theorem returns_of_answersWithCrc (hop : op.length ≤ 65535) (h : AnswersWithCrc (mk op) State.reset ⟨st, R⟩) :
    Returns mk st := by
  obtain ⟨v, n, h⟩ := h
  exact returns_of_next reset_legal hop h rfl

theorem returns_of_answers (hop : op.length ≤ 65535) (h : Answers (mk op) State.reset ⟨st, R⟩) : Returns mk st :=
  returns_of_next reset_legal hop h rfl

end

theorem crcUpdate_returns : Returns .crcUpdate .ok ∧ Returns .crcUpdate .truncated := by
  obtain ⟨-, hshort, hok, -⟩ := crcUpdateContinuesTheCrc
  exact ⟨returns_of_answersWithCrc (by decide) (hok 0 [] _), returns_of_answers (by decide) (hshort [] _ (by decide))⟩

/-- The CRC of no bytes is 0xFFFF (40_crc.md R101). -/
theorem crcValidate_returns :
    Returns .crcValidate .ok ∧ Returns .crcValidate .checksumMismatch ∧ Returns .crcValidate .truncated := by
  obtain ⟨-, hshort, hbad, hok⟩ := crcValidateComparesTheTrailer
  exact ⟨returns_of_answersWithCrc (by decide) (hok [] 0xFFFF _ rfl),
    returns_of_answersWithCrc (by decide) (hbad [] 0 _ (by decide)),
    returns_of_answers (by decide) (hshort [] _ (by decide))⟩

theorem crcAppend_returns : Returns .crcAppend .ok ∧ Returns .crcAppend .tooLong := by
  obtain ⟨-, hlong, hok⟩ := crcAppendAddsTheTrailer
  exact ⟨returns_of_answersWithCrc (by decide) (hok [] _ (by decide)).1,
    returns_of_answers (by simp) (hlong (zeroBytes 65534) _ (by simp))⟩

/-- The header commands, each with one length `n` (30_encoding.md R77): `n` bytes of 0x00 are a header or a field vector in
range. -/
theorem fixedLen_returns {mk : Bytes → Instr} {n : Nat} {body : Bytes → State → Result} {R : Bytes}
    (hmk : ∀ op s, exec (mk op) s = withFixedLen n op s (body op s)) (hn : 0 < n ∧ n < 65535)
    (hok : body (zeroBytes n) State.reset = finish State.reset R) :
    Returns mk .ok ∧ Returns mk .truncated ∧ Returns mk .malformed := by
  obtain ⟨hpos, hfits⟩ := hn
  have hexact : exec (mk (zeroBytes n)) State.reset = finish State.reset R :=
    (hmk _ _).trans ((withFixedLen_exact (zeroBytes_length n)).trans hok)
  exact ⟨returns_of_answers (op := zeroBytes n) (by simp; omega) (answers_of_finish hexact),
    returns_of_answers (op := []) (by decide) (answers_of_raise ((hmk _ _).trans (withFixedLen_short hpos))),
    returns_of_answers (op := zeroBytes (n + 1)) (by simp; omega)
      (answers_of_raise ((hmk _ _).trans (withFixedLen_long (by simp))))⟩

theorem cobsFrame_returns : Returns .cobsFrame .ok ∧ Returns .cobsFrame .tooLong := by
  refine ⟨returns_of_answers (op := []) (by decide) (answers_cobsFrame_ok (by decide)),
    returns_of_answers (op := zeroBytes 65534) (by simp) (answers_cobsFrame_tooLong ?_)⟩
  rw [zeroBytes, cobsFrame_zeros_length]
  decide

theorem cobsDeframe_returns : Returns .cobsDeframe .ok ∧ Returns .cobsDeframe .malformed :=
  ⟨returns_of_answers (op := cobsFrame false []) (by decide) (answers_cobsDeframe_ok (cobsDeframe_cobsFrame false [])),
    returns_of_answers (op := []) (by decide) (answers_cobsDeframe_malformed rfl)⟩

/-- RX.POP answers OK where a frame is queued. -/
theorem rxPop_returns : Returns .rxPop .ok ∧ Returns .rxPop .malformed ∧ Returns .rxPop .empty := by
  obtain ⟨-, hpop⟩ := rxPopTakesTheOldestFrame
  obtain ⟨hoperand, hempty, -⟩ := hpop State.reset
  obtain ⟨-, -, hqueued⟩ := hpop (State.reset.setRxq [[0x11, 0x00]])
  exact ⟨returns_of_next (s := State.reset.setRxq [[0x11, 0x00]]) reset_legal (Nat.zero_le _) (hqueued _ [] rfl) rfl,
    returns_of_answers (by decide) (hoperand [0x00] (by decide)), returns_of_answers (by decide) (hempty rfl)⟩

theorem rxStatus_returns : Returns .rxStatus .ok ∧ Returns .rxStatus .malformed := by
  obtain ⟨-, hstatus⟩ := rxStatusReadsAndClears
  obtain ⟨hoperand, hok⟩ := hstatus State.reset
  exact ⟨returns_of_next reset_legal (Nat.zero_le _) hok rfl,
    returns_of_answers (by decide) (hoperand [0x00] (by decide))⟩

/-! ### TM.ASSEMBLE and TM.SEND: field vectors of 0x00 bytes are in range, those of 0xFF bytes are not -/

theorem num_zeroBytes (n i : Nat) : num (zeroBytes n) i = 0 := by
  rw [num, zeroBytes, List.getD_eq_getElem?_getD, List.getElem?_getD_replicate_default_eq]
  rfl

theorem inRange_zeroBytes (n start : Nat) (ws : List Nat) : InRange (zeroBytes n) start ws := fun j _ => by
  simp [num16, num_zeroBytes]

theorem not_inRange_ones : ¬ InRange (List.replicate 28 0xFF) 0 phBits := fun h => absurd (h 0 (by decide)) (by decide)

/-- TM.ASSEMBLE and TM.SEND, which share their checks (43_packets.md R173). -/
theorem tmPacket_returns {mk : Bytes → Instr} {body : State → Bytes → Result} {u : State} {R : Bytes}
    (hmk : ∀ op s, exec (mk op) s = withTmPacket op s (body s))
    (hok : body State.reset (tmPacket (zeroBytes 28)) = finish u R) (hu : u.responses = State.reset.responses) :
    Returns mk .ok ∧ Returns mk .truncated ∧ Returns mk .malformed ∧ Returns mk .tooLong := by
  have hchecks (op) := answers_of_withTmPacket (hmk op State.reset)
  obtain ⟨hshort, -⟩ := hchecks []
  obtain ⟨-, hbad, -⟩ := hchecks (List.replicate 28 0xFF)
  obtain ⟨-, -, hlong, -⟩ := hchecks (zeroBytes 268)
  obtain ⟨-, -, -, hfits⟩ := hchecks (zeroBytes 28)
  have hexec := (hfits (by simp) (inRange_zeroBytes _ _ _) (inRange_zeroBytes _ _ _) (by decide)).trans hok
  exact ⟨returns_of_next (R := R) reset_legal (by simp) hexec (by rw [State.respond_responses, hu]),
    returns_of_answers (by decide) (hshort (by decide)),
    returns_of_answers (by decide) (hbad (by decide) fun h => not_inRange_ones h.1),
    returns_of_answers (by simp) (hlong (by simp) (inRange_zeroBytes _ _ _) (inRange_zeroBytes _ _ _) (by simp; decide))⟩

/-! ### TC.INGEST: one packet for each status, in its frame -/

/-- The packets of the witnesses have at most 263 bytes; their frames fit LEN. -/
theorem cobsFrame_fits {D : Bytes} (hD : D.length ≤ 263) : (cobsFrame false D).length ≤ 65535 := by
  have hframe := cobsFrame_length_le_div false D
  omega

theorem tcIngest_returns_of_error {D : Bytes} {st : Status} (hD : D.length ≤ 263)
    (h : tcIngestPacket State.reset.cfg D = .error st) : Returns .tcIngest st :=
  returns_of_answersWithCrc (cobsFrame_fits hD)
    (answersWithCrc_tcIngest_error ((tcIngest_of_deframed (cobsDeframe_cobsFrame false D)).trans h))

theorem tcIngest_returns : Returns .tcIngest .ok ∧ Returns .tcIngest .checksumMismatch ∧ Returns .tcIngest .truncated ∧
    Returns .tcIngest .malformed ∧ Returns .tcIngest .tooLong := by
  refine ⟨?_, tcIngest_returns_of_error (D := [0, 0, 0, 0, 0, 1, 0, 0]) (by decide) ?_,
    tcIngest_returns_of_error (D := []) (by decide) (tcIngestPacket_noHeader (by decide)),
    tcIngest_returns_of_error (D := zeroBytes 7) (by decide) (tcIngestPacket_noTrailer rfl rfl (by decide) (by decide)),
    tcIngest_returns_of_error (D := [0, 0, 0, 0, 1, 0] ++ zeroBytes 257) (by simp)
      (tcIngestPacket_tooLong (L := 263) rfl (by simp) (by decide))⟩
  · obtain ⟨-, hok⟩ := wellFormedTelecommandIsIngested
    exact returns_of_answersWithCrc (cobsFrame_fits (by simp))
      (hok false ⟨0, 1, 0, 0, 3, 0, 1⟩ [] State.reset rfl rfl (by decide))
  · exact tcIngestPacket_checksumMismatch
      (passesLengthChecks_of_declared (L := 8) rfl rfl (by decide) (by decide) (by decide)) (by decide +kernel)

/-! ### The table -/

theorem decodeCommand_reserved {opc rsv : Byte} {op : Bytes} (hop : op.length ≤ 65535) (hrsv : rsv ≠ 0x00) :
    decodeCommand (portBytes opc rsv op) = .error (.reservedNotZero rsv) := by
  rw [decodeCommand_portBytes opc rsv op hop]
  exact if_pos hrsv

/-- Every status of a command's row is returned by it. -/
theorem canReturn_returns {mk : Bytes → Instr} (hmk : mk ∈ commands) : ∀ st ∈ canReturn (mk []), Returns mk st := by
  simp only [commands, List.mem_cons, List.not_mem_nil, or_false] at hmk
  obtain rfl | rfl | rfl | rfl | rfl | rfl | rfl | rfl | rfl | rfl | rfl | rfl | rfl | rfl | rfl | rfl | rfl := hmk <;>
    simp only [canReturn, List.forall_mem_cons, List.not_mem_nil, false_implies, implies_true, and_true]
  · exact returns_of_answersWithCrc (op := []) (by decide) (crcComputeAnswersTheCrc.2 _ _)
  · exact crcUpdate_returns
  · exact crcValidate_returns
  · exact crcAppend_returns
  · exact fixedLen_returns (n := 14) (fun _ _ => rfl) (by decide) (withRange_good (by decide))
  · exact fixedLen_returns (n := 6) (fun _ _ => rfl) (by decide) rfl
  · exact fixedLen_returns (n := 10) (fun _ _ => rfl) (by decide) (withRange_good (by decide))
  · exact fixedLen_returns (n := 5) (fun _ _ => rfl) (by decide) rfl
  · exact fixedLen_returns (n := 14) (fun _ _ => rfl) (by decide) (withRange_good (by decide))
  · exact fixedLen_returns (n := 9) (fun _ _ => rfl) (by decide) rfl
  · exact cobsFrame_returns
  · exact cobsDeframe_returns
  · exact rxPop_returns
  · exact rxStatus_returns
  · exact tmPacket_returns (body := fun s pkt => finish s.releaseCrc pkt) (fun _ _ => rfl) rfl rfl
  · exact tmPacket_returns
      (body := fun s pkt => finish (s.releaseCrc.emitTx (cobsFrame s.cfg.cobsFullBlockTrailer pkt)) [])
      (fun _ _ => rfl) rfl rfl
  · exact tcIngest_returns

/-- Settles O11: the cases of each meaning, an operand and a state for each status, and RSV as the first check. -/
theorem statusesAreThoseOfTheTable : Obligations.StatusesAreThoseOfTheTable := by
  refine ⟨fun mk hmk op s t r h hr => exec_status_mem (commands_spec hmk op).2 h hr, fun mk hmk => canReturn_returns hmk,
    fun opc hopc rsv op hop => ⟨fun ⟨i, hi⟩ => by_contra fun hrsv => ?_, fun hrsv => ?_⟩⟩
  · cases hi.symm.trans (decodeCommand_reserved hop hrsv)
  · subst hrsv
    obtain ⟨i, hi, -⟩ := illegalCommandHasNoOtherEffect.2 opc op hop hopc
    exact ⟨i, hi⟩

end Sys2Proof.Machine
end

section
/-! Inputs out of turn and the reset pulse (70_reset_and_hazards.md R220, R221, R226). -/

namespace Sys2Proof.Machine

open Sys2Proof.Claims

variable {s : State} {es : List Event}

/-! ### Bytes that are not exactly one command -/

/-- Bytes behind a command are refused whatever its opcode is: LEN says where it ends (30_encoding.md R73). -/
theorem runCommand_bytesAfterCommand (opc rsv : Byte) {op extra : Bytes} (hop : op.length ≤ 65535) (hne : extra ≠ []) :
    runCommand (portBytes opc rsv op ++ extra) s = .refused .overlappingCommand := by
  have hd : decodeCommand (portBytes opc rsv op ++ extra) = .error .bytesAfterCommand := by
    simp only [decodeCommand, readCommand_portBytes opc rsv op extra hop, if_pos hne]
  simp only [runCommand, hd]

/-- Fewer than 4 bytes of a command are no command word (R72). -/
theorem readCommand_take_word (opc rsv : Byte) (op : Bytes) {k : Nat} (hk : k < 4) :
    readCommand ((portBytes opc rsv op).take k) = .error .missingWord := by
  interval_cases k <;> rfl

/-- A command word with fewer operand bytes than LEN (R72). -/
theorem readCommand_take_operand (opc rsv : Byte) {op : Bytes} (hop : op.length ≤ 65535) {n : Nat}
    (hn : n < op.length) : readCommand ((portBytes opc rsv op).take (n + 4)) = .error .missingOperand := by
  have hlt : (op.take n).length < op.length := (List.length_take_le n op).trans_lt hn
  simp only [portBytes, be16Nat, be16, List.cons_append, List.nil_append, List.take_succ_cons, readCommand, readLen hop,
    if_pos hlt]

theorem runCommand_properPart (opc rsv : Byte) {op : Bytes} {k : Nat} (hop : op.length ≤ 65535)
    (hk : k < 4 + op.length) : runCommand ((portBytes opc rsv op).take k) s = .refused .incompleteCommand := by
  obtain hword | hword := Nat.lt_or_ge k 4
  · simp only [runCommand, decodeCommand, readCommand_take_word opc rsv op hword]
  · obtain ⟨n, rfl⟩ := Nat.exists_eq_add_of_le' hword
    have hn : n < op.length := by omega
    simp only [runCommand, decodeCommand, readCommand_take_operand opc rsv hop hn]

/-- Settles O7: LEN fixes the length of a command, and fewer bytes miss a part of its word or of its operand. -/
theorem outOfTurnInputIsRefused : Obligations.OutOfTurnInputIsRefused :=
  ⟨fun _ opc rsv _ _ _ hop hne hp => (step_cons hp).trans (runCommand_bytesAfterCommand opc rsv hop hne),
    fun _ opc rsv _ _ _ hop hk hp => (step_cons hp).trans (runCommand_properPart opc rsv hop hk),
    fun _ _ hp => step_cons hp⟩

/-! ### The reset pulse -/

/-- After a reset pulse the RX status register reads four zero bytes (R221). -/
theorem rxStatusRegister_resetPulse (s : State) : rxStatusRegister s.resetPulse = [0x00, 0x00, 0x00, 0x00] := by
  rw [rxStatusRegister_eq]
  simp [byte]

theorem decodeCommand_status : decodeCommand [0x23, 0x00, 0x00, 0x00] = .ok (.rxStatus []) := by decide

/-- An RX.STATUS as the next input answers the RX status register and clears `rx_lost` (42_framing.md R153). -/
theorem step_statusCommand (hp : s.pending = statusCommand :: es) :
    step s = finish ((s.setPending es).setLost false) (rxStatusRegister s) :=
  calc step s
    _ = runCommand [0x23, 0x00, 0x00, 0x00] (s.setPending es) := step_cons hp
    _ = exec (.rxStatus []) (s.setPending es) := runCommand_ok decodeCommand_status

/-- Settles O52: the pulse's own fields, and the RX.STATUS behind it reads the emptied synchronizer. -/
theorem resetPulseEmptiesTheSynchronizer : Obligations.ResetPulseEmptiesTheSynchronizer := by
  intro s es hp
  refine ⟨(s.setPending es).resetPulse, step_cons hp, rfl, rfl, rfl, rfl, rfl, ?_⟩
  rintro es' rfl
  refine ⟨_, step_statusCommand rfl, ?_, rfl, rfl, rfl⟩
  rw [rxStatusRegister_resetPulse]
  rfl

end Sys2Proof.Machine
end
